-- ==== Sys2Proof/Word.lean ====
section
/-! DEFINITION. The word and byte types of the block and the sentinel word (spec 00_scope.md R8, 10_state.md R42). -/

namespace Sys2Proof

/-- A word of the block: `W = 32` bits (R6, R8). -/
abbrev Word := BitVec 32

/-- A byte of the image file and of the memory cells (R52, R103). -/
abbrev Byte := BitVec 8

/-- The one word all four sentinels are (R42). -/
def sentinel : Word := 0xFFFFFFFF#32

/-- `UNMAPPED`, a page-table entry that names no frame (R42). -/
abbrev unmapped : Word := sentinel

/-- `NO_FRAME`, AcquireFrame's answer on exhaustion (R42, R66). -/
abbrev noFrame : Word := sentinel

/-- `NO_FIT`, AllocateMemory's answer when no block fits (R42, R73). -/
abbrev noFit : Word := sentinel

/-- `NIL`, the rover of an empty free list (R37, R42). -/
abbrev nil : Word := sentinel

end Sys2Proof
end

