-- ==== Sys2Proof/Config.lean ====
section
/-! DEFINITION. What a configuration fixes at reset (spec 00_scope.md R6, R7; 10_state.md R34) and the model's free values. -/

namespace Sys2Proof

/-- The four scheduling policies (R6, D5). -/
inductive Policy where
  | fcfs
  | sjf
  | rr
  | prio
deriving DecidableEq, Repr

/-- The two opcode maps (R6, R95, R96, D9). -/
inductive OpmapMode where
  | precedence
  | disjoint
deriving DecidableEq, Repr

/-- Which register the page-fault handler's argument comes from (R6, R136, D16). -/
inductive FaultArgReg where
  | instrReg
  | regA
deriving DecidableEq, Repr

/-- The configuration registers and size parameters (R34), fixed at reset and read-only afterwards. -/
structure Config where
  /-- `POLICY` -/
  policy : Policy
  /-- `QUANTUM` -/
  quantum : Word
  /-- `OPMAP_MODE` -/
  opmapMode : OpmapMode
  /-- `INT_IP_ADVANCE` -/
  intIpAdvance : Bool
  /-- `FAULT_ARG_REG` -/
  faultArgReg : FaultArgReg
  /-- `HEAP_BASE` -/
  heapBase : Word
  /-- `HEAP_WORDS` -/
  heapWords : Word
  /-- `ALLOC_XLATE` -/
  allocXlate : Bool
  /-- `RAM_WORDS` -/
  ramWords : Nat
  /-- `PAGE_SIZE` -/
  pageSize : Nat
deriving DecidableEq, Repr

/-- `FRAME_COUNT = RAM_WORDS / PAGE_SIZE` (R6). -/
def Config.frameCount (c : Config) : Nat := c.ramWords / c.pageSize

/-- `PT_ENTRIES`, equal to `FRAME_COUNT` (R6). -/
def Config.ptEntries (c : Config) : Nat := c.frameCount

/-- The first address past the allocator's range, as an unbounded integer (R6, R8). -/
def Config.heapEnd (c : Config) : Nat := c.heapBase.toNat + c.heapWords.toNat

/-- `PID_LIMIT`, the number of distinct process ids (R6, D33). -/
def pidLimit : Nat := 2 ^ 32

/-- The constraints R6 puts on the parameters. -/
abbrev Config.wf (c : Config) : Prop :=
  1 ≤ c.pageSize ∧ c.pageSize ≤ c.ramWords ∧ c.ramWords % c.pageSize = 0 ∧
    c.ramWords ≤ 2 ^ 32 - c.pageSize ∧ 2 ≤ c.heapWords.toNat ∧ c.heapEnd ≤ c.ramWords ∧
    1 ≤ c.quantum.toNat

/-- A frame base address: a multiple of `PAGE_SIZE` below `RAM_WORDS` (R12, R26). -/
abbrev Config.isFrame (c : Config) (f : Word) : Prop :=
  f.toNat % c.pageSize = 0 ∧ f.toNat < c.ramWords

/-- The reference configuration RC (R7), under a policy and a quantum that RC leaves to each use. -/
def Config.rc (policy : Policy) (quantum : Word) : Config where
  policy := policy
  quantum := quantum
  opmapMode := .precedence
  intIpAdvance := false
  faultArgReg := .instrReg
  heapBase := 0
  heapWords := 32
  allocXlate := false
  ramWords := 64
  pageSize := 8

/-- The configuration of `State.reset`: RC with FCFS (the policy of the source's Scenario A) and quantum 5
(the one number the source gives, Scenario B). DESIGN CHOICE, unsafe: log entry 3. -/
def Config.reference : Config := Config.rc .fcfs 5

/-- FREE VALUE (log entry 6): the word that an allocator sum of `2^32` or more leaves in RAM, where the spec states the
write but no value. It is a function of the sum alone, so a STEP stays a function of the block's state (R117). It has
no body, so no proof can tell its value. -/
opaque Config.unstatedWord (sum : Nat) : Word

end Sys2Proof
end

