-- ==== Sys2Proof/Machine/OpcodeMap.lean ====
section
/-! DEFINITION. The opcode maps: the two tables of spec 30_encoding.md R95 (PRECEDENCE) and R96 (DISJOINT). -/

namespace Sys2Proof

/-- The eleven mnemonics of the opcode map (R2). -/
inductive Mnemonic where
  | mova
  | movb
  | movc
  | jmp
  | int
  | lda
  | ldb
  | ldc
  | sta
  | stb
  | stc
deriving DecidableEq, Repr

/-- The opcode value of a mnemonic in a map (R95, R96). LDA and STA are the two that differ. -/
def opcodeValue (m : OpmapMode) : Mnemonic → Word
  | .mova => 0x10
  | .movb => 0x11
  | .movc => 0x12
  | .jmp => 0x20
  | .int => 0x30
  | .lda => match m with
    | .precedence => 0x20
    | .disjoint => 0x23
  | .ldb => 0x21
  | .ldc => 0x22
  | .sta => match m with
    | .precedence => 0x30
    | .disjoint => 0x33
  | .stb => 0x31
  | .stc => 0x32

/-- The rows in the order the decoder compares them: MOVx, JMP, INT, the loads, the stores (R95). -/
def opcodeOrder : List Mnemonic :=
  [.mova, .movb, .movc, .jmp, .int, .lda, .ldb, .ldc, .sta, .stb, .stc]

/-- The first row whose value is the whole opcode word, if any (R93, R95, R97). -/
def lookupOpcode (m : OpmapMode) (w0 : Word) : Option Mnemonic :=
  opcodeOrder.find? fun op => opcodeValue m op == w0

end Sys2Proof
end

