-- ==== Sys2Proof/Syntax.lean ====
section
/-! DEFINITION. The instructions: one constructor per row of spec/opcode_table.json (spec 30_encoding.md R90 to R98). -/

namespace Sys2Proof

/-- An instruction with its operand word `w1` (R92). The register an instruction names is part of its opcode (R90). -/
inductive Instr where
  /-- `MOVA imm` (R120) -/
  | mova (imm : Word)
  /-- `MOVB imm` (R121) -/
  | movb (imm : Word)
  /-- `MOVC imm` (R122) -/
  | movc (imm : Word)
  /-- `JMP rel` (R125) -/
  | jmp (rel : Word)
  /-- `INT code` (R126) -/
  | int (code : Word)
  /-- `LDA [addr]` (R137) -/
  | lda (addr : Word)
  /-- `LDB [addr]` (R138) -/
  | ldb (addr : Word)
  /-- `LDC [addr]` (R139) -/
  | ldc (addr : Word)
  /-- `STA [addr]` (R140) -/
  | sta (addr : Word)
  /-- `STB [addr]` (R141) -/
  | stb (addr : Word)
  /-- `STC [addr]` (R142) -/
  | stc (addr : Word)
  /-- Any other opcode word, with the operand word it ignores (R98, R115) -/
  | invalid (word operand : Word)
deriving DecidableEq, Repr

/-- The operand word of an instruction (R90, R91). -/
def Instr.operand : Instr → Word
  | .mova w => w
  | .movb w => w
  | .movc w => w
  | .jmp w => w
  | .int w => w
  | .lda w => w
  | .ldb w => w
  | .ldc w => w
  | .sta w => w
  | .stb w => w
  | .stc w => w
  | .invalid _ w => w

end Sys2Proof
end

