-- ==== Sys2Proof/WellFormed.lean ====
section
/-! DEFINITION. Which instructions an opcode map can express (spec 30_encoding.md R95 to R99). -/

namespace Sys2Proof

/-- Well-formed under a map: LDA and STA have no word of their own under PRECEDENCE (R95, R99), and an
invalid opcode word is one that no row of the active table holds (R98). -/
def Instr.wf (m : OpmapMode) : Instr → Bool
  | .mova _ => true
  | .movb _ => true
  | .movc _ => true
  | .jmp _ => true
  | .int _ => true
  | .lda _ => m == .disjoint
  | .ldb _ => true
  | .ldc _ => true
  | .sta _ => m == .disjoint
  | .stb _ => true
  | .stc _ => true
  | .invalid w _ => (lookupOpcode m w).isNone

end Sys2Proof
end

