-- ==== Sys2Proof/Decode.lean ====
section
/-! DEFINITION. The decoder, total on every pair of words (spec 30_encoding.md R97), the encoder, and the host's entry
`decodeTableWord`. -/

namespace Sys2Proof

/-- The instruction a mnemonic makes with its operand word (R92). -/
def Mnemonic.instr (operand : Word) : Mnemonic → Instr
  | .mova => .mova operand
  | .movb => .movb operand
  | .movc => .movc operand
  | .jmp => .jmp operand
  | .int => .int operand
  | .lda => .lda operand
  | .ldb => .ldb operand
  | .ldc => .ldc operand
  | .sta => .sta operand
  | .stb => .stb operand
  | .stc => .stc operand

/-- `Decode(w0)` with the operand word beside it (R97). A word of no row is the row (invalid), by name (R98). -/
def decode (m : OpmapMode) (w0 w1 : Word) : Instr :=
  match lookupOpcode m w0 with
  | some op => op.instr w1
  | none => .invalid w0 w1

/-- The opcode word of an instruction: its row's value in the map (R95, R96), or the unrecognised word itself (R98). -/
def opcodeWord (m : OpmapMode) : Instr → Word
  | .mova _ => opcodeValue m .mova
  | .movb _ => opcodeValue m .movb
  | .movc _ => opcodeValue m .movc
  | .jmp _ => opcodeValue m .jmp
  | .int _ => opcodeValue m .int
  | .lda _ => opcodeValue m .lda
  | .ldb _ => opcodeValue m .ldb
  | .ldc _ => opcodeValue m .ldc
  | .sta _ => opcodeValue m .sta
  | .stb _ => opcodeValue m .stb
  | .stc _ => opcodeValue m .stc
  | .invalid w _ => w

/-- The words of an instruction, opcode word first (R90, R91). -/
def encode (m : OpmapMode) (i : Instr) : Word × Word :=
  (opcodeWord m i, i.operand)

/-- Why a list of words holds no instruction. -/
inductive DecodeError where
  /-- Fewer than the two words every instruction has (R91). -/
  | truncated
deriving DecidableEq, Repr

/-- The instruction at the head of a list of words, with the words after it (R91). -/
def decodeWords (m : OpmapMode) : List Word → Except DecodeError (Instr × List Word)
  | w0 :: w1 :: rest => .ok (decode m w0 w1, rest)
  | _ => .error .truncated

/-- The two words of an instruction whose bits are `w`, numbered as the opcode table numbers them: bits 31..0 the
opcode word, bits 63..32 the operand word, every bit from `nbits` on 0. -/
def tableWords (nbits w : Nat) : Word × Word :=
  (BitVec.ofNat 32 (w % 2 ^ nbits), BitVec.ofNat 32 (w % 2 ^ nbits / 2 ^ 32))

/-- The instruction the decoder reads from such bits, under the opcode map that `Machine.State.reset` has
(log entry 19). No word is refused: the decoder is total (R97). -/
def decodeTableWord (nbits w : Nat) : Option Instr :=
  let ws := tableWords nbits w
  some (decode Config.reference.opmapMode ws.1 ws.2)

end Sys2Proof
end

