-- ==== Sys2Proof/Machine/Memory.lean ====
section
/-! DEFINITION. RAM as a list of byte cells in one canonical form, and the word accesses over it
(spec 10_state.md R25; 20_memory.md R51, R52, R54). Word `k` is the four cells `4k` to `4k+3`, least significant byte
first; the byte order is not observable inside the block (R52). DESIGN CHOICE, safe: log entry 1. -/

namespace Sys2Proof.Machine

/-- RAM's contents, as cells. -/
abbrev Memory := List Host.Cell

/-- What an unlisted cell reads as: RAM is all 0 at reset (R200, D29). -/
def Memory.unlisted : Byte := 0

/-- The canonical form: addresses strictly rising, no cell equal to what an unlisted one reads as. -/
abbrev Memory.wf (m : Memory) : Prop :=
  m.Pairwise (fun x y => x.1 < y.1) ∧ ∀ x ∈ m, x.2 ≠ Memory.unlisted

/-- The byte of one cell. -/
def Memory.read : Memory → Nat → Byte
  | [], _ => Memory.unlisted
  | (k, b) :: m, a => if k = a then b else Memory.read m a

/-- A cell put at the head of cells of higher addresses, left out where it is what an unlisted cell reads as. -/
def Memory.cons (a : Nat) (b : Byte) (m : Memory) : Memory :=
  if b = Memory.unlisted then m else (a, b) :: m

/-- One cell written, in canonical form. -/
def Memory.write : Memory → Nat → Byte → Memory
  | [], a, b => Memory.cons a b []
  | (k, c) :: m, a, b =>
    if a < k then Memory.cons a b ((k, c) :: m)
    else if a = k then Memory.cons a b m
    else (k, c) :: Memory.write m a b

/-- The byte `j` of a word, byte 0 the least significant. -/
def wordByte (v : Word) (j : Nat) : Byte := v.extractLsb' (8 * j) 8

/-- The word of four bytes, the first the least significant (R103, D32). -/
def wordOfBytes (b0 b1 b2 b3 : Byte) : Word := b3 ++ b2 ++ b1 ++ b0

/-- `RAM[k]` (R25). -/
def Memory.readWord (m : Memory) (k : Nat) : Word :=
  wordOfBytes (m.read (4 * k)) (m.read (4 * k + 1)) (m.read (4 * k + 2)) (m.read (4 * k + 3))

/-- `RAM[k] <- v` (R25). -/
def Memory.writeWord (m : Memory) (k : Nat) (v : Word) : Memory :=
  (((m.write (4 * k) (wordByte v 0)).write (4 * k + 1) (wordByte v 1)).write (4 * k + 2) (wordByte v 2)).write
    (4 * k + 3) (wordByte v 3)

end Sys2Proof.Machine
end

