-- ==== Sys2Proof/Machine/Boot.lean ====
section
/-! DEFINITION. The handler identities and vector slots, and what reset puts into the slots, the pool and RAM
(spec 60_exceptions.md R150, R151; 20_memory.md R68, R71; 70_reset_and_hazards.md R200). -/

namespace Sys2Proof.Machine

/-- The handlers a vector slot can hold (R151). -/
inductive Handler where
  /-- NOP: changes no state -/
  | nop
  /-- SWI_FCFS (R165) -/
  | swiFcfs
  /-- SWI_SJF (R166) -/
  | swiSjf
  /-- TMR_RR (R167) -/
  | tmrRr
  /-- SWI_RR (R168) -/
  | swiRr
  /-- TMR_PRIO (R169) -/
  | tmrPrio
  /-- SWI_PRIO (R170) -/
  | swiPrio
  /-- PF (R162) -/
  | pf
deriving DecidableEq, Repr

/-- The four vectors by name, in slot order 0 to 3 (R150). -/
inductive VectorIndex where
  | timer
  | software
  | pageFault
  | reserved
deriving DecidableEq, Repr

/-- `VEC[0..3]` (R33). -/
structure Vectors where
  /-- `VEC[0]` -/
  timer : Handler
  /-- `VEC[1]` -/
  software : Handler
  /-- `VEC[2]` -/
  pageFault : Handler
  /-- `VEC[3]` -/
  reserved : Handler
deriving DecidableEq, Repr

/-- The handler a slot holds. -/
def Vectors.slot (v : Vectors) : VectorIndex → Handler
  | .timer => v.timer
  | .software => v.software
  | .pageFault => v.pageFault
  | .reserved => v.reserved

/-- What reset puts into the four slots for each policy (R151). -/
def vectorsOf : Policy → Vectors
  | .fcfs => { timer := .nop, software := .swiFcfs, pageFault := .pf, reserved := .nop }
  | .sjf => { timer := .nop, software := .swiSjf, pageFault := .pf, reserved := .nop }
  | .rr => { timer := .tmrRr, software := .swiRr, pageFault := .pf, reserved := .nop }
  | .prio => { timer := .tmrPrio, software := .swiPrio, pageFault := .pf, reserved := .nop }

/-- The frame bases of frames `0` to `n-1`, pushed in ascending order, so the last one is on top (R68). The list's head
is the top of the stack. -/
def pushFrames (pageSize : Nat) : Nat → List Word
  | 0 => []
  | n + 1 => BitVec.ofNat 32 (n * pageSize) :: pushFrames pageSize n

/-- `POOL` at reset: every frame (R68). -/
def initialPool (c : Config) : List Word := pushFrames c.pageSize c.frameCount

/-- RAM at reset: all 0, then one free block's header over the whole allocator range (R71, R200). -/
def initialMemory (c : Config) : Memory :=
  (Memory.writeWord [] c.heapBase.toNat c.heapBase).writeWord (c.heapBase.toNat + 1) c.heapWords

/-- `CreateEmptyPageTable()` (R64). -/
def emptyPageTable (c : Config) : List Word := List.replicate c.ptEntries unmapped

end Sys2Proof.Machine
end

