-- ==== Sys2Proof/Machine/State.lean ====
section
/-! DEFINITION. The state of the block (spec 10_state.md), its state after reset (70_reset_and_hazards.md R200, R206), and
the reasons a step can stop. -/

namespace Sys2Proof.Machine

/-- The register set `(a, b, c, flags, ip, sp)`, a plain value copied wholesale (R20 to R24). -/
structure Regs where
  a : Word
  b : Word
  c : Word
  /-- reserved: no instruction reads or writes it (R21) -/
  flags : Word
  /-- a physical word address (R22) -/
  ip : Word
  /-- unused by the instructions (R23) -/
  sp : Word
deriving DecidableEq, Repr

/-- The register set of a new process but for `ip`, and the live one at reset: zeros (R200, R204). -/
def Regs.zero : Regs := { a := 0, b := 0, c := 0, flags := 0, ip := 0, sp := 0 }

/-- The general registers by index: `x[0] = a`, `x[1] = b`, `x[2] = c` (R20). -/
inductive GReg where
  | a
  | b
  | c
deriving DecidableEq, Repr

/-- The states of a process (R29, R31). -/
inductive ProcState where
  | new
  | ready
  | running
  /-- reserved: nothing sets it (R31) -/
  | waiting
  | terminated
deriving DecidableEq, Repr

/-- A process record (R29). -/
structure Process where
  pid : Word
  extStart : Word
  extSize : Word
  /-- the saved register set -/
  regs : Regs
  /-- the page table `PT[p]`, `PT_ENTRIES` words (R27) -/
  pt : List Word
  state : ProcState
  /-- signed (R29) -/
  prio : Word
  /-- unsigned (R29) -/
  burst : Word
deriving DecidableEq, Repr

/-- `PHASE` (R35). -/
inductive Phase where
  | construct
  | run
  | halted
deriving DecidableEq, Repr

/-- The halt reasons the source names (R152) and the model faults (R153). -/
inductive HaltReason where
  | noProcess
  | noFrame
  | pidExhausted
  | fetchRange
  | vaRange
  | undefInt
  | undefSyscall
  | ptRange
  | badRelease
  | heapFault
deriving DecidableEq, Repr

/-- An event of the output sequence `TRACE` (R39, R116). -/
inductive TraceEvent where
  /-- the address and the word of an invalid opcode -/
  | invalidOpcode (ip word : Word)
deriving DecidableEq, Repr

/-- The host's events with their arguments (R190). -/
inductive HostEvent where
  | hostWrite (pa v : Word)
  | hostAlloc (units : Word)
  | hostCreate (extStart extSize burst prio : Word)
  | start
  | step
  | timer
  | swi
  | frameAcquire
  | frameRelease (f : Word)
  | observe
deriving DecidableEq, Repr

/-- The result of a host event (R190). -/
inductive Reply where
  /-- HOST_ALLOC: the address and the reserved size, or `(NO_FIT, 0)` (R203) -/
  | extent (addr size : Word)
  /-- HOST_CREATE: the pid (R204) -/
  | pid (pid : Word)
  /-- FRAME_ACQUIRE: the frame base, or `NO_FRAME` (R66) -/
  | frame (f : Word)
deriving DecidableEq, Repr

/-- The state of the block between events. -/
structure State where
  /-- the configuration registers, read-only after reset (R34) -/
  cfg : Config
  /-- the live register set (R24) -/
  regs : Regs
  /-- `RAM` (R25) -/
  mem : Memory
  /-- `POOL`, the head is the top of the stack (R26) -/
  pool : List Word
  /-- `PROCS`, in creation order (R30) -/
  procs : List Process
  /-- `LIVE_PT`: a pid, or none for `NONE` (R28) -/
  livePt : Option Word
  /-- `CUR` (R32) -/
  cur : Nat
  /-- `TICKS` (R32) -/
  ticks : Word
  /-- `VEC[0..3]` (R33) -/
  vec : Vectors
  /-- `PHASE` (R35) -/
  phase : Phase
  /-- `HALT_REASON` (R35) -/
  haltReason : BitVec 8
  /-- `NEXT_PID`, in `[0, PID_LIMIT]` (R36) -/
  nextPid : Nat
  /-- `ROVER` (R37) -/
  rover : Word
  /-- `TRACE`, oldest event first (R39) -/
  trace : List TraceEvent
  /-- MODEL'S OWN (log entry 4): the host events still to come, the next one first (R191) -/
  pending : List HostEvent
  /-- MODEL'S OWN (log entry 5): the results of the host events so far, oldest first (R190) -/
  replies : List Reply
deriving DecidableEq, Repr

/-- Why the MODEL stops: a rule's own precondition does not hold. All are raised only in states that break the
invariant `State.Inv` of Safety.lean, which no run reaches. Safe: the model stops where the spec says nothing
(log entry 8). -/
inductive Fault where
  /-- MemRead or MemWrite outside RAM, which R51 says is never performed. Safe. -/
  | ramRange (pa : Nat)
  /-- a translation or a page-table write while LIVE_PT names no process in PROCS, or names one whose page table has
  no such entry below PT_ENTRIES (R27, R28, R60). Safe. -/
  | noLiveEntry (page : Nat)
  /-- a handler reads a process index outside PROCS (R32). Safe. -/
  | noSuchProcess (index : Nat)
  /-- a slot other than the page-fault vector's holds the page-fault handler, which needs an argument (R150, R151). Safe. -/
  | noHandlerArgument
  /-- a page the page-fault handler has just mapped misses again (R72). Safe. -/
  | missAfterService (page : Nat)
deriving DecidableEq, Repr

/-- Why the model refuses a step. -/
inductive Refusal where
  /-- exec's arm of an instruction that has no meaning yet: no instruction of this model. Safe. -/
  | notModelled (mnemonic : String)
  /-- a host event outside its admitted phases, which has no transition (R190, R193, I30). Safe. -/
  | eventNotAdmitted (event : HostEvent) (phase : Phase)
  /-- HOST_WRITE outside RAM, which has no transition (R202). Safe. -/
  | hostWriteRange (pa : Word)
deriving DecidableEq, Repr

/-- The state after reset under a configuration (R200, R206). -/
def State.resetWith (c : Config) : State where
  cfg := c
  regs := Regs.zero
  mem := initialMemory c
  pool := initialPool c
  procs := []
  livePt := none
  cur := 0
  ticks := 0
  vec := vectorsOf c.policy
  phase := .construct
  haltReason := 0
  nextPid := 0
  rover := c.heapBase
  trace := []
  pending := []
  replies := []

/-- The state after reset in the configuration the log names (R200; log entry 3). -/
def State.reset : State := State.resetWith Config.reference

end Sys2Proof.Machine
end

