-- ==== Sys2Proof/Machine/Event.lean ====
section
/-! DEFINITION. How a part of an event ends, the named updates of the state, and `halt` and `fault`
(spec 00_scope.md R9; 60_exceptions.md R152, R153). -/

namespace Sys2Proof.Machine

/-- How a part of an event ends. -/
inductive Ev (α : Type) where
  /-- with a result; the event goes on -/
  | ok (a : α) (s : State)
  /-- with `halt` or `fault`, which end the event at once (R9) -/
  | ended (s : State)
  /-- in a state that breaks a rule's precondition -/
  | broken (f : Fault)

/-- The rest of an event after a part of it. -/
def Ev.bind {α β : Type} (x : Ev α) (f : α → State → Ev β) : Ev β :=
  match x with
  | .ok a s => f a s
  | .ended s => .ended s
  | .broken r => .broken r

/-- The outcome of a whole event: one that ended by `halt` or `fault` has a next state too (R152, R153; log entry 7). -/
def Ev.outcome (x : Ev Unit) : Host.Outcome State Fault Refusal :=
  match x with
  | .ok _ s => .next s
  | .ended s => .next s
  | .broken r => .fault r

def State.setRegs (s : State) (r : Regs) : State := { s with regs := r }
def State.setMem (s : State) (m : Memory) : State := { s with mem := m }
def State.setPool (s : State) (p : List Word) : State := { s with pool := p }
def State.setProcs (s : State) (ps : List Process) : State := { s with procs := ps }
def State.setLivePt (s : State) (p : Option Word) : State := { s with livePt := p }
def State.setCur (s : State) (i : Nat) : State := { s with cur := i }
def State.setTicks (s : State) (t : Word) : State := { s with ticks := t }
def State.setPhase (s : State) (p : Phase) : State := { s with phase := p }
def State.setHaltReason (s : State) (r : BitVec 8) : State := { s with haltReason := r }
def State.setNextPid (s : State) (n : Nat) : State := { s with nextPid := n }
def State.setRover (s : State) (w : Word) : State := { s with rover := w }
def State.setTrace (s : State) (t : List TraceEvent) : State := { s with trace := t }
def State.setPending (s : State) (es : List HostEvent) : State := { s with pending := es }
def State.setReplies (s : State) (rs : List Reply) : State := { s with replies := rs }

/-- The code of a halt reason (R152, R153, D10). -/
def HaltReason.code : HaltReason → BitVec 8
  | .noProcess => 1
  | .noFrame => 2
  | .pidExhausted => 3
  | .fetchRange => 16
  | .vaRange => 17
  | .undefInt => 18
  | .undefSyscall => 19
  | .ptRange => 20
  | .badRelease => 21
  | .heapFault => 22

/-- The halted state: `PHASE <- HALTED`, `HALT_REASON <- code`, nothing else (R152, R153). -/
def State.halt (s : State) (r : HaltReason) : State := (s.setPhase .halted).setHaltReason r.code

/-- `halt(reason)` and `fault(reason)`: the halted state, and the event ends (R9, R152, R153). -/
def haltEvent {α : Type} (r : HaltReason) (s : State) : Ev α := .ended (s.halt r)

end Sys2Proof.Machine
end

