-- ==== Sys2Proof/Machine/Mmu.lean ====
section
/-! DEFINITION. The MMU: word accesses, translation, the frame pool and the page-fault handler
(spec 20_memory.md R50 to R69; 60_exceptions.md R162). -/

namespace Sys2Proof.Machine

/-- `MemRead(pa, 1)`, which requires `pa < RAM_WORDS` (R51). -/
def memRead (pa : Nat) (s : State) : Ev Word :=
  if pa < s.cfg.ramWords then .ok (s.mem.readWord pa) s else .broken (.ramRange pa)

/-- `MemWrite(pa, 1, v)`, which requires `pa < RAM_WORDS` (R51). -/
def memWrite (pa : Nat) (v : Word) (s : State) : Ev Unit :=
  if pa < s.cfg.ramWords then .ok () (s.setMem (s.mem.writeWord pa v)) else .broken (.ramRange pa)

/-- The page table that `LIVE_PT` names (R28). -/
def State.livePageTable (s : State) : Option (List Word) :=
  match s.livePt with
  | none => none
  | some pid => (s.procs.find? fun p => p.pid == pid).map Process.pt

/-- `PT[LIVE_PT][page]` (R28, R60); none where no live table has such an entry. -/
def State.liveEntry (s : State) (page : Nat) : Option Word :=
  match s.livePageTable with
  | none => none
  | some pt => pt[page]?

/-- The page index of a virtual address (R60). -/
def State.pageOf (s : State) (va : Nat) : Nat := va / s.cfg.pageSize

/-- The offset of a virtual address in its page (R60). -/
def State.offsetOf (s : State) (va : Nat) : Nat := va % s.cfg.pageSize

/-- What a translation finds (R60). -/
inductive Translation where
  /-- a physical address -/
  | hit (pa : Nat)
  /-- a page that no frame backs -/
  | miss (page : Nat)
deriving DecidableEq, Repr

/-- `Translate(va)`, the page-table walk (R60, R61). It reads the live table at the moment of the access (R62). -/
def translate (va : Nat) (s : State) : Ev Translation :=
  if s.cfg.ptEntries ≤ s.pageOf va then haltEvent .vaRange s
  else
    match s.liveEntry (s.pageOf va) with
    | none => .broken (.noLiveEntry (s.pageOf va))
    | some f => if f = unmapped then .ok (.miss (s.pageOf va)) s else .ok (.hit (f.toNat + s.offsetOf va)) s

/-- `AcquireFrame()`: the top of the pool popped, or `NO_FRAME` (R66). -/
def acquireFrame (s : State) : Word × State :=
  match s.pool with
  | [] => (noFrame, s)
  | f :: rest => (f, s.setPool rest)

/-- `ReleaseFrame(f)` with its ownership check (R67). -/
def releaseFrame (f : Word) (s : State) : Ev Unit :=
  if f.toNat % s.cfg.pageSize ≠ 0 ∨ s.cfg.ramWords ≤ f.toNat ∨ f ∈ s.pool then haltEvent .badRelease s
  else .ok () (s.setPool (f :: s.pool))

/-- A process record with one page-table entry written. -/
def Process.setEntry (p : Process) (page : Nat) (f : Word) : Process := { p with pt := p.pt.set page f }

/-- `PT[LIVE_PT][page] <- f` (R65). -/
def writeLiveEntry (page : Nat) (f : Word) (s : State) : Ev Unit :=
  match s.liveEntry page with
  | none => .broken (.noLiveEntry page)
  | some _ => .ok () (s.setProcs (s.procs.map fun p => if s.livePt = some p.pid then p.setEntry page f else p))

/-- `PF(arg)`, the page-fault handler (R162). A mapped entry is overwritten (D40). -/
def pfHandler (arg : Word) (s : State) : Ev Unit :=
  if s.cfg.ptEntries ≤ arg.toNat then haltEvent .ptRange s
  else
    let (f, s) := acquireFrame s
    if f = noFrame then haltEvent .noFrame s else writeLiveEntry arg.toNat f s

end Sys2Proof.Machine
end

