-- ==== Sys2Proof/Machine/Allocator.lean ====
section
/-! DEFINITION. The next-fit extent allocator (spec 20_memory.md R70 to R76). Addresses, sizes and sums are unbounded
integers (R8); a word read from RAM enters them by `u()`. The arguments of an access are evaluated before the access
(DEDUCED, log entry 10). -/

namespace Sys2Proof.Machine

/-- `HeapCheck(x)` (R72). -/
def heapCheck (x : Nat) (s : State) : Ev Unit :=
  if x < s.cfg.heapBase.toNat ∨ s.cfg.heapEnd ≤ x then haltEvent .heapFault s else .ok () s

/-- The second pass of `Phys`: the page has just been mapped, so this translation hits (log entry 20). -/
def physAfterService (x : Nat) (s : State) : Ev Nat :=
  (translate x s).bind fun t s =>
    match t with
    | .hit pa => .ok pa s
    | .miss page => .broken (.missAfterService page)

/-- `Phys(x)`: the physical address of an allocator address. Under `ALLOC_XLATE` with a live table a miss runs the
page-fault handler's body inline, with no vector dispatch (R72, R156, R158). -/
def phys (x : Nat) (s : State) : Ev Nat :=
  if s.cfg.allocXlate = true ∧ s.livePt ≠ none then
    (translate x s).bind fun t s =>
      match t with
      | .hit pa => .ok pa s
      | .miss page => (pfHandler (BitVec.ofNat 32 page) s).bind fun _ s => physAfterService x s
  else .ok x s

/-- `ARead(x)` (R72). -/
def aRead (x : Nat) (s : State) : Ev Nat :=
  (heapCheck x s).bind fun _ s =>
    (phys x s).bind fun pa s =>
      (memRead pa s).bind fun v s => .ok v.toNat s

/-- The word an unbounded integer leaves in RAM. One that no word holds (a size sum of `2^32` or more, possible only
from a corrupted header that passed the checks, I19) leaves a FREE VALUE that depends on the sum alone: log entry 6. -/
def storedWord (v : Nat) : Word := if v < 2 ^ 32 then BitVec.ofNat 32 v else Config.unstatedWord v

/-- `AWrite(x, v)` (R72). -/
def aWrite (x : Nat) (v : Nat) (s : State) : Ev Unit :=
  (heapCheck x s).bind fun _ s =>
    (phys x s).bind fun pa s => memWrite pa (storedWord v) s

/-- `CheckBlock(p)` (R73). -/
def checkBlock (p : Nat) (s : State) : Ev Unit :=
  (heapCheck p s).bind fun _ s =>
    (heapCheck (p + 1) s).bind fun _ s =>
      (aRead (p + 1) s).bind fun size s =>
        if size < 2 ∨ s.cfg.heapEnd < p + size then haltEvent .heapFault s else .ok () s

/-- The rover set to a block's address (R37). -/
def State.roverTo (s : State) (p : Nat) : State := s.setRover (BitVec.ofNat 32 p)

/-- Scans stop after `HEAP_WORDS div 2` further blocks (R73, R74, D43). -/
def State.scanBound (s : State) : Nat := s.cfg.heapWords.toNat / 2

/-- The fitting block `p` of `size` words taken for `n`: split when the excess exceeds the two-word header, otherwise
unlinked whole (R73). -/
def allocTake (n prev p size : Nat) (s : State) : Ev (Option (Nat × Nat)) :=
  if 2 < size - n then
    (aWrite (p + n + 1) (size - n) s).bind fun _ s =>
      if p = prev then
        (aWrite (p + n) (p + n) s).bind fun _ s => .ok (some (p, n)) (s.roverTo (p + n))
      else
        (aRead p s).bind fun next s =>
          (aWrite (p + n) next s).bind fun _ s =>
            (aWrite prev (p + n) s).bind fun _ s => .ok (some (p, n)) (s.roverTo prev)
  else if p = prev then .ok (some (p, size)) (s.setRover nil)
  else
    (aRead p s).bind fun next s =>
      (aWrite prev next s).bind fun _ s => .ok (some (p, size)) (s.roverTo prev)

/-- The scan of AllocateMemory from block `p` after block `prev`; `fuel` is how many more blocks it may pass (R73).
`none` is `(NO_FIT, 0)`. -/
def allocScan (n : Nat) (fuel prev p : Nat) (s : State) : Ev (Option (Nat × Nat)) :=
  (checkBlock p s).bind fun _ s =>
    (aRead (p + 1) s).bind fun size s =>
      if n ≤ size then allocTake n prev p size s
      else if p = s.rover.toNat then .ok none s
      else
        match fuel with
        | 0 => haltEvent .heapFault s
        | fuel + 1 => (aRead p s).bind fun next s => allocScan n fuel p next s

/-- `AllocateMemory(units)` (R73): the block's address and reserved size, or `none` for `(NO_FIT, 0)`. -/
def allocateMemory (units : Word) (s : State) : Ev (Option (Nat × Nat)) :=
  if units.toNat = 0 ∨ s.cfg.heapWords.toNat < units.toNat then .ok none s
  else if s.rover = nil then .ok none s
  else
    (aRead s.rover.toNat s).bind fun p s =>
      allocScan (max units.toNat 2) s.scanBound s.rover.toNat p s

/-- Whether free block `p`, with successor `q`, brackets address `bp`: between them, or at the edge from the highest
block back to the lowest (R74). -/
def brackets (bp p q : Nat) : Bool :=
  (p < bp && bp < q) || (q ≤ p && (p < bp || bp < q))

/-- The scan of FreeExtent for the bracketing pair `(p, q)`; `fuel` as in `allocScan` (R74). -/
def freeScan (bp : Nat) (fuel p : Nat) (s : State) : Ev (Nat × Nat) :=
  (checkBlock p s).bind fun _ s =>
    (aRead p s).bind fun q s =>
      if brackets bp p q then .ok (p, q) s
      else
        match fuel with
        | 0 => haltEvent .heapFault s
        | fuel + 1 => freeScan bp fuel q s

/-- The lower half of FreeExtent: the freed block at `bp` joined to the block `p` below it, or linked after it (R74). -/
def freeLinkLower (bp p sizeP : Nat) (s : State) : Ev Unit :=
  if p + sizeP = bp then
    (aRead (bp + 1) s).bind fun sizeB s =>
      (aWrite (p + 1) (sizeP + sizeB) s).bind fun _ s =>
        (aRead bp s).bind fun next s =>
          (aWrite p next s).bind fun _ s => .ok () (s.roverTo p)
  else (aWrite p bp s).bind fun _ s => .ok () (s.roverTo p)

/-- FreeExtent between the bracketing blocks `p` and `q`: the overlap checks, then coalescing or linking (R74). -/
def freeBetween (bp n p q : Nat) (s : State) : Ev Unit :=
  (aRead (p + 1) s).bind fun sizeP s =>
    if p < bp ∧ bp < p + sizeP then haltEvent .heapFault s
    else if bp < q ∧ q < bp + n then haltEvent .heapFault s
    else if bp + n = q then
      (aRead (q + 1) s).bind fun sizeQ s =>
        if q = p then
          (aWrite (bp + 1) (n + sizeQ) s).bind fun _ s =>
            (aWrite bp bp s).bind fun _ s => .ok () (s.roverTo bp)
        else
          (aWrite (bp + 1) (n + sizeQ) s).bind fun _ s =>
            (aRead q s).bind fun next s =>
              (aWrite bp next s).bind fun _ s => freeLinkLower bp p sizeP s
    else
      (aWrite (bp + 1) n s).bind fun _ s =>
        (aWrite bp q s).bind fun _ s => freeLinkLower bp p sizeP s

/-- `FreeExtent(bp, n)` (R74). -/
def freeExtent (bp n : Nat) (s : State) : Ev Unit :=
  if n < 2 ∨ bp < s.cfg.heapBase.toNat ∨ s.cfg.heapEnd < bp + n then haltEvent .heapFault s
  else if s.rover = nil then
    (aWrite bp bp s).bind fun _ s =>
      (aWrite (bp + 1) n s).bind fun _ s => .ok () (s.roverTo bp)
  else
    (freeScan bp s.scanBound s.rover.toNat s).bind fun pq s => freeBetween bp n pq.1 pq.2 s

end Sys2Proof.Machine
end

