-- ==== Sys2Proof/Machine/Scheduler.lean ====
section
/-! DEFINITION. The context-switch primitives and the scheduling-policy handlers (spec 60_exceptions.md R165 to R176). -/

namespace Sys2Proof.Machine

/-- A process record read by index. -/
def procAt (i : Nat) (s : State) : Ev Process :=
  match s.procs[i]? with
  | some p => .ok p s
  | none => .broken (.noSuchProcess i)

/-- A process record changed at an index. -/
def modifyProc (i : Nat) (f : Process → Process) (s : State) : Ev Unit :=
  (procAt i s).bind fun p s => .ok () (s.setProcs (s.procs.set i (f p)))

/-- `PROCS[i].regs <- r`. -/
def Process.setRegs (p : Process) (r : Regs) : Process := { p with regs := r }

/-- `PROCS[i].state <- st`. -/
def Process.setState (p : Process) (st : ProcState) : Process := { p with state := st }

/-- `PROCS[i].prio <- w`. -/
def Process.setPrio (p : Process) (w : Word) : Process := { p with prio := w }

/-- `DISPATCH(i)`: registers and page table installed together, the process marked Running, `CUR <- i`, `TICKS <- 0`
(R171). -/
def dispatch (i : Nat) (s : State) : Ev Unit :=
  (procAt i s).bind fun p s =>
    (modifyProc i (fun p => p.setState .running) ((s.setRegs p.regs).setLivePt (some p.pid))).bind fun _ s =>
      .ok () ((s.setCur i).setTicks 0)

/-- `SAVE(i)`: all six live registers into the record (R173). -/
def save (i : Nat) (s : State) : Ev Unit :=
  modifyProc i (fun p => p.setRegs s.regs) s

/-- `RETIRE(i)`: the record, Terminated, leaves `PROCS`, and the gap closes. Its frames are not returned (R172). -/
def retire (i : Nat) (s : State) : Ev Unit :=
  (procAt i s).bind fun _ s => .ok () (s.setProcs (s.procs.eraseIdx i))

/-- The index of the best record of a nonempty list under a strict order: `best` at `bestIdx` is the best of those
before index `i`. The earlier record stays where neither is better. -/
def bestIndex (better : Process → Process → Bool) : List Process → Nat → Process → Nat → Nat
  | [], _, _, bestIdx => bestIdx
  | p :: ps, i, best, bestIdx =>
    if better p best then bestIndex better ps (i + 1) p i else bestIndex better ps (i + 1) best bestIdx

/-- The index of the best record of a list; 0, an index of no record, where it is empty. -/
def chooseIndex (better : Process → Process → Bool) : List Process → Nat
  | [] => 0
  | p :: ps => bestIndex better ps 1 p 0

/-- Higher priority first, then the smaller pid (R174). -/
def higherPrio (p q : Process) : Bool :=
  decide (q.prio.toInt < p.prio.toInt) || (decide (p.prio = q.prio) && decide (p.pid.toNat < q.pid.toNat))

/-- `TOP()` (R174). -/
def top (s : State) : Nat := chooseIndex higherPrio s.procs

/-- Shorter burst first, then the smaller pid (R175). -/
def shorterBurst (p q : Process) : Bool :=
  decide (p.burst.toNat < q.burst.toNat) || (decide (p.burst = q.burst) && decide (p.pid.toNat < q.pid.toNat))

/-- `SHORTEST()` (R175). -/
def shortest (s : State) : Nat := chooseIndex shorterBurst s.procs

/-- The end of a retirement: halt where no process is left, otherwise dispatch the one selected from those left
(R176). -/
def dispatchNext (select : State → Nat) (s : State) : Ev Unit :=
  if s.procs = [] then haltEvent .noProcess s else dispatch (select s) s

/-- `SWI_FCFS()` (R165). -/
def swiFcfs (s : State) : Ev Unit :=
  (retire s.cur s).bind fun _ s => dispatchNext (fun _ => 0) s

/-- `SWI_SJF()` (R166). -/
def swiSjf (s : State) : Ev Unit :=
  (retire s.cur s).bind fun _ s => dispatchNext shortest s

/-- `TMR_RR()` (R167). -/
def tmrRr (s : State) : Ev Unit :=
  let s := s.setTicks (s.ticks + 1)
  if s.cfg.quantum.toNat ≤ s.ticks.toNat ∧ 1 < s.procs.length then
    let i := s.cur
    (save i s).bind fun _ s =>
      (modifyProc i (fun p => p.setState .ready) s).bind fun _ s =>
        dispatch ((i + 1) % s.procs.length) s
  else .ok () s

/-- `SWI_RR()` (R168): free the extent, then retire, then halt or dispatch (D42). -/
def swiRr (s : State) : Ev Unit :=
  let i := s.cur
  (procAt i s).bind fun p s =>
    (freeExtent p.extStart.toNat p.extSize.toNat s).bind fun _ s =>
      (retire i s).bind fun _ s => dispatchNext (fun s => i % s.procs.length) s

/-- `TMR_PRIO()` (R169). The priority steps wrap (D23). -/
def tmrPrio (s : State) : Ev Unit :=
  let s := s.setTicks (s.ticks + 1)
  if s.cfg.quantum.toNat ≤ s.ticks.toNat then
    let i := s.cur
    (save i s).bind fun _ s =>
      (modifyProc i (fun p => p.setState .ready) s).bind fun _ s =>
        (modifyProc i (fun p => p.setPrio (p.prio - 1)) s).bind fun _ s =>
          let t := top s
          (modifyProc t (fun p => p.setPrio (p.prio + 1)) s).bind fun _ s => dispatch t s
  else .ok () s

/-- `SWI_PRIO()`, the pseudo-syscall keyed on register `a` (R170). -/
def swiPrio (s : State) : Ev Unit :=
  if s.regs.a = 1 then (retire s.cur s).bind fun _ s => dispatchNext top s
  else if s.regs.a = 2 then modifyProc s.cur (fun p => p.setPrio s.regs.b) s
  else haltEvent .undefSyscall s

end Sys2Proof.Machine
end

