-- ==== Sys2Proof/Machine/Ops.lean ====
section
/-! DEFINITION. The register accesses, taking a vector (the block's one way to take an exception) and the page-fault
protocol around it (spec 60_exceptions.md R150, R154 to R160; 43_load_store.md R135, R136). -/

namespace Sys2Proof.Machine

/-- A general register read by index (R9, R20). -/
def Regs.get (r : Regs) : GReg → Word
  | .a => r.a
  | .b => r.b
  | .c => r.c

/-- A general register written by index (R9, R20). -/
def Regs.set (r : Regs) (x : GReg) (v : Word) : Regs :=
  match x with
  | .a => { r with a := v }
  | .b => { r with b := v }
  | .c => { r with c := v }

/-- `ip <- v` (R9). -/
def Regs.setIp (r : Regs) (v : Word) : Regs := { r with ip := v }

/-- `x[r] <- v` (R9). -/
def State.setReg (s : State) (x : GReg) (v : Word) : State := s.setRegs (s.regs.set x v)

/-- `ip <- v` (R9). -/
def State.setIp (s : State) (v : Word) : State := s.setRegs (s.regs.setIp v)

/-- A handler run to completion (R151, R160). Only PF takes an argument (R150). -/
def runHandler (h : Handler) (arg : Option Word) (s : State) : Ev Unit :=
  match h with
  | .nop => .ok () s
  | .swiFcfs => swiFcfs s
  | .swiSjf => swiSjf s
  | .tmrRr => tmrRr s
  | .swiRr => swiRr s
  | .tmrPrio => tmrPrio s
  | .swiPrio => swiPrio s
  | .pf =>
    match arg with
    | some w => pfHandler w s
    | none => .broken .noHandlerArgument

/-- TAKING A VECTOR: control goes to the handler the slot holds, at once, and nothing is saved (R150, R159). The return
is the handler's end: there is no return instruction, and the next STEP fetches at the live `ip` (R160). -/
def raiseVector (v : VectorIndex) (arg : Option Word) (s : State) : Ev Unit :=
  runHandler (s.vec.slot v) arg s

/-- `raise Timer()` (R154). -/
def raiseTimer (s : State) : Ev Unit := raiseVector .timer none s

/-- `raise Software()` (R155). -/
def raiseSoftware (s : State) : Ev Unit := raiseVector .software none s

/-- The end of the page-fault protocol: the stashed value goes back into its register, even after a halt (R136, D48). -/
def restoreReg (x : GReg) (stash : Word) (r : Ev Unit) : Ev Unit :=
  match r with
  | .ok _ s => .ok () (s.setReg x stash)
  | .ended s => .ended (s.setReg x stash)
  | .broken f => .broken f

/-- The page-fault handler's argument: the register the instruction names, or register `a` (R136). -/
def faultArg (x : GReg) (s : State) : Word :=
  match s.cfg.faultArgReg with
  | .instrReg => s.regs.get x
  | .regA => s.regs.get .a

/-- `raise PageFault(page)` for the register the instruction names (R136). `STASH` is a local of the STEP (R38). -/
def raisePageFault (x : GReg) (page : Nat) (s : State) : Ev Unit :=
  let stash := s.regs.get x
  let s := s.setReg x (BitVec.ofNat 32 page)
  restoreReg x stash (raiseVector .pageFault (some (faultArg x s)) s)

end Sys2Proof.Machine
end

