-- ==== Sys2Proof/Machine/Flags.lean ====
section
/-! DEFINITION. The block's whole arithmetic unit for instructions: the `ip` adder (spec 40_cpu_cycle.md R114). `flags` holds no
condition codes: no operation sets a flag or detects overflow (10_state.md R21, 40_cpu_cycle.md R114), so there is no flag
computation to define. -/

namespace Sys2Proof.Machine

/-- `ip0 + 2`, modulo `2^32` (R113, R114). -/
def ipAfter (ip0 : Word) : Word := ip0 + 2

/-- `ip0 + rel`, modulo `2^32` (R114, R125). -/
def ipJump (ip0 rel : Word) : Word := ip0 + rel

/-- `ip <- ip0 + 2`, for an instruction that has not written `ip`. -/
def State.advance (s : State) : State := s.setIp (ipAfter s.regs.ip)

end Sys2Proof.Machine
end

