-- ==== Sys2Proof/Machine/Operands.lean ====
section
/-! DEFINITION. The operand forms (spec 30_encoding.md R92) and the one addressing mode's access (43_load_store.md R135). -/

namespace Sys2Proof.Machine

/-- `imm = w1`, the full word unchanged (R92). -/
def immOperand (w1 : Word) : Word := w1

/-- `addr = u(w1)`, an unsigned virtual word address (R92, R135). -/
def addrOperand (w1 : Word) : Nat := w1.toNat

/-- `code = w1`, compared as a whole word with 1 (R92). -/
def codeIsOne (w1 : Word) : Bool := w1 == 1

/-- Whether an access loads or stores (R135). -/
inductive AccessKind where
  | load
  | store
deriving DecidableEq, Repr

/-- The access of a load or store that hits at `pa`, then `ip <- ip0 + 2` (R135). -/
def accessHit (kind : AccessKind) (x : GReg) (pa : Nat) (s : State) : Ev Unit :=
  match kind with
  | .load => (memRead pa s).bind fun v s => .ok () (s.setReg x v).advance
  | .store => (memWrite pa (s.regs.get x) s).bind fun _ s => .ok () s.advance

/-- `Access(kind, r)` (R135): a hit moves one word; a miss raises the page fault and leaves `ip`. -/
def access (kind : AccessKind) (x : GReg) (w1 : Word) (s : State) : Ev Unit :=
  (translate (addrOperand w1) s).bind fun t s =>
    match t with
    | .hit pa => accessHit kind x pa s
    | .miss page => raisePageFault x page s

end Sys2Proof.Machine
end

