-- ==== Sys2Proof/Machine/Control.lean ====
section
/-! DEFINITION. JMP, INT and the invalid-opcode path (spec 42_control.md R125, R126; 40_cpu_cycle.md R115). -/

namespace Sys2Proof.Machine

/-- JMP (R125). The target is not checked. -/
def execJmp (rel : Word) (s : State) : Host.Outcome State Fault Refusal :=
  .next (s.setIp (ipJump s.regs.ip rel))

/-- INT (R126). -/
def execInt (code : Word) (s : State) : Host.Outcome State Fault Refusal :=
  if codeIsOne code then
    (raiseSoftware (if s.cfg.intIpAdvance then s.advance else s)).outcome
  else Ev.outcome (haltEvent .undefInt s)

/-- `trace(e)` (R116). -/
def State.emit (s : State) (e : TraceEvent) : State := s.setTrace (s.trace ++ [e])

/-- INVALID (R115): logged and skipped. The operand word is ignored. -/
def execInvalid (word _operand : Word) (s : State) : Host.Outcome State Fault Refusal :=
  .next (s.emit (.invalidOpcode s.regs.ip word)).advance

end Sys2Proof.Machine
end

