-- ==== Sys2Proof/Machine/LoadStore.lean ====
section
/-! DEFINITION. The loads and stores (spec 43_load_store.md R137 to R142). -/

namespace Sys2Proof.Machine

/-- LDA (R137). -/
def execLda (addr : Word) (s : State) : Host.Outcome State Fault Refusal := (access .load .a addr s).outcome

/-- LDB (R138). -/
def execLdb (addr : Word) (s : State) : Host.Outcome State Fault Refusal := (access .load .b addr s).outcome

/-- LDC (R139). -/
def execLdc (addr : Word) (s : State) : Host.Outcome State Fault Refusal := (access .load .c addr s).outcome

/-- STA (R140). -/
def execSta (addr : Word) (s : State) : Host.Outcome State Fault Refusal := (access .store .a addr s).outcome

/-- STB (R141). -/
def execStb (addr : Word) (s : State) : Host.Outcome State Fault Refusal := (access .store .b addr s).outcome

/-- STC (R142). -/
def execStc (addr : Word) (s : State) : Host.Outcome State Fault Refusal := (access .store .c addr s).outcome

end Sys2Proof.Machine
end

