-- ==== Sys2Proof/Machine/Move.lean ====
section
/-! DEFINITION. The move-immediate instructions (spec 41_move.md). -/

namespace Sys2Proof.Machine

/-- `x[r] <- w1; ip <- ip0 + 2`. -/
def moveTo (x : GReg) (w1 : Word) (s : State) : Host.Outcome State Fault Refusal :=
  .next (s.setReg x (immOperand w1)).advance

/-- MOVA (R120). -/
def execMova (imm : Word) (s : State) : Host.Outcome State Fault Refusal := moveTo .a imm s

/-- MOVB (R121). -/
def execMovb (imm : Word) (s : State) : Host.Outcome State Fault Refusal := moveTo .b imm s

/-- MOVC (R122). -/
def execMovc (imm : Word) (s : State) : Host.Outcome State Fault Refusal := moveTo .c imm s

end Sys2Proof.Machine
end

