-- ==== Sys2Proof/Machine/Dispatch.lean ====
section
/-! DEFINITION. One arm per instruction (spec 40_cpu_cycle.md R112). -/

namespace Sys2Proof.Machine

def exec (i : Instr) (s : State) : Host.Outcome State Fault Refusal :=
  match i with
  | .mova imm => Sys2Proof.Machine.execMova imm s
  | .movb imm => Sys2Proof.Machine.execMovb imm s
  | .movc imm => Sys2Proof.Machine.execMovc imm s
  | .jmp rel => Sys2Proof.Machine.execJmp rel s
  | .int code => Sys2Proof.Machine.execInt code s
  | .lda addr => Sys2Proof.Machine.execLda addr s
  | .ldb addr => Sys2Proof.Machine.execLdb addr s
  | .ldc addr => Sys2Proof.Machine.execLdc addr s
  | .sta addr => Sys2Proof.Machine.execSta addr s
  | .stb addr => Sys2Proof.Machine.execStb addr s
  | .stc addr => Sys2Proof.Machine.execStc addr s
  | .invalid word operand => Sys2Proof.Machine.execInvalid word operand s

end Sys2Proof.Machine
end

