-- ==== Sys2Proof/Machine/HostPort.lean ====
section
/-! DEFINITION. The CPU cycle and the other host events (spec 40_cpu_cycle.md R110, R111; 60_exceptions.md R190 to R193;
70_reset_and_hazards.md R201 to R205). -/

namespace Sys2Proof.Machine

/-- Fetch: the two words at the physical address `ip`, both in RAM (R111). -/
def fetch (s : State) : Ev (Word × Word) :=
  if s.cfg.ramWords ≤ s.regs.ip.toNat + 1 then haltEvent .fetchRange s
  else
    (memRead s.regs.ip.toNat s).bind fun w0 s =>
      (memRead (s.regs.ip.toNat + 1) s).bind fun w1 s => .ok (w0, w1) s

/-- STEP: fetch, decode, then exactly one instruction (R110 to R112). -/
def cpuCycle (s : State) : Host.Outcome State Fault Refusal :=
  match fetch s with
  | .ok ws s => exec (decode s.cfg.opmapMode ws.1 ws.2) s
  | .ended s => .next s
  | .broken f => .fault f

/-- HOST_WRITE (R202). A write outside RAM has no transition. -/
def hostWrite (pa v : Word) (s : State) : Host.Outcome State Fault Refusal :=
  if pa.toNat < s.cfg.ramWords then (memWrite pa.toNat v s).outcome else .refused (.hostWriteRange pa)

/-- The result of HOST_ALLOC: `(addr, size)`, or `(NO_FIT, 0)` (R203). -/
def extentReply : Option (Nat × Nat) → Reply
  | some (addr, size) => .extent (BitVec.ofNat 32 addr) (BitVec.ofNat 32 size)
  | none => .extent noFit 0

/-- A result appended to the model's list of results (log entry 5). -/
def State.reply (s : State) (r : Reply) : State := s.setReplies (s.replies ++ [r])

/-- HOST_ALLOC (R203). -/
def hostAlloc (units : Word) (s : State) : Ev Unit :=
  (allocateMemory units s).bind fun r s => .ok () (s.reply (extentReply r))

/-- The record HOST_CREATE appends (R204): zeroed registers with `ip` at the image base, an empty page table, New. -/
def newProcess (c : Config) (pid extStart extSize burst prio : Word) : Process where
  pid := pid
  extStart := extStart
  extSize := extSize
  regs := Regs.zero.setIp extStart
  pt := emptyPageTable c
  state := .new
  prio := prio
  burst := burst

/-- HOST_CREATE (R204). -/
def hostCreate (extStart extSize burst prio : Word) (s : State) : Ev Unit :=
  if s.nextPid = pidLimit then haltEvent .pidExhausted s
  else
    let pid := BitVec.ofNat 32 s.nextPid
    let p := newProcess s.cfg pid extStart extSize burst prio
    .ok () (((s.setProcs (s.procs ++ [p])).setNextPid (s.nextPid + 1)).reply (.pid pid))

/-- HOST_CREATE with the host's defaults: `burst = ext_size`, `prio = 0` (R204). -/
def hostCreateDefault (extStart extSize : Word) : HostEvent := .hostCreate extStart extSize extSize 0

/-- START (R205). -/
def start (s : State) : Ev Unit :=
  if s.procs = [] then haltEvent .noProcess s else dispatch 0 (s.setPhase .run)

/-- FRAME_ACQUIRE, the test port (R66, R190). -/
def hostFrameAcquire (s : State) : State :=
  let (f, s) := acquireFrame s
  s.reply (.frame f)

/-- The phases that admit an event (R190). -/
def HostEvent.admitted : HostEvent → Phase → Bool
  | .hostWrite _ _, ph => ph == .construct
  | .hostAlloc _, ph => ph == .construct
  | .hostCreate _ _ _ _, ph => ph == .construct
  | .start, ph => ph == .construct
  | .step, ph => ph == .run
  | .timer, ph => ph == .run
  | .swi, ph => ph == .run
  | .frameAcquire, ph => ph != .halted
  | .frameRelease _, ph => ph != .halted
  | .observe, _ => true

/-- The transition of an admitted event (R190). OBSERVE's result is the state itself. -/
def eventEffect (e : HostEvent) (s : State) : Host.Outcome State Fault Refusal :=
  match e with
  | .hostWrite pa v => hostWrite pa v s
  | .hostAlloc units => (hostAlloc units s).outcome
  | .hostCreate extStart extSize burst prio => (hostCreate extStart extSize burst prio s).outcome
  | .start => (start s).outcome
  | .step => cpuCycle s
  | .timer => (raiseTimer s).outcome
  | .swi => (raiseSoftware s).outcome
  | .frameAcquire => .next (hostFrameAcquire s)
  | .frameRelease f => (releaseFrame f s).outcome
  | .observe => .next s

/-- A host event: one atomic transition, or a refusal outside its phases (R10, R190, R191). -/
def hostEvent (e : HostEvent) (s : State) : Host.Outcome State Fault Refusal :=
  if e.admitted s.phase then eventEffect e s else .refused (.eventNotAdmitted e s.phase)

/-- The next event of the host's sequence. The model reads an empty sequence as a host that goes on issuing STEP
(log entry 4). -/
def State.nextEvent (s : State) : HostEvent := s.pending.headD .step

/-- The next event of the sequence taken off it and run (R191). -/
def runNextEvent (s : State) : Host.Outcome State Fault Refusal :=
  hostEvent s.nextEvent (s.setPending s.pending.tail)

/-- The events the host issues for the words of an image at `addr` (R201 step 3). An address of `2^32` or more, which only
an image of log entry 23 reaches in a configuration that keeps R6, is reduced modulo `2^32`. -/
def writeEvents : List Word → Nat → List HostEvent
  | [], _ => []
  | w :: ws, addr => .hostWrite (BitVec.ofNat 32 addr) w :: writeEvents ws (addr + 1)

/-- A list of host events run in order, to the first that faults or is refused. -/
def runEvents : List HostEvent → State → Host.Outcome State Fault Refusal
  | [], s => .next s
  | e :: es, s =>
    match hostEvent e s with
    | .next t => runEvents es t
    | .fault f => .fault f
    | .refused r => .refused r

/-- The host's construction of one process from an image with a given burst (or the default) and priority: HOST_ALLOC,
then, unless it answers NO_FIT, the writes and HOST_CREATE (R201). DESIGN CHOICE, log entry 23: the length of an image of
`2^32` words or more does not fit HOST_ALLOC's 32-bit `units`, and the spec does not say what the host does; here it
requests the length modulo `2^32` and issues every write. -/
def loadImage (image : List Word) (burst : Option Word) (prio : Word) (s : State) :
    Host.Outcome State Fault Refusal :=
  match hostEvent (.hostAlloc (BitVec.ofNat 32 image.length)) s with
  | .next t =>
    match t.replies.getLast? with
    | some (.extent addr size) =>
      if addr = noFit ∨ t.phase = .halted then .next t
      else runEvents (writeEvents image addr.toNat ++ [.hostCreate addr size (burst.getD size) prio]) t
    | _ => .next t
  | .fault f => .fault f
  | .refused r => .refused r

/-- Kernel construction from an ordered sequence of images, then START (R201, R205). -/
def construct : List (List Word) → State → Host.Outcome State Fault Refusal
  | [], s => hostEvent .start s
  | image :: images, s =>
    match loadImage image none 0 s with
    | .next t => construct images t
    | .fault f => .fault f
    | .refused r => .refused r

/-- The state an outcome leads to, or the state before where it leads to none. -/
def nextOr (s : State) : Host.Outcome State Fault Refusal → State
  | .next t => t
  | .fault _ => s
  | .refused _ => s

/-- A state whose next step is a STEP that passes the fetch range check (log entry 11): in CONSTRUCT one process of two
words is allocated and created where there is none and START is given; a halted machine is put back in RUN; an `ip`
outside RAM goes to 0; the host's sequence is emptied. -/
def State.readyToFetch (s : State) : State :=
  let s := s.setPending []
  let s :=
    match s.phase with
    | .run => s
    | .construct =>
      let t := if s.procs = [] then nextOr s (loadImage [0, 0] none 0 s) else s
      nextOr t (hostEvent .start t)
    | .halted => s
  let s := if s.phase = .run then s else (s.setPhase .run).setHaltReason 0
  if s.cfg.ramWords ≤ s.regs.ip.toNat + 1 then s.setIp 0 else s

/-- Two words placed where the next STEP fetches. -/
def State.placeInstr (s : State) (ws : Word × Word) : State :=
  let s := s.readyToFetch
  s.setMem ((s.mem.writeWord s.regs.ip.toNat ws.1).writeWord (s.regs.ip.toNat + 1) ws.2)

end Sys2Proof.Machine
end

