-- ==== Sys2Proof/Machine/Step.lean ====
section
/-! DEFINITION. One step of the machine: the next host event, whole (spec 60_exceptions.md R191). -/

namespace Sys2Proof.Machine

/-- One step: the next host event of the sequence in `pending`, a STEP where the sequence is empty (R110, R191; log
entry 4). -/
def step (s : State) : Host.Outcome State Fault Refusal := runNextEvent s

/-- `s` with the instruction of these bits where the next step fetches (log entry 11). -/
def State.withFetchWord (s : State) (nbits w : Nat) : State := s.placeInstr (tableWords nbits w)

end Sys2Proof.Machine
end

