-- ==== Sys2Proof/Machine/Image.lean ====
section
/-! DEFINITION. The host's side of a program: the image file's bytes as words (spec 30_encoding.md R103) and the assembler
syntax (R101, R102). No rule inside the block reads either. -/

namespace Sys2Proof.Machine

/-- An image file as words: four bytes a word, the first the least significant. A byte count that is no multiple of
four is rejected (R103, D32). -/
def imageWords : List Byte → Option (List Word)
  | [] => some []
  | b0 :: b1 :: b2 :: b3 :: rest => (imageWords rest).map fun ws => wordOfBytes b0 b1 b2 b3 :: ws
  | _ => none

/-- A line of assembler: an instruction with its operand literal, or the directive `.word v` (R101). -/
inductive AsmLine where
  | instr (op : Mnemonic) (operand : Int)
  | dotWord (value : Int)
deriving DecidableEq, Repr

/-- The words of a line; a literal is reduced modulo `2^32` (R101). -/
def AsmLine.words (m : OpmapMode) : AsmLine → List Word
  | .instr op operand => [opcodeValue m op, BitVec.ofInt 32 operand]
  | .dotWord value => [BitVec.ofInt 32 value]

/-- A program assembles to the words of its lines in listing order (R101). -/
def assemble (m : OpmapMode) (lines : List AsmLine) : List Word := lines.flatMap (AsmLine.words m)

/-- The value of a hexadecimal digit; a decimal digit is one below 10. -/
def digitValue (ch : Char) : Option Nat :=
  if '0' ≤ ch ∧ ch ≤ '9' then some (ch.toNat - '0'.toNat)
  else if 'a' ≤ ch ∧ ch ≤ 'f' then some (ch.toNat - 'a'.toNat + 10)
  else if 'A' ≤ ch ∧ ch ≤ 'F' then some (ch.toNat - 'A'.toNat + 10)
  else none

/-- The digits of a literal in a base, after the value read so far. -/
def parseDigits (base : Nat) : List Char → Nat → Option Nat
  | [], acc => some acc
  | ch :: rest, acc =>
    match digitValue ch with
    | some d => if d < base then parseDigits base rest (acc * base + d) else none
    | none => none

/-- A literal without its sign: `0x` and hexadecimal digits, or decimal digits; at least one digit (R101). -/
def parseMagnitude : List Char → Option Nat
  | '0' :: 'x' :: d :: rest => parseDigits 16 (d :: rest) 0
  | d :: rest => parseDigits 10 (d :: rest) 0
  | [] => none

/-- A literal, optionally negative (R101). -/
def parseLiteral : List Char → Option Int
  | '-' :: rest => (parseMagnitude rest).map fun n => -(n : Int)
  | cs => (parseMagnitude cs).map fun n => (n : Int)

/-- The text of a mnemonic (R101). -/
def mnemonicText : Mnemonic → String
  | .mova => "MOVA"
  | .movb => "MOVB"
  | .movc => "MOVC"
  | .jmp => "JMP"
  | .int => "INT"
  | .lda => "LDA"
  | .ldb => "LDB"
  | .ldc => "LDC"
  | .sta => "STA"
  | .stb => "STB"
  | .stc => "STC"

/-- Whether a mnemonic's operand stands in brackets: the loads and stores (R101). -/
def bracketed : Mnemonic → Bool
  | .mova => false
  | .movb => false
  | .movc => false
  | .jmp => false
  | .int => false
  | .lda => true
  | .ldb => true
  | .ldc => true
  | .sta => true
  | .stb => true
  | .stc => true

/-- The characters between brackets. -/
def unbracket : List Char → Option (List Char)
  | '[' :: rest => if rest.getLast? = some ']' then some rest.dropLast else none
  | _ => none

/-- The operand of a mnemonic: a literal, in brackets for a load or store (R101). -/
def parseOperand (op : Mnemonic) (cs : List Char) : Option Int :=
  if bracketed op then (unbracket cs).bind parseLiteral else parseLiteral cs

/-- One line: mnemonic or `.word`, one space, operand (R101). There are no pseudo-instructions (R102). -/
def parseLine (line : String) : Option AsmLine :=
  let cs := line.toList
  let head := cs.takeWhile (· != ' ')
  match cs.dropWhile (· != ' ') with
  | ' ' :: operand =>
    if head = ".word".toList then (parseLiteral operand).map AsmLine.dotWord
    else
      match opcodeOrder.find? (fun op => (mnemonicText op).toList == head) with
      | some op => (parseOperand op operand).map (AsmLine.instr op)
      | none => none
  | _ => none

end Sys2Proof.Machine
end

