-- ==== Sys2Proof/Safety.lean ====
section
/-! DEFINITION. What counts as a good state and a good end of a run (spec 10_state.md R26 to R41; 20_memory.md R70, R76;
60_exceptions.md R152, R153, R193). -/

namespace Sys2Proof.Machine

/-- The codes `HALT_REASON` can hold (R152, R153). -/
def legalReasons : List (BitVec 8) := [0, 1, 2, 3, 16, 17, 18, 19, 20, 21, 22]

/-- The clean end of a run: halted because no process is left (R152, R193). -/
abbrev State.cleanEnd (s : State) : Prop := s.phase = .halted ∧ s.haltReason = HaltReason.noProcess.code

/-- A run ended by a model fault: codes 16 to 22 (R153, R193). -/
abbrev State.modelFaulted (s : State) : Prop := s.phase = .halted ∧ 16 ≤ s.haltReason.toNat

/-- A run that reaches no model fault, which a claim about a program must assume (R153): no state that the first `n` host
events of the run lead to is one. -/
def State.safeFor (s : State) (n : Nat) : Prop :=
  ∀ k ≤ n, ∀ t, Sys2Proof.core.run k s = .next t → ¬ State.modelFaulted t

/-- The column "admitted in PHASE" of R190's table, as the spec writes it. -/
def admittedPhases : HostEvent → List Phase
  | .hostWrite _ _ => [.construct]
  | .hostAlloc _ => [.construct]
  | .hostCreate _ _ _ _ => [.construct]
  | .start => [.construct]
  | .step => [.run]
  | .timer => [.run]
  | .swi => [.run]
  | .frameAcquire => [.construct, .run]
  | .frameRelease _ => [.construct, .run]
  | .observe => [.construct, .run, .halted]

/-- The six loads and stores of an address (R137 to R142). -/
def accessInstrs (addr : Word) : List Instr :=
  [.lda addr, .ldb addr, .ldc addr, .sta addr, .stb addr, .stc addr]

/-- The opcode values of a map as R95 and R96 list them: nine that can be selected under PRECEDENCE, eleven under
DISJOINT. -/
def tableValues : OpmapMode → List Word
  | .precedence => [0x10, 0x11, 0x12, 0x20, 0x30, 0x21, 0x22, 0x31, 0x32]
  | .disjoint => [0x10, 0x11, 0x12, 0x20, 0x30, 0x23, 0x21, 0x22, 0x33, 0x31, 0x32]

/-- The state in which the software vector's handler starts when INT 1 raises it: `ip` is `ip0`, or `ip0 + 2` under
INT_IP_ADVANCE (R126, R155). -/
def State.atInt (s : State) : State :=
  { s with regs := { s.regs with ip := if s.cfg.intIpAdvance then s.regs.ip + 2 else s.regs.ip } }

/-- The state with the next host event taken off the sequence, as an event's rule sees it (log entry 4). -/
def State.tookEvent (s : State) : State := { s with pending := s.pending.tail }

/-- The invariant of every state between events. -/
structure State.Inv (s : State) : Prop where
  /-- the parameters keep R6's constraints -/
  cfg_wf : s.cfg.wf
  /-- RAM's cells are in canonical form -/
  mem_wf : s.mem.wf
  /-- no cell lies outside RAM (R25, R51) -/
  mem_range : ∀ x ∈ s.mem, x.1 < 4 * s.cfg.ramWords
  /-- no base appears twice in POOL (R26) -/
  pool_nodup : s.pool.Nodup
  /-- POOL holds frame bases (R26) -/
  pool_frames : ∀ f ∈ s.pool, s.cfg.isFrame f
  /-- a page table has PT_ENTRIES words (R27) -/
  pt_size : ∀ p ∈ s.procs, p.pt.length = s.cfg.ptEntries
  /-- a page-table entry is UNMAPPED or a frame base (R27) -/
  pt_frames : ∀ p ∈ s.procs, ∀ e ∈ p.pt, e = unmapped ∨ s.cfg.isFrame e
  /-- PROCS is in creation order: the pid ascends along it (R30) -/
  pids_rise : s.procs.Pairwise (fun p q => p.pid.toNat < q.pid.toNat)
  /-- NEXT_PID is above every pid handed out (R29, R36) -/
  pids_below : ∀ p ∈ s.procs, p.pid.toNat < s.nextPid
  /-- NEXT_PID is in `[0, PID_LIMIT]` (R36) -/
  nextPid_le : s.nextPid ≤ pidLimit
  /-- the slots hold what POLICY put there (R151) -/
  vec_policy : s.vec = vectorsOf s.cfg.policy
  /-- HALT_REASON is 0 exactly while the machine is not halted (R35) -/
  reason_phase : s.haltReason = 0 ↔ s.phase ≠ .halted
  /-- HALT_REASON holds a code of R152 or R153 -/
  reason_legal : s.haltReason ∈ legalReasons
  /-- in CONSTRUCT no table is live and every process is New (R28, R31, R200) -/
  construct_new : s.phase = .construct → s.livePt = none ∧ ∀ p ∈ s.procs, p.state = .new
  /-- in RUN the process at CUR is the one LIVE_PT names (R32, R41) -/
  run_cur : s.phase = .run → s.livePt ≠ none ∧ (s.procs[s.cur]?).map Process.pid = s.livePt
  /-- in RUN exactly that process is Running (R41) -/
  run_running : s.phase = .run → ∀ p ∈ s.procs, p.state = .running ↔ s.livePt = some p.pid
  /-- no process in PROCS is Waiting or Terminated (R31) -/
  states_legal : ∀ p ∈ s.procs, p.state ≠ .waiting ∧ p.state ≠ .terminated

/-- The frames that page-table entries map, once for each entry (R27). -/
def State.mappedFrames (s : State) : List Word := s.procs.flatMap fun p => p.pt.filter (· ≠ unmapped)

/-- No frame base is held twice by POOL and the page-table entries together (R41 (iii) and the no-aliasing property after
it). -/
abbrev State.framesHeldOnce (s : State) : Prop := (s.pool ++ s.mappedFrames).Nodup

/-- `flags` and `sp` of the live set and of every saved set are 0, as reset and creation leave them (R21, R23). -/
abbrev State.reservedZero (s : State) : Prop :=
  (s.regs.flags = 0 ∧ s.regs.sp = 0) ∧ ∀ p ∈ s.procs, p.regs.flags = 0 ∧ p.regs.sp = 0

/-- Extents `(address, size)` that cover `[lo, hi)` in address order with no gap and no overlap (R76). -/
def tiles : Nat → Nat → List (Nat × Nat) → Prop
  | lo, hi, [] => lo = hi
  | lo, hi, (a, n) :: rest => a = lo ∧ 0 < n ∧ tiles (lo + n) hi rest

/-- The headers of a circular free list in RAM: each block's two words hold the next block's address and its own size,
and the last block's next is `first` (R70). -/
def headersFrom (m : Memory) (first : Nat) : List (Nat × Nat) → Prop
  | [] => True
  | [(a, n)] => m.readWord a = BitVec.ofNat 32 first ∧ m.readWord (a + 1) = BitVec.ofNat 32 n
  | (a, n) :: (b, k) :: rest =>
    (m.readWord a = BitVec.ofNat 32 b ∧ m.readWord (a + 1) = BitVec.ofNat 32 n) ∧
      headersFrom m first ((b, k) :: rest)

/-- The heap is well kept: `free`, in ascending address order, are the free blocks, their headers stand in RAM, `ROVER`
points at one of them or is NIL where there is none, and `free` and `live` together tile the managed range (R70, R76). -/
structure State.heapTiled (s : State) (free live : List (Nat × Nat)) : Prop where
  /-- free blocks in ascending address order (R70) -/
  ascending : free.Pairwise (fun x y => x.1 < y.1)
  /-- a free block holds its header (R70) -/
  header_fits : ∀ b ∈ free, 2 ≤ b.2
  /-- the circular list (R70) -/
  headers : headersFrom s.mem ((free.head?.map Prod.fst).getD 0) free
  /-- the cursor (R37, R70) -/
  rover : (free = [] ∧ s.rover = nil) ∨ (∃ b ∈ free, s.rover = BitVec.ofNat 32 b.1)
  /-- no gaps and no overlaps (R76) -/
  tiled : ∃ all : List (Nat × Nat), all.Perm (free ++ live) ∧ tiles s.cfg.heapBase.toNat s.cfg.heapEnd all

/-- No two free blocks are physically adjacent (R76). -/
def noneAdjacent (free : List (Nat × Nat)) : Prop := ∀ x ∈ free, ∀ y ∈ free, x.1 + x.2 ≠ y.1

end Sys2Proof.Machine
end

