-- ==== Sys2Proof/Certificates/Slice0/Obligations.lean ====
section
/-! DEFINITION. The statements for the provers. Each says which rule of the spec it formalises. In them `nextEvent` and
`tookEvent` speak of the model's list of host events (log entry 4) and `replies` is its list of results (log entry 5);
both are the model's own, and the spec's rule is about the rest. -/

open Sys2Proof Sys2Proof.Machine

/-! ## Encoding -/

/-- Decode of encode is the instruction, for every instruction the map can express and every operand (R90 to R97). -/
def Obligations.DecodeInvertsEncode : Prop :=
  ∀ (m : OpmapMode) (i : Instr), i.wf m = true → decode m (encode m i).1 (encode m i).2 = i

/-- Every pair of words decodes to a well-formed instruction, and encode gives the two words back (R90, R93, R97, R98). -/
def Obligations.EncodeInvertsDecode : Prop :=
  ∀ (m : OpmapMode) (w0 w1 : Word), (decode m w0 w1).wf m = true ∧ encode m (decode m w0 w1) = (w0, w1)

/-- Words written out from R95 and R96 decode to the instructions they stand for. -/
def Obligations.SpecWordsDecode : Prop :=
  decode .precedence 0x10 0x2A = .mova 0x2A ∧ decode .disjoint 0x12 0x7 = .movc 0x7 ∧
    decode .precedence 0x20 0xFFFFFFFE = .jmp 0xFFFFFFFE ∧ decode .disjoint 0x30 1 = .int 1 ∧
    decode .precedence 0x21 0x2C = .ldb 0x2C ∧ decode .disjoint 0x23 0x2C = .lda 0x2C ∧
    decode .precedence 0x32 0x3F = .stc 0x3F ∧ decode .disjoint 0x33 3 = .sta 3 ∧
    decode .precedence 0x23 0 = .invalid 0x23 0 ∧ decode .disjoint 0x120 0 = .invalid 0x120 0

/-- Under PRECEDENCE the shared values select JMP and INT, and no word selects LDA or STA (R95, R99). -/
def Obligations.ShadowedRowsNeverSelected : Prop :=
  ∀ w0 w1 addr : Word,
    decode .precedence 0x20 w1 = .jmp w1 ∧ decode .precedence 0x30 w1 = .int w1 ∧
      decode .precedence w0 w1 ≠ .lda addr ∧ decode .precedence w0 w1 ≠ .sta addr

/-- A word that selects an instruction under PRECEDENCE selects the same one under DISJOINT (R96). -/
def Obligations.DisjointKeepsPrecedence : Prop :=
  ∀ w0 w1 : Word, decode .precedence w0 w1 ≠ .invalid w0 w1 → decode .disjoint w0 w1 = decode .precedence w0 w1

/-- A word is invalid exactly when it is none of the values R95 or R96 lists for the map: the whole word is compared
(R93, R98). -/
def Obligations.InvalidExactlyOutsideTable : Prop :=
  ∀ (m : OpmapMode) (w0 w1 : Word), decode m w0 w1 = .invalid w0 w1 ↔ w0 ∉ tableValues m

/-! ## The step -/

/-- In RUN, where the next event is a STEP and the two words at `ip` are those of a well-formed instruction, the step is
that instruction's execution, with the event taken off the host's sequence (R110 to R112). -/
def Obligations.StepRunsDecodedInstr : Prop :=
  ∀ (s : State) (i : Instr), s.phase = .run → s.nextEvent = .step → s.regs.ip.toNat + 1 < s.cfg.ramWords →
    i.wf s.cfg.opmapMode = true →
    s.mem.readWord s.regs.ip.toNat = (encode s.cfg.opmapMode i).1 →
    s.mem.readWord (s.regs.ip.toNat + 1) = (encode s.cfg.opmapMode i).2 →
    step s = exec i s.tookEvent

/-- Fetch reads the two words at the physical address `ip`; where they are not both in RAM the step is the model fault
FETCH_RANGE and changes nothing else (R111). -/
def Obligations.FetchIsPhysicalAndRangeChecked : Prop :=
  ∀ s : State, s.phase = .run → s.nextEvent = .step →
    (s.cfg.ramWords ≤ s.regs.ip.toNat + 1 →
        step s = .next { s.tookEvent with phase := .halted, haltReason := 16 }) ∧
      (s.regs.ip.toNat + 1 < s.cfg.ramWords →
        step s =
          exec (decode s.cfg.opmapMode (s.mem.readWord s.regs.ip.toNat) (s.mem.readWord (s.regs.ip.toNat + 1)))
            s.tookEvent)

/-- An event is refused exactly outside the phases R190's table admits it in. -/
def Obligations.EventsRefusedOutsideTheirPhases : Prop :=
  ∀ s : State,
    step s = .refused (.eventNotAdmitted s.nextEvent s.phase) ↔ s.phase ∉ admittedPhases s.nextEvent

/-- HALTED is final: a step of a halted machine changes nothing but the host's sequence (R193). -/
def Obligations.HaltedIsFinal : Prop :=
  ∀ s t : State, s.phase = .halted → step s = .next t → t = s.tookEvent

/-! ## Moves, JMP and the invalid path -/

/-- MOVA, MOVB, MOVC write the whole operand word to their register and add 2 to `ip`; nothing else changes (R120 to
R122). -/
def Obligations.MoveWritesItsRegister : Prop :=
  ∀ (s : State) (w : Word),
    (exec (.mova w) s = .next { s with regs := { s.regs with a := w, ip := s.regs.ip + 2 } } ∧
      exec (.movb w) s = .next { s with regs := { s.regs with b := w, ip := s.regs.ip + 2 } } ∧
      exec (.movc w) s = .next { s with regs := { s.regs with c := w, ip := s.regs.ip + 2 } }) ∧
    ∀ m : OpmapMode, decode m 0x10 w = .mova w ∧ decode m 0x11 w = .movb w ∧ decode m 0x12 w = .movc w

/-- JMP adds its operand, read as a signed word offset, to its own address modulo `2^32`; nothing else changes (R125). -/
def Obligations.JumpAddsSignedOffset : Prop :=
  ∀ (s : State) (rel : Word), ∃ t, exec (.jmp rel) s = .next t ∧
    t = { s with regs := { s.regs with ip := t.regs.ip } } ∧
    (t.regs.ip.toNat : Int) = ((s.regs.ip.toNat : Int) + rel.toInt) % 2 ^ 32

/-- An invalid opcode word is logged with its address and skipped; nothing else changes (R115, R116). -/
def Obligations.InvalidOpcodeLoggedAndSkipped : Prop :=
  ∀ (s : State) (w0 w1 : Word),
    exec (.invalid w0 w1) s =
      .next { s with
        regs := { s.regs with ip := s.regs.ip + 2 }
        trace := s.trace ++ [.invalidOpcode s.regs.ip w0] }

/-! ## INT and the software handlers -/

/-- INT with a code other than 1 is the model fault UNDEF_INT and changes nothing else (R126, R153). -/
def Obligations.IntOtherCodeHalts : Prop :=
  ∀ (s : State) (code : Word), code ≠ 1 →
    exec (.int code) s = .next { s with phase := .halted, haltReason := 18 }

/-- INT 1 under FCFS retires the running process and dispatches the new front, or halts NO_PROCESS (R126, R165, R171,
R172). -/
def Obligations.IntUnderFcfsDispatchesFront : Prop :=
  ∀ s : State, s.vec.software = .swiFcfs → s.cur < s.procs.length →
    (s.procs.eraseIdx s.cur = [] →
        exec (.int 1) s = .next { s.atInt with procs := [], phase := .halted, haltReason := 1 }) ∧
      ∀ q qs, s.procs.eraseIdx s.cur = q :: qs →
        exec (.int 1) s =
          .next { s.atInt with
            regs := q.regs, livePt := some q.pid, procs := { q with state := .running } :: qs, cur := 0, ticks := 0 }

/-- INT 1 under SJF retires the running process and dispatches the one of least burst, ties to the smallest pid, or halts
NO_PROCESS (R126, R166, R175). -/
def Obligations.IntUnderSjfDispatchesShortest : Prop :=
  ∀ s : State, s.vec.software = .swiSjf → s.cur < s.procs.length →
    (s.procs.eraseIdx s.cur = [] →
        exec (.int 1) s = .next { s.atInt with procs := [], phase := .halted, haltReason := 1 }) ∧
      (s.procs.eraseIdx s.cur ≠ [] →
        ∃ i q, (s.procs.eraseIdx s.cur)[i]? = some q ∧
          (∀ r ∈ s.procs.eraseIdx s.cur,
            q.burst.toNat < r.burst.toNat ∨ (q.burst = r.burst ∧ q.pid.toNat ≤ r.pid.toNat)) ∧
          exec (.int 1) s =
            .next { s.atInt with
              regs := q.regs, livePt := some q.pid
              procs := (s.procs.eraseIdx s.cur).set i { q with state := .running }
              cur := i, ticks := 0 })

/-- INT 1 under RR frees the running process's extent first; then it retires the process and dispatches the one at the
same wrapped index, or halts NO_PROCESS; an event that freeing the extent ends, ends there (R126, R168). -/
def Obligations.IntUnderRrFreesThenDispatches : Prop :=
  ∀ (s : State) (p : Process), s.vec.software = .swiRr → s.procs[s.cur]? = some p →
    (∀ u, freeExtent p.extStart.toNat p.extSize.toNat s.atInt = .ended u → exec (.int 1) s = .next u) ∧
    ∀ u, freeExtent p.extStart.toNat p.extSize.toNat s.atInt = .ok () u → s.cur < u.procs.length →
      (u.procs.eraseIdx s.cur = [] →
          exec (.int 1) s = .next { u with procs := [], phase := .halted, haltReason := 1 }) ∧
        ∀ q, (u.procs.eraseIdx s.cur)[s.cur % (u.procs.eraseIdx s.cur).length]? = some q →
          exec (.int 1) s =
            .next { u with
              regs := q.regs, livePt := some q.pid
              procs := (u.procs.eraseIdx s.cur).set (s.cur % (u.procs.eraseIdx s.cur).length)
                { q with state := .running }
              cur := s.cur % (u.procs.eraseIdx s.cur).length, ticks := 0 }

/-- INT 1 under PRIO is keyed on register `a`: 1 retires the running process and dispatches the one of greatest signed
priority, ties to the smallest pid, with no promotion, or halts NO_PROCESS; 2 sets the running process's priority to
`b`; any other value is the model fault UNDEF_SYSCALL (R126, R170, R174). -/
def Obligations.IntUnderPrioIsKeyedOnA : Prop :=
  ∀ (s : State) (p : Process), s.vec.software = .swiPrio → s.procs[s.cur]? = some p →
    (s.regs.a = 1 →
      (s.procs.eraseIdx s.cur = [] →
          exec (.int 1) s = .next { s.atInt with procs := [], phase := .halted, haltReason := 1 }) ∧
        (s.procs.eraseIdx s.cur ≠ [] →
          ∃ i q, (s.procs.eraseIdx s.cur)[i]? = some q ∧
            (∀ r ∈ s.procs.eraseIdx s.cur,
              r.prio.toInt < q.prio.toInt ∨ (r.prio = q.prio ∧ q.pid.toNat ≤ r.pid.toNat)) ∧
            exec (.int 1) s =
              .next { s.atInt with
                regs := q.regs, livePt := some q.pid
                procs := (s.procs.eraseIdx s.cur).set i { q with state := .running }
                cur := i, ticks := 0 })) ∧
    (s.regs.a = 2 →
      exec (.int 1) s = .next { s.atInt with procs := s.procs.set s.cur { p with prio := s.regs.b } }) ∧
    (s.regs.a ≠ 1 → s.regs.a ≠ 2 →
      exec (.int 1) s = .next { s.atInt with phase := .halted, haltReason := 19 })

/-- The host's SWI event runs the software slot's handler with `ip` as it stands, under both settings of INT_IP_ADVANCE;
INT 1 runs the same handler, with `ip` advanced first under INT_IP_ADVANCE, so without it the two are one transition
(R126, R155, R190). -/
def Obligations.SwiEventRunsSoftwareVector : Prop :=
  ∀ s : State, s.phase = .run → s.nextEvent = .swi →
    step s = (runHandler s.vec.software none s.tookEvent).outcome ∧
      exec (.int 1) s.tookEvent = (runHandler s.vec.software none s.tookEvent.atInt).outcome ∧
      (s.cfg.intIpAdvance = false → step s = exec (.int 1) s.tookEvent)

/-- No instruction but INT writes a control or status element of R40, with two exceptions, both of a load or store alone: it
may take the one frame on top of POOL and map it, and it may halt the machine with NO_FRAME (2), VA_RANGE (17) or
PT_RANGE (20) (R43, R60, R152, R153, R162). Where POOL is as before, so is PROCS. -/
def Obligations.OnlyIntChangesControlState : Prop :=
  ∀ (i : Instr) (s t : State), s.vec.pageFault = .pf → (∀ code, i ≠ .int code) → exec i s = .next t →
    t.cfg = s.cfg ∧ t.vec = s.vec ∧ t.livePt = s.livePt ∧ t.cur = s.cur ∧ t.ticks = s.ticks ∧
      t.nextPid = s.nextPid ∧ t.rover = s.rover ∧ t.pending = s.pending ∧ t.replies = s.replies ∧
      ((t.pool = s.pool ∧ t.procs = s.procs) ∨
        ∃ addr, i ∈ accessInstrs addr ∧ ∃ f, s.pool = f :: t.pool) ∧
      ((t.phase = s.phase ∧ t.haltReason = s.haltReason) ∨
        ∃ addr, i ∈ accessInstrs addr ∧ t.phase = .halted ∧
          (t.haltReason = 2 ∨ t.haltReason = 17 ∨ t.haltReason = 20))

/-! ## Loads and stores -/

/-- A load whose page is mapped reads the one word at frame base plus offset into its register and adds 2 to `ip`; nothing
else changes (R60, R61, R135, R137 to R139). -/
def Obligations.LoadHitReadsWord : Prop :=
  ∀ (s : State) (addr f : Word),
    addr.toNat / s.cfg.pageSize < s.cfg.ptEntries →
    s.liveEntry (addr.toNat / s.cfg.pageSize) = some f → f ≠ unmapped →
    f.toNat + addr.toNat % s.cfg.pageSize < s.cfg.ramWords →
    exec (.lda addr) s =
        .next { s with
          regs := { s.regs with
            a := s.mem.readWord (f.toNat + addr.toNat % s.cfg.pageSize), ip := s.regs.ip + 2 } } ∧
      exec (.ldb addr) s =
        .next { s with
          regs := { s.regs with
            b := s.mem.readWord (f.toNat + addr.toNat % s.cfg.pageSize), ip := s.regs.ip + 2 } } ∧
      exec (.ldc addr) s =
        .next { s with
          regs := { s.regs with
            c := s.mem.readWord (f.toNat + addr.toNat % s.cfg.pageSize), ip := s.regs.ip + 2 } }

/-- A store whose page is mapped writes its register's word at frame base plus offset and adds 2 to `ip`: that word reads
as the register, every byte outside its four reads as before, and nothing else changes (R60, R61, R135, R140 to R142,
R83). -/
def Obligations.StoreHitWritesOneWord : Prop :=
  ∀ (s : State) (addr f : Word), s.mem.wf →
    addr.toNat / s.cfg.pageSize < s.cfg.ptEntries →
    s.liveEntry (addr.toNat / s.cfg.pageSize) = some f → f ≠ unmapped →
    f.toNat + addr.toNat % s.cfg.pageSize < s.cfg.ramWords →
    ∀ x ∈ [(Instr.sta addr, s.regs.a), (Instr.stb addr, s.regs.b), (Instr.stc addr, s.regs.c)],
      ∃ t, exec x.1 s = .next t ∧
        t = { s with mem := t.mem, regs := { s.regs with ip := s.regs.ip + 2 } } ∧ t.mem.wf ∧
        t.mem.readWord (f.toNat + addr.toNat % s.cfg.pageSize) = x.2 ∧
        ∀ a, a < 4 * (f.toNat + addr.toNat % s.cfg.pageSize) ∨ 4 * (f.toNat + addr.toNat % s.cfg.pageSize) + 4 ≤ a →
          t.mem.read a = s.mem.read a

/-- A load or store of a page index outside the page table is the model fault VA_RANGE and changes nothing else (R60,
R153). -/
def Obligations.AccessOutsidePageTableHalts : Prop :=
  ∀ (s : State) (addr : Word), s.cfg.ptEntries ≤ addr.toNat / s.cfg.pageSize →
    ∀ i ∈ accessInstrs addr, exec i s = .next { s with phase := .halted, haltReason := 17 }

/-- A load or store of an unmapped page takes the page-fault vector: the top frame of POOL backs the page in the live
table, and no register and no byte of memory changes, `ip` included. For every load and store where the argument comes
from the instruction's register, and for LDA and STA always (R136, R159, R162). -/
def Obligations.PageFaultMapsTopFrame : Prop :=
  ∀ (s : State) (addr f : Word) (rest : List Word), s.vec.pageFault = .pf →
    addr.toNat / s.cfg.pageSize < s.cfg.ptEntries →
    s.liveEntry (addr.toNat / s.cfg.pageSize) = some unmapped → s.pool = f :: rest → f ≠ noFrame →
    ∀ i ∈ accessInstrs addr, s.cfg.faultArgReg = .instrReg ∨ i = .lda addr ∨ i = .sta addr →
      exec i s =
        .next { s with
          pool := rest
          procs := s.procs.map fun p =>
            if s.livePt = some p.pid then { p with pt := p.pt.set (addr.toNat / s.cfg.pageSize) f } else p }

/-- The same access with an empty POOL halts the machine with NO_FRAME, and the register the protocol wrote is restored:
nothing but PHASE and HALT_REASON changes (R136, R152, R162). -/
def Obligations.PageFaultWithoutFrameHalts : Prop :=
  ∀ (s : State) (addr : Word), s.vec.pageFault = .pf →
    addr.toNat / s.cfg.pageSize < s.cfg.ptEntries →
    s.liveEntry (addr.toNat / s.cfg.pageSize) = some unmapped → s.pool = [] →
    ∀ i ∈ accessInstrs addr, s.cfg.faultArgReg = .instrReg ∨ i = .lda addr ∨ i = .sta addr →
      exec i s = .next { s with phase := .halted, haltReason := 2 }

/-- Under FAULT_ARG_REG = REG_A a miss of LDB, LDC, STB or STC maps the page numbered by `a`, whatever that entry held,
or is the model fault PT_RANGE; no register changes (R136, R162, R212). -/
def Obligations.PageFaultUnderRegAMapsPageA : Prop :=
  ∀ (s : State) (addr : Word), s.vec.pageFault = .pf → s.cfg.faultArgReg = .regA →
    addr.toNat / s.cfg.pageSize < s.cfg.ptEntries →
    s.liveEntry (addr.toNat / s.cfg.pageSize) = some unmapped →
    ∀ i ∈ [Instr.ldb addr, .ldc addr, .stb addr, .stc addr],
      (s.cfg.ptEntries ≤ s.regs.a.toNat → exec i s = .next { s with phase := .halted, haltReason := 20 }) ∧
      (s.regs.a.toNat < s.cfg.ptEntries → s.pool = [] →
        exec i s = .next { s with phase := .halted, haltReason := 2 }) ∧
      ∀ f rest g, s.regs.a.toNat < s.cfg.ptEntries → s.pool = f :: rest → f ≠ noFrame →
        s.liveEntry s.regs.a.toNat = some g →
        exec i s =
          .next { s with
            pool := rest
            procs := s.procs.map fun p =>
              if s.livePt = some p.pid then { p with pt := p.pt.set s.regs.a.toNat f } else p }

/-- The retry contract: a STEP of a load or store that misses leaves the registers and RAM and maps the page to the one frame
it takes, and the next STEP of the same process moves the word at that frame and adds 2 to `ip` (R143). -/
def Obligations.PageFaultRetryCompletes : Prop :=
  ∀ (s : State) (addr : Word) (i : Instr), s.Inv → s.phase = .run → s.nextEvent = .step →
    s.tookEvent.nextEvent = .step → s.regs.ip.toNat + 1 < s.cfg.ramWords →
    decode s.cfg.opmapMode (s.mem.readWord s.regs.ip.toNat) (s.mem.readWord (s.regs.ip.toNat + 1)) = i →
    i ∈ accessInstrs addr → s.cfg.faultArgReg = .instrReg ∨ i = .lda addr ∨ i = .sta addr →
    addr.toNat / s.cfg.pageSize < s.cfg.ptEntries →
    s.liveEntry (addr.toNat / s.cfg.pageSize) = some unmapped → s.pool ≠ [] →
    ∃ t u f pa, step s = .next t ∧ t.regs = s.regs ∧ t.mem = s.mem ∧ t.phase = .run ∧ s.pool = f :: t.pool ∧
      t.liveEntry (addr.toNat / s.cfg.pageSize) = some f ∧ pa = f.toNat + addr.toNat % s.cfg.pageSize ∧
      step t = .next u ∧ u.regs.ip = s.regs.ip + 2 ∧ u.phase = .run ∧ u.pool = t.pool ∧
      (i = .lda addr → u.regs.a = s.mem.readWord pa) ∧ (i = .ldb addr → u.regs.b = s.mem.readWord pa) ∧
      (i = .ldc addr → u.regs.c = s.mem.readWord pa) ∧ (i = .sta addr → u.mem.readWord pa = s.regs.a) ∧
      (i = .stb addr → u.mem.readWord pa = s.regs.b) ∧ (i = .stc addr → u.mem.readWord pa = s.regs.c)

/-- From every state of the invariant in RUN, every instruction has a next state, and the invariant holds in it. A halt
(R152) and a model fault (R153) count as next states here, with PHASE HALTED and their code in HALT_REASON: that reading
is the model's own, DEDUCED, log entry 7. The invariant is the model's too, made of R6, R25 to R27, R30 to R32, R35,
R36, R41 and R151. -/
def Obligations.EveryInstructionHasNextState : Prop :=
  ∀ (s : State) (i : Instr), s.Inv → s.phase = .run → ∃ t, exec i s = .next t ∧ t.Inv

/-! ## Vectors and timers -/

/-- Reset fills the four slots from POLICY as R151's table says, nothing rewrites them, and NOP changes no state. -/
def Obligations.VectorsFilledOnceFromPolicy : Prop :=
  (∀ c : Config, (State.resetWith c).vec =
      match c.policy with
      | .fcfs => { timer := .nop, software := .swiFcfs, pageFault := .pf, reserved := .nop }
      | .sjf => { timer := .nop, software := .swiSjf, pageFault := .pf, reserved := .nop }
      | .rr => { timer := .tmrRr, software := .swiRr, pageFault := .pf, reserved := .nop }
      | .prio => { timer := .tmrPrio, software := .swiPrio, pageFault := .pf, reserved := .nop }) ∧
    (∀ s t : State, step s = .next t → t.vec = s.vec) ∧
    ∀ (s : State) (arg : Option Word), runHandler .nop arg s = .ok () s

/-- No step changes a configuration register (R34). -/
def Obligations.ConfigurationNeverChanges : Prop := ∀ s t : State, step s = .next t → t.cfg = s.cfg

/-- A TIMER event whose slot holds NOP, as under FCFS and SJF, changes nothing (R151, R154, R165, R166). -/
def Obligations.NopTimerChangesNothing : Prop :=
  ∀ s : State, s.phase = .run → s.nextEvent = .timer → s.vec.timer = .nop → step s = .next s.tookEvent

/-- A TIMER event under RR: TICKS counts modulo `2^32`; from the quantum on, with more than one process, the running
process's registers are saved, it becomes Ready, and the next process in circular order is dispatched (R167, R171,
R173). -/
def Obligations.RoundRobinTimerPreempts : Prop :=
  ∀ (s : State) (p : Process), s.phase = .run → s.nextEvent = .timer → s.vec.timer = .tmrRr →
    s.procs[s.cur]? = some p →
    (¬ (s.cfg.quantum.toNat ≤ (s.ticks + 1).toNat ∧ 1 < s.procs.length) →
        step s = .next { s.tookEvent with ticks := s.ticks + 1 }) ∧
      (s.cfg.quantum.toNat ≤ (s.ticks + 1).toNat → 1 < s.procs.length →
        ∀ q, s.procs[(s.cur + 1) % s.procs.length]? = some q →
          step s =
            .next { s.tookEvent with
              regs := q.regs, livePt := some q.pid
              procs := (s.procs.set s.cur { p with regs := s.regs, state := .ready }).set
                ((s.cur + 1) % s.procs.length) { q with state := .running }
              cur := (s.cur + 1) % s.procs.length, ticks := 0 })

/-- A TIMER event under PRIO: TICKS counts; from the quantum on the running process is saved, made Ready and demoted by
1, and the process of greatest signed priority among all, ties to the smallest pid, is promoted by 1 and dispatched
(R169, R171, R173, R174). -/
def Obligations.PriorityTimerDemotesAndPromotes : Prop :=
  ∀ (s : State) (p : Process), s.phase = .run → s.nextEvent = .timer → s.vec.timer = .tmrPrio →
    s.procs[s.cur]? = some p →
    ((s.ticks + 1).toNat < s.cfg.quantum.toNat → step s = .next { s.tookEvent with ticks := s.ticks + 1 }) ∧
      (s.cfg.quantum.toNat ≤ (s.ticks + 1).toNat →
        ∃ ps i q,
          ps = s.procs.set s.cur { p with regs := s.regs, state := .ready, prio := p.prio - 1 } ∧
          ps[i]? = some q ∧
          (∀ r ∈ ps, r.prio.toInt < q.prio.toInt ∨ (r.prio = q.prio ∧ q.pid.toNat ≤ r.pid.toNat)) ∧
          step s =
            .next { s.tookEvent with
              regs := q.regs, livePt := some q.pid
              procs := ps.set i { q with prio := q.prio + 1, state := .running }
              cur := i, ticks := 0 })

/-- A TIMER event that changes the running process leaves the outgoing one's live registers in its record (R173). -/
def Obligations.PreemptionSavesRegisters : Prop :=
  ∀ s t : State, s.Inv → s.phase = .run → s.nextEvent = .timer → step s = .next t → t.livePt ≠ s.livePt →
    ∃ q ∈ t.procs, s.livePt = some q.pid ∧ q.regs = s.regs

/-- A step in RUN that changes the live page table installs the registers saved for the same process with it (R41 (ii),
R171, R176). -/
def Obligations.SwitchInstallsRegistersAndTable : Prop :=
  ∀ s t : State, s.Inv → s.phase = .run → step s = .next t → t.livePt ≠ s.livePt →
    ∃ p ∈ s.procs, t.livePt = some p.pid ∧ t.regs = p.regs

/-! ## Reset and the host's events -/

/-- The state reset leaves under a configuration: the configuration registers, the four slots, RAM all 0 but the allocator's header, the
full pool with the highest frame on top, and every other element as R200 lists it (R68, R71, R200). -/
def Obligations.ResetLeavesTheListedState : Prop :=
  ∀ c : Config, c.wf →
    (State.resetWith c).cfg = c ∧ (State.resetWith c).vec = vectorsOf c.policy ∧
    (∀ k, (State.resetWith c).mem.readWord k =
      if k = c.heapBase.toNat then c.heapBase else if k = c.heapBase.toNat + 1 then c.heapWords else 0) ∧
    (State.resetWith c).rover = c.heapBase ∧
    (State.resetWith c).pool.length = c.ramWords / c.pageSize ∧
    (∀ k, k < c.ramWords / c.pageSize →
      ((State.resetWith c).pool[k]?).map BitVec.toNat = some ((c.ramWords / c.pageSize - 1 - k) * c.pageSize)) ∧
    (State.resetWith c).procs = [] ∧ (State.resetWith c).nextPid = 0 ∧ (State.resetWith c).livePt = none ∧
    (State.resetWith c).cur = 0 ∧ (State.resetWith c).ticks = 0 ∧
    (State.resetWith c).regs = { a := 0, b := 0, c := 0, flags := 0, ip := 0, sp := 0 } ∧
    (State.resetWith c).phase = .construct ∧ (State.resetWith c).haltReason = 0 ∧ (State.resetWith c).trace = []

/-- The invariant holds right after reset, under every configuration that keeps R6's constraints, and in the model's own
reset state (the configuration of that state is the model's choice, log entry 3). So do the two further properties that
every step keeps: no frame is held twice (R41 (iii), R68), and the reserved registers are 0 (R21, R23, R200). -/
def Obligations.ResetMeetsInvariant : Prop :=
  (∀ c : Config, c.wf →
    (State.resetWith c).Inv ∧ (State.resetWith c).framesHeldOnce ∧ (State.resetWith c).reservedZero) ∧
    State.reset.Inv ∧ State.reset.framesHeldOnce ∧ State.reset.reservedZero

/-- HOST_WRITE sets the one word at a physical address inside RAM; outside RAM, or outside CONSTRUCT, it has no
transition (R202). -/
def Obligations.HostWriteSetsOneWord : Prop :=
  ∀ (s : State) (pa v : Word), s.nextEvent = .hostWrite pa v →
    (s.phase ≠ .construct → step s = .refused (.eventNotAdmitted (.hostWrite pa v) s.phase)) ∧
    (s.phase = .construct → s.cfg.ramWords ≤ pa.toNat → step s = .refused (.hostWriteRange pa)) ∧
    (s.phase = .construct → pa.toNat < s.cfg.ramWords → s.mem.wf →
      ∃ t, step s = .next t ∧ t = { s.tookEvent with mem := t.mem } ∧ t.mem.wf ∧
        ∀ k, t.mem.readWord k = if k = pa.toNat then v else s.mem.readWord k)

/-- HOST_CREATE appends the record R204 gives, takes the next pid and answers it, or halts PID_EXHAUSTED; outside CONSTRUCT
it has no transition; the host's defaults are `burst = ext_size` and `prio = 0` (R64, R204). -/
def Obligations.HostCreateAppendsRecord : Prop :=
  (∀ (s : State) (extStart extSize burst prio : Word), s.nextEvent = .hostCreate extStart extSize burst prio →
    (s.phase ≠ .construct →
      step s = .refused (.eventNotAdmitted (.hostCreate extStart extSize burst prio) s.phase)) ∧
    (s.phase = .construct → s.nextPid = 2 ^ 32 → step s = .next { s.tookEvent with phase := .halted, haltReason := 3 }) ∧
    (s.phase = .construct → s.nextPid ≠ 2 ^ 32 →
      step s =
        .next { s.tookEvent with
          procs := s.procs ++
            [{ pid := BitVec.ofNat 32 s.nextPid, extStart := extStart, extSize := extSize
               regs := { a := 0, b := 0, c := 0, flags := 0, ip := extStart, sp := 0 }
               pt := List.replicate s.cfg.ptEntries unmapped
               state := .new, prio := prio, burst := burst }]
          nextPid := s.nextPid + 1
          replies := s.replies ++ [.pid (BitVec.ofNat 32 s.nextPid)] })) ∧
  ∀ extStart extSize : Word, hostCreateDefault extStart extSize = .hostCreate extStart extSize extSize 0

/-- START dispatches the first created process and enters RUN, or halts NO_PROCESS; outside CONSTRUCT it has no transition
(R171, R205). -/
def Obligations.StartDispatchesFirstCreated : Prop :=
  ∀ s : State, s.nextEvent = .start →
    (s.phase ≠ .construct → step s = .refused (.eventNotAdmitted .start s.phase)) ∧
    (s.phase = .construct → s.procs = [] → step s = .next { s.tookEvent with phase := .halted, haltReason := 1 }) ∧
    ∀ p ps, s.phase = .construct → s.procs = p :: ps →
      step s =
        .next { s.tookEvent with
          phase := .run, regs := p.regs, livePt := some p.pid
          procs := { p with state := .running } :: ps, cur := 0, ticks := 0 }

/-- FRAME_ACQUIRE pops the top of POOL and answers it, or answers NO_FRAME and pops nothing (R66, R190). -/
def Obligations.FrameAcquirePopsTop : Prop :=
  ∀ s : State, s.phase ≠ .halted → s.nextEvent = .frameAcquire →
    (s.pool = [] → step s = .next { s.tookEvent with replies := s.replies ++ [.frame 0xFFFFFFFF] }) ∧
    ∀ f rest, s.pool = f :: rest →
      step s = .next { s.tookEvent with pool := rest, replies := s.replies ++ [.frame f] }

/-- FRAME_RELEASE pushes a frame base that is not in POOL; any other word is the model fault BAD_RELEASE (R67). -/
def Obligations.FrameReleaseChecksOwnership : Prop :=
  ∀ (s : State) (f : Word), s.phase ≠ .halted → s.nextEvent = .frameRelease f →
    (f.toNat % s.cfg.pageSize ≠ 0 ∨ s.cfg.ramWords ≤ f.toNat ∨ f ∈ s.pool →
      step s = .next { s.tookEvent with phase := .halted, haltReason := 21 }) ∧
    (f.toNat % s.cfg.pageSize = 0 → f.toNat < s.cfg.ramWords → f ∉ s.pool →
      step s = .next { s.tookEvent with pool := f :: s.pool })

/-! ## The allocator -/

/-- Requests of 0 words or of more than HEAP_WORDS, and any request with an empty free list, answer `(NO_FIT, 0)` and
change nothing (R73). -/
def Obligations.DegenerateRequestAnswersNoFit : Prop :=
  ∀ (s : State) (units : Word),
    units.toNat = 0 ∨ s.cfg.heapWords.toNat < units.toNat ∨ s.rover = nil → allocateMemory units s = .ok none s

/-- A successful allocation reserves at least the requested units, at least the two words of a header, inside the managed
range (R73). No page table is live when HOST_ALLOC runs it (R203). -/
def Obligations.AllocationReservesEnough : Prop :=
  ∀ (s t : State) (units : Word) (a n : Nat), s.livePt = none → allocateMemory units s = .ok (some (a, n)) t →
    units.toNat ≤ n ∧ 2 ≤ n ∧ s.cfg.heapBase.toNat ≤ a ∧ a + n ≤ s.cfg.heapEnd

/-- A failed allocation leaves the whole state unchanged, and so does the HOST_ALLOC event it belongs to, but for the
answer `(NO_FIT, 0)`: PHASE stays CONSTRUCT, the machine does not halt (R73, R203). -/
def Obligations.FailedAllocationChangesNothing : Prop :=
  (∀ (s t : State) (units : Word), s.livePt = none → allocateMemory units s = .ok none t → t = s) ∧
    ∀ (s t : State) (units : Word), s.livePt = none → s.phase = .construct → s.nextEvent = .hostAlloc units →
      allocateMemory units s.tookEvent = .ok none t →
      step s = .next { s.tookEvent with replies := s.replies ++ [.extent 0xFFFFFFFF 0] }

/-- Allocation keeps the tiling: where the free blocks and the live extents tile the managed range, they still do after a
successful allocation, with the new extent among the live ones, and no two free blocks become adjacent (R70, R73,
R76). -/
def Obligations.AllocationKeepsTiling : Prop :=
  ∀ (s t : State) (units : Word) (free live : List (Nat × Nat)) (a n : Nat),
    s.cfg.wf → s.mem.wf → s.livePt = none → s.heapTiled free live → noneAdjacent free →
    allocateMemory units s = .ok (some (a, n)) t →
    ∃ free', t.heapTiled free' ((a, n) :: live) ∧ noneAdjacent free'

/-- Freeing a live extent through physical accesses succeeds and keeps the tiling, with the extent gone from the live
ones, and no two free blocks are adjacent afterwards (R70, R74, R76). -/
def Obligations.FreeKeepsTilingAndCoalesces : Prop :=
  ∀ (s : State) (free live : List (Nat × Nat)) (bp n : Nat),
    s.cfg.wf → s.mem.wf → s.cfg.allocXlate = false → s.heapTiled free ((bp, n) :: live) → noneAdjacent free →
    2 ≤ n → ∃ t free', freeExtent bp n s = .ok () t ∧ t.heapTiled free' live ∧ noneAdjacent free'

/-- The allocator touches only the managed range: where its accesses are physical, whatever it answers, halts included,
every byte outside the range reads as before, and nothing but RAM, ROVER, PHASE and HALT_REASON changes (R70, R72,
R158). -/
def Obligations.AllocatorWritesOnlyTheHeap : Prop :=
  ∀ (s t : State) (units : Word) (bp n : Nat), s.cfg.allocXlate = false ∨ s.livePt = none →
    (∃ r, allocateMemory units s = .ok r t) ∨ allocateMemory units s = .ended t ∨ freeExtent bp n s = .ok () t ∨
      freeExtent bp n s = .ended t →
    t = { s with mem := t.mem, rover := t.rover, phase := t.phase, haltReason := t.haltReason } ∧
    ∀ a, a < 4 * s.cfg.heapBase.toNat ∨ 4 * s.cfg.heapEnd ≤ a → t.mem.read a = s.mem.read a

/-! ## The image file -/

/-- An image file's words are its bytes four by four, the first the least significant; a byte count that is no multiple of
four is rejected (R103). -/
def Obligations.ImageBytesAreLittleEndianWords : Prop :=
  (∀ ws : List Word,
    imageWords (ws.flatMap fun w =>
      [w.extractLsb' 0 8, w.extractLsb' 8 8, w.extractLsb' 16 8, w.extractLsb' 24 8]) = some ws) ∧
    ∀ bytes : List Byte, imageWords bytes = none ↔ bytes.length % 4 ≠ 0

/-! ## Invariants of every step -/

/-- Every step from a state of the invariant leads to a state of the invariant: R6, R25 to R32, R35, R36, R41 (i), R151. -/
def Obligations.StepKeepsInvariant : Prop := ∀ s t : State, s.Inv → step s = .next t → t.Inv

/-- No frame base is held twice by POOL and the page-table entries, across every step, as long as the host releases no
frame that an entry maps (R41 (iii), R192). That it holds under FAULT_ARG_REG = REG_A too, where R41 remarks that the
source's property fails, is the model's reading, DEDUCED from R66 and R162: log entry 15. -/
def Obligations.StepKeepsFramesHeldOnce : Prop :=
  ∀ s t : State, s.Inv → s.framesHeldOnce → (∀ f, s.nextEvent = .frameRelease f → f ∉ s.mappedFrames) →
    step s = .next t → t.framesHeldOnce

/-- `flags` and `sp`, live and saved, stay at the 0 that creation gives them (R21, R23, R24). -/
def Obligations.StepKeepsReservedRegistersZero : Prop :=
  ∀ s t : State, s.reservedZero → step s = .next t → t.reservedZero

/-- A state of the invariant never breaks a rule's precondition: no access outside RAM, no missing table or record
(R28, R32, R51). -/
def Obligations.InvariantStatesNeverFault : Prop := ∀ (s : State) (f : Fault), s.Inv → step s ≠ .fault f

/-- A mapped page stays mapped for as long as its process lives: no step writes UNMAPPED over an entry (R65). -/
def Obligations.MappedPagesStayMapped : Prop :=
  ∀ (s t : State) (p q : Process) (k : Nat) (f : Word), s.Inv → step s = .next t → p ∈ s.procs → q ∈ t.procs →
    q.pid = p.pid → p.pt[k]? = some f → f ≠ unmapped → ∃ g, q.pt[k]? = some g ∧ g ≠ unmapped

/-- TRACE is only appended to, and only the invalid-opcode path appends: a step that changes TRACE is a STEP in RUN whose
two words at `ip` decode to no instruction, and it appends the one event of that address and word; no instruction but
the invalid one changes TRACE (R39, R115, R116). -/
def Obligations.OnlyInvalidOpcodesTrace : Prop :=
  (∀ s t : State, step s = .next t → t.trace ≠ s.trace →
    s.phase = .run ∧ s.nextEvent = .step ∧ s.regs.ip.toNat + 1 < s.cfg.ramWords ∧
      decode s.cfg.opmapMode (s.mem.readWord s.regs.ip.toNat) (s.mem.readWord (s.regs.ip.toNat + 1)) =
        .invalid (s.mem.readWord s.regs.ip.toNat) (s.mem.readWord (s.regs.ip.toNat + 1)) ∧
      t.trace = s.trace ++ [.invalidOpcode s.regs.ip (s.mem.readWord s.regs.ip.toNat)]) ∧
    ∀ (i : Instr) (s t : State), (∀ w0 w1, i ≠ .invalid w0 w1) → exec i s = .next t → t.trace = s.trace

/-- Only FRAME_RELEASE puts a frame back: every other step leaves POOL or pops frames off its top (R26, R67, R218). -/
def Obligations.OnlyReleaseGrowsPool : Prop :=
  ∀ s t : State, (∀ f, s.nextEvent ≠ .frameRelease f) → step s = .next t → t.pool <:+ s.pool

/-- POOL never holds more than FRAME_COUNT frames (R26). -/
def Obligations.PoolNeverExceedsFrameCount : Prop := ∀ s : State, s.Inv → s.pool.length ≤ s.cfg.frameCount

/-- An instruction other than INT 1 whose operand page is mapped is a function of configuration, RAM, registers and that
page's entry: two states that agree on these lead to states that agree on RAM and registers (R117). -/
def Obligations.CpuIsPureOverRamAndRegisters : Prop :=
  ∀ (s s' t t' : State) (i : Instr), s.cfg = s'.cfg → s.mem = s'.mem → s.regs = s'.regs → i ≠ .int 1 →
    (∀ addr, i ∈ accessInstrs addr →
      s.liveEntry (addr.toNat / s.cfg.pageSize) = s'.liveEntry (addr.toNat / s.cfg.pageSize) ∧
        s.liveEntry (addr.toNat / s.cfg.pageSize) ≠ some unmapped) →
    exec i s = .next t → exec i s' = .next t' → t.mem = t'.mem ∧ t.regs = t'.regs

/-! ## Allocation completes -/

/-- Allocation is next-fit and completes. In a well-kept heap whose ROVER is at block `r`, a request of 1 to HEAP_WORDS
words is served from the first block that fits (2 words at least) in circular order after ROVER, with ROVER's own block
tried last: the answer is that block's address with the request where a tail of more than the two-word header stays free,
else with the whole block, and ROVER goes to the block before it in that order, or, where there is no other block, to the
tail or to NIL. Where no block fits, the answer is `(NO_FIT, 0)` and nothing changes (R73). -/
def Obligations.AllocationIsNextFit : Prop :=
  ∀ (s : State) (units : Word) (n : Nat) (pre post live : List (Nat × Nat)) (r : Nat × Nat),
    s.cfg.wf → s.livePt = none → s.heapTiled (pre ++ r :: post) live → s.rover = BitVec.ofNat 32 r.1 →
    0 < units.toNat → units.toNat ≤ s.cfg.heapWords.toNat → n = max units.toNat 2 →
    (∀ (skipped rest : List (Nat × Nat)) (b : Nat × Nat), post ++ pre ++ [r] = skipped ++ b :: rest →
      (∀ x ∈ skipped, x.2 < n) → n ≤ b.2 →
      ∃ t, allocateMemory units s = .ok (some (b.1, if 2 < b.2 - n then n else b.2)) t ∧
        t.rover =
          if post ++ pre = [] then (if 2 < b.2 - n then BitVec.ofNat 32 (b.1 + n) else nil)
          else BitVec.ofNat 32 ((r :: skipped).getLast (by simp)).1) ∧
    ((∀ x ∈ pre ++ r :: post, x.2 < n) → allocateMemory units s = .ok none s)

/-- HOST_ALLOC runs `AllocateMemory(units)` and answers its `(addr, size)`, or `(NO_FIT, 0)`; an allocation that ends in a
model fault ends the event with no answer; outside CONSTRUCT it has no transition (R190, R203). -/
def Obligations.HostAllocAnswersTheAllocation : Prop :=
  ∀ (s : State) (units : Word), s.nextEvent = .hostAlloc units →
    (s.phase ≠ .construct → step s = .refused (.eventNotAdmitted (.hostAlloc units) s.phase)) ∧
    (s.phase = .construct →
      (∀ t a n, allocateMemory units s.tookEvent = .ok (some (a, n)) t →
        step s = .next { t with replies := t.replies ++ [.extent (BitVec.ofNat 32 a) (BitVec.ofNat 32 n)] }) ∧
      (∀ t, allocateMemory units s.tookEvent = .ok none t →
        step s = .next { t with replies := t.replies ++ [.extent 0xFFFFFFFF 0] }) ∧
      ∀ t, allocateMemory units s.tookEvent = .ended t → step s = .next t)
end

