-- ==== Sys2Proof/Laws/Decode.lean ====
section
/-! SUPPORT. What the lookup of an opcode word can answer. -/

namespace Sys2Proof

/-- A word found in a map is its row's value. -/
theorem lookupOpcode_some {m : OpmapMode} {w : Word} {op : Mnemonic} (h : lookupOpcode m w = some op) :
    opcodeValue m op = w := by
  simpa using List.find?_some h

/-- Every row stands in the table. -/
theorem mem_opcodeOrder (op : Mnemonic) : op ∈ opcodeOrder := by cases op <;> decide

/-- A word not found in a map is no row's value. -/
theorem lookupOpcode_none {m : OpmapMode} {w : Word} (h : lookupOpcode m w = none) (op : Mnemonic) :
    opcodeValue m op ≠ w := by
  simpa using List.find?_eq_none.mp h op (mem_opcodeOrder op)

theorem decode_of_some {m : OpmapMode} {w0 w1 : Word} {op : Mnemonic} (h : lookupOpcode m w0 = some op) :
    decode m w0 w1 = op.instr w1 := by simp [decode, h]

theorem decode_of_none {m : OpmapMode} {w0 w1 : Word} (h : lookupOpcode m w0 = none) :
    decode m w0 w1 = .invalid w0 w1 := by simp [decode, h]

end Sys2Proof
end

