-- ==== Sys2Proof/Laws/State.lean ====
section
/-! SUPPORT. One lemma per field of the state and update of it, so that no later proof unfolds a record update. -/

namespace Sys2Proof.Machine

@[simp] theorem State.setRegs_cfg (s : State) (x : Regs) : (s.setRegs x).cfg = s.cfg := rfl
@[simp] theorem State.setRegs_regs (s : State) (x : Regs) : (s.setRegs x).regs = x := rfl
@[simp] theorem State.setRegs_mem (s : State) (x : Regs) : (s.setRegs x).mem = s.mem := rfl
@[simp] theorem State.setRegs_pool (s : State) (x : Regs) : (s.setRegs x).pool = s.pool := rfl
@[simp] theorem State.setRegs_procs (s : State) (x : Regs) : (s.setRegs x).procs = s.procs := rfl
@[simp] theorem State.setRegs_livePt (s : State) (x : Regs) : (s.setRegs x).livePt = s.livePt := rfl
@[simp] theorem State.setRegs_cur (s : State) (x : Regs) : (s.setRegs x).cur = s.cur := rfl
@[simp] theorem State.setRegs_ticks (s : State) (x : Regs) : (s.setRegs x).ticks = s.ticks := rfl
@[simp] theorem State.setRegs_vec (s : State) (x : Regs) : (s.setRegs x).vec = s.vec := rfl
@[simp] theorem State.setRegs_phase (s : State) (x : Regs) : (s.setRegs x).phase = s.phase := rfl
@[simp] theorem State.setRegs_haltReason (s : State) (x : Regs) : (s.setRegs x).haltReason = s.haltReason := rfl
@[simp] theorem State.setRegs_nextPid (s : State) (x : Regs) : (s.setRegs x).nextPid = s.nextPid := rfl
@[simp] theorem State.setRegs_rover (s : State) (x : Regs) : (s.setRegs x).rover = s.rover := rfl
@[simp] theorem State.setRegs_trace (s : State) (x : Regs) : (s.setRegs x).trace = s.trace := rfl
@[simp] theorem State.setRegs_pending (s : State) (x : Regs) : (s.setRegs x).pending = s.pending := rfl
@[simp] theorem State.setRegs_replies (s : State) (x : Regs) : (s.setRegs x).replies = s.replies := rfl

@[simp] theorem State.setMem_cfg (s : State) (x : Memory) : (s.setMem x).cfg = s.cfg := rfl
@[simp] theorem State.setMem_regs (s : State) (x : Memory) : (s.setMem x).regs = s.regs := rfl
@[simp] theorem State.setMem_mem (s : State) (x : Memory) : (s.setMem x).mem = x := rfl
@[simp] theorem State.setMem_pool (s : State) (x : Memory) : (s.setMem x).pool = s.pool := rfl
@[simp] theorem State.setMem_procs (s : State) (x : Memory) : (s.setMem x).procs = s.procs := rfl
@[simp] theorem State.setMem_livePt (s : State) (x : Memory) : (s.setMem x).livePt = s.livePt := rfl
@[simp] theorem State.setMem_cur (s : State) (x : Memory) : (s.setMem x).cur = s.cur := rfl
@[simp] theorem State.setMem_ticks (s : State) (x : Memory) : (s.setMem x).ticks = s.ticks := rfl
@[simp] theorem State.setMem_vec (s : State) (x : Memory) : (s.setMem x).vec = s.vec := rfl
@[simp] theorem State.setMem_phase (s : State) (x : Memory) : (s.setMem x).phase = s.phase := rfl
@[simp] theorem State.setMem_haltReason (s : State) (x : Memory) : (s.setMem x).haltReason = s.haltReason := rfl
@[simp] theorem State.setMem_nextPid (s : State) (x : Memory) : (s.setMem x).nextPid = s.nextPid := rfl
@[simp] theorem State.setMem_rover (s : State) (x : Memory) : (s.setMem x).rover = s.rover := rfl
@[simp] theorem State.setMem_trace (s : State) (x : Memory) : (s.setMem x).trace = s.trace := rfl
@[simp] theorem State.setMem_pending (s : State) (x : Memory) : (s.setMem x).pending = s.pending := rfl
@[simp] theorem State.setMem_replies (s : State) (x : Memory) : (s.setMem x).replies = s.replies := rfl

@[simp] theorem State.setPool_cfg (s : State) (x : List Word) : (s.setPool x).cfg = s.cfg := rfl
@[simp] theorem State.setPool_regs (s : State) (x : List Word) : (s.setPool x).regs = s.regs := rfl
@[simp] theorem State.setPool_mem (s : State) (x : List Word) : (s.setPool x).mem = s.mem := rfl
@[simp] theorem State.setPool_pool (s : State) (x : List Word) : (s.setPool x).pool = x := rfl
@[simp] theorem State.setPool_procs (s : State) (x : List Word) : (s.setPool x).procs = s.procs := rfl
@[simp] theorem State.setPool_livePt (s : State) (x : List Word) : (s.setPool x).livePt = s.livePt := rfl
@[simp] theorem State.setPool_cur (s : State) (x : List Word) : (s.setPool x).cur = s.cur := rfl
@[simp] theorem State.setPool_ticks (s : State) (x : List Word) : (s.setPool x).ticks = s.ticks := rfl
@[simp] theorem State.setPool_vec (s : State) (x : List Word) : (s.setPool x).vec = s.vec := rfl
@[simp] theorem State.setPool_phase (s : State) (x : List Word) : (s.setPool x).phase = s.phase := rfl
@[simp] theorem State.setPool_haltReason (s : State) (x : List Word) : (s.setPool x).haltReason = s.haltReason := rfl
@[simp] theorem State.setPool_nextPid (s : State) (x : List Word) : (s.setPool x).nextPid = s.nextPid := rfl
@[simp] theorem State.setPool_rover (s : State) (x : List Word) : (s.setPool x).rover = s.rover := rfl
@[simp] theorem State.setPool_trace (s : State) (x : List Word) : (s.setPool x).trace = s.trace := rfl
@[simp] theorem State.setPool_pending (s : State) (x : List Word) : (s.setPool x).pending = s.pending := rfl
@[simp] theorem State.setPool_replies (s : State) (x : List Word) : (s.setPool x).replies = s.replies := rfl

@[simp] theorem State.setProcs_cfg (s : State) (x : List Process) : (s.setProcs x).cfg = s.cfg := rfl
@[simp] theorem State.setProcs_regs (s : State) (x : List Process) : (s.setProcs x).regs = s.regs := rfl
@[simp] theorem State.setProcs_mem (s : State) (x : List Process) : (s.setProcs x).mem = s.mem := rfl
@[simp] theorem State.setProcs_pool (s : State) (x : List Process) : (s.setProcs x).pool = s.pool := rfl
@[simp] theorem State.setProcs_procs (s : State) (x : List Process) : (s.setProcs x).procs = x := rfl
@[simp] theorem State.setProcs_livePt (s : State) (x : List Process) : (s.setProcs x).livePt = s.livePt := rfl
@[simp] theorem State.setProcs_cur (s : State) (x : List Process) : (s.setProcs x).cur = s.cur := rfl
@[simp] theorem State.setProcs_ticks (s : State) (x : List Process) : (s.setProcs x).ticks = s.ticks := rfl
@[simp] theorem State.setProcs_vec (s : State) (x : List Process) : (s.setProcs x).vec = s.vec := rfl
@[simp] theorem State.setProcs_phase (s : State) (x : List Process) : (s.setProcs x).phase = s.phase := rfl
@[simp] theorem State.setProcs_haltReason (s : State) (x : List Process) : (s.setProcs x).haltReason = s.haltReason := rfl
@[simp] theorem State.setProcs_nextPid (s : State) (x : List Process) : (s.setProcs x).nextPid = s.nextPid := rfl
@[simp] theorem State.setProcs_rover (s : State) (x : List Process) : (s.setProcs x).rover = s.rover := rfl
@[simp] theorem State.setProcs_trace (s : State) (x : List Process) : (s.setProcs x).trace = s.trace := rfl
@[simp] theorem State.setProcs_pending (s : State) (x : List Process) : (s.setProcs x).pending = s.pending := rfl
@[simp] theorem State.setProcs_replies (s : State) (x : List Process) : (s.setProcs x).replies = s.replies := rfl

@[simp] theorem State.setLivePt_cfg (s : State) (x : Option Word) : (s.setLivePt x).cfg = s.cfg := rfl
@[simp] theorem State.setLivePt_regs (s : State) (x : Option Word) : (s.setLivePt x).regs = s.regs := rfl
@[simp] theorem State.setLivePt_mem (s : State) (x : Option Word) : (s.setLivePt x).mem = s.mem := rfl
@[simp] theorem State.setLivePt_pool (s : State) (x : Option Word) : (s.setLivePt x).pool = s.pool := rfl
@[simp] theorem State.setLivePt_procs (s : State) (x : Option Word) : (s.setLivePt x).procs = s.procs := rfl
@[simp] theorem State.setLivePt_livePt (s : State) (x : Option Word) : (s.setLivePt x).livePt = x := rfl
@[simp] theorem State.setLivePt_cur (s : State) (x : Option Word) : (s.setLivePt x).cur = s.cur := rfl
@[simp] theorem State.setLivePt_ticks (s : State) (x : Option Word) : (s.setLivePt x).ticks = s.ticks := rfl
@[simp] theorem State.setLivePt_vec (s : State) (x : Option Word) : (s.setLivePt x).vec = s.vec := rfl
@[simp] theorem State.setLivePt_phase (s : State) (x : Option Word) : (s.setLivePt x).phase = s.phase := rfl
@[simp] theorem State.setLivePt_haltReason (s : State) (x : Option Word) : (s.setLivePt x).haltReason = s.haltReason := rfl
@[simp] theorem State.setLivePt_nextPid (s : State) (x : Option Word) : (s.setLivePt x).nextPid = s.nextPid := rfl
@[simp] theorem State.setLivePt_rover (s : State) (x : Option Word) : (s.setLivePt x).rover = s.rover := rfl
@[simp] theorem State.setLivePt_trace (s : State) (x : Option Word) : (s.setLivePt x).trace = s.trace := rfl
@[simp] theorem State.setLivePt_pending (s : State) (x : Option Word) : (s.setLivePt x).pending = s.pending := rfl
@[simp] theorem State.setLivePt_replies (s : State) (x : Option Word) : (s.setLivePt x).replies = s.replies := rfl

@[simp] theorem State.setCur_cfg (s : State) (x : Nat) : (s.setCur x).cfg = s.cfg := rfl
@[simp] theorem State.setCur_regs (s : State) (x : Nat) : (s.setCur x).regs = s.regs := rfl
@[simp] theorem State.setCur_mem (s : State) (x : Nat) : (s.setCur x).mem = s.mem := rfl
@[simp] theorem State.setCur_pool (s : State) (x : Nat) : (s.setCur x).pool = s.pool := rfl
@[simp] theorem State.setCur_procs (s : State) (x : Nat) : (s.setCur x).procs = s.procs := rfl
@[simp] theorem State.setCur_livePt (s : State) (x : Nat) : (s.setCur x).livePt = s.livePt := rfl
@[simp] theorem State.setCur_cur (s : State) (x : Nat) : (s.setCur x).cur = x := rfl
@[simp] theorem State.setCur_ticks (s : State) (x : Nat) : (s.setCur x).ticks = s.ticks := rfl
@[simp] theorem State.setCur_vec (s : State) (x : Nat) : (s.setCur x).vec = s.vec := rfl
@[simp] theorem State.setCur_phase (s : State) (x : Nat) : (s.setCur x).phase = s.phase := rfl
@[simp] theorem State.setCur_haltReason (s : State) (x : Nat) : (s.setCur x).haltReason = s.haltReason := rfl
@[simp] theorem State.setCur_nextPid (s : State) (x : Nat) : (s.setCur x).nextPid = s.nextPid := rfl
@[simp] theorem State.setCur_rover (s : State) (x : Nat) : (s.setCur x).rover = s.rover := rfl
@[simp] theorem State.setCur_trace (s : State) (x : Nat) : (s.setCur x).trace = s.trace := rfl
@[simp] theorem State.setCur_pending (s : State) (x : Nat) : (s.setCur x).pending = s.pending := rfl
@[simp] theorem State.setCur_replies (s : State) (x : Nat) : (s.setCur x).replies = s.replies := rfl

@[simp] theorem State.setTicks_cfg (s : State) (x : Word) : (s.setTicks x).cfg = s.cfg := rfl
@[simp] theorem State.setTicks_regs (s : State) (x : Word) : (s.setTicks x).regs = s.regs := rfl
@[simp] theorem State.setTicks_mem (s : State) (x : Word) : (s.setTicks x).mem = s.mem := rfl
@[simp] theorem State.setTicks_pool (s : State) (x : Word) : (s.setTicks x).pool = s.pool := rfl
@[simp] theorem State.setTicks_procs (s : State) (x : Word) : (s.setTicks x).procs = s.procs := rfl
@[simp] theorem State.setTicks_livePt (s : State) (x : Word) : (s.setTicks x).livePt = s.livePt := rfl
@[simp] theorem State.setTicks_cur (s : State) (x : Word) : (s.setTicks x).cur = s.cur := rfl
@[simp] theorem State.setTicks_ticks (s : State) (x : Word) : (s.setTicks x).ticks = x := rfl
@[simp] theorem State.setTicks_vec (s : State) (x : Word) : (s.setTicks x).vec = s.vec := rfl
@[simp] theorem State.setTicks_phase (s : State) (x : Word) : (s.setTicks x).phase = s.phase := rfl
@[simp] theorem State.setTicks_haltReason (s : State) (x : Word) : (s.setTicks x).haltReason = s.haltReason := rfl
@[simp] theorem State.setTicks_nextPid (s : State) (x : Word) : (s.setTicks x).nextPid = s.nextPid := rfl
@[simp] theorem State.setTicks_rover (s : State) (x : Word) : (s.setTicks x).rover = s.rover := rfl
@[simp] theorem State.setTicks_trace (s : State) (x : Word) : (s.setTicks x).trace = s.trace := rfl
@[simp] theorem State.setTicks_pending (s : State) (x : Word) : (s.setTicks x).pending = s.pending := rfl
@[simp] theorem State.setTicks_replies (s : State) (x : Word) : (s.setTicks x).replies = s.replies := rfl

@[simp] theorem State.setPhase_cfg (s : State) (x : Phase) : (s.setPhase x).cfg = s.cfg := rfl
@[simp] theorem State.setPhase_regs (s : State) (x : Phase) : (s.setPhase x).regs = s.regs := rfl
@[simp] theorem State.setPhase_mem (s : State) (x : Phase) : (s.setPhase x).mem = s.mem := rfl
@[simp] theorem State.setPhase_pool (s : State) (x : Phase) : (s.setPhase x).pool = s.pool := rfl
@[simp] theorem State.setPhase_procs (s : State) (x : Phase) : (s.setPhase x).procs = s.procs := rfl
@[simp] theorem State.setPhase_livePt (s : State) (x : Phase) : (s.setPhase x).livePt = s.livePt := rfl
@[simp] theorem State.setPhase_cur (s : State) (x : Phase) : (s.setPhase x).cur = s.cur := rfl
@[simp] theorem State.setPhase_ticks (s : State) (x : Phase) : (s.setPhase x).ticks = s.ticks := rfl
@[simp] theorem State.setPhase_vec (s : State) (x : Phase) : (s.setPhase x).vec = s.vec := rfl
@[simp] theorem State.setPhase_phase (s : State) (x : Phase) : (s.setPhase x).phase = x := rfl
@[simp] theorem State.setPhase_haltReason (s : State) (x : Phase) : (s.setPhase x).haltReason = s.haltReason := rfl
@[simp] theorem State.setPhase_nextPid (s : State) (x : Phase) : (s.setPhase x).nextPid = s.nextPid := rfl
@[simp] theorem State.setPhase_rover (s : State) (x : Phase) : (s.setPhase x).rover = s.rover := rfl
@[simp] theorem State.setPhase_trace (s : State) (x : Phase) : (s.setPhase x).trace = s.trace := rfl
@[simp] theorem State.setPhase_pending (s : State) (x : Phase) : (s.setPhase x).pending = s.pending := rfl
@[simp] theorem State.setPhase_replies (s : State) (x : Phase) : (s.setPhase x).replies = s.replies := rfl

@[simp] theorem State.setHaltReason_cfg (s : State) (x : BitVec 8) : (s.setHaltReason x).cfg = s.cfg := rfl
@[simp] theorem State.setHaltReason_regs (s : State) (x : BitVec 8) : (s.setHaltReason x).regs = s.regs := rfl
@[simp] theorem State.setHaltReason_mem (s : State) (x : BitVec 8) : (s.setHaltReason x).mem = s.mem := rfl
@[simp] theorem State.setHaltReason_pool (s : State) (x : BitVec 8) : (s.setHaltReason x).pool = s.pool := rfl
@[simp] theorem State.setHaltReason_procs (s : State) (x : BitVec 8) : (s.setHaltReason x).procs = s.procs := rfl
@[simp] theorem State.setHaltReason_livePt (s : State) (x : BitVec 8) : (s.setHaltReason x).livePt = s.livePt := rfl
@[simp] theorem State.setHaltReason_cur (s : State) (x : BitVec 8) : (s.setHaltReason x).cur = s.cur := rfl
@[simp] theorem State.setHaltReason_ticks (s : State) (x : BitVec 8) : (s.setHaltReason x).ticks = s.ticks := rfl
@[simp] theorem State.setHaltReason_vec (s : State) (x : BitVec 8) : (s.setHaltReason x).vec = s.vec := rfl
@[simp] theorem State.setHaltReason_phase (s : State) (x : BitVec 8) : (s.setHaltReason x).phase = s.phase := rfl
@[simp] theorem State.setHaltReason_haltReason (s : State) (x : BitVec 8) : (s.setHaltReason x).haltReason = x := rfl
@[simp] theorem State.setHaltReason_nextPid (s : State) (x : BitVec 8) : (s.setHaltReason x).nextPid = s.nextPid := rfl
@[simp] theorem State.setHaltReason_rover (s : State) (x : BitVec 8) : (s.setHaltReason x).rover = s.rover := rfl
@[simp] theorem State.setHaltReason_trace (s : State) (x : BitVec 8) : (s.setHaltReason x).trace = s.trace := rfl
@[simp] theorem State.setHaltReason_pending (s : State) (x : BitVec 8) : (s.setHaltReason x).pending = s.pending := rfl
@[simp] theorem State.setHaltReason_replies (s : State) (x : BitVec 8) : (s.setHaltReason x).replies = s.replies := rfl

@[simp] theorem State.setNextPid_cfg (s : State) (x : Nat) : (s.setNextPid x).cfg = s.cfg := rfl
@[simp] theorem State.setNextPid_regs (s : State) (x : Nat) : (s.setNextPid x).regs = s.regs := rfl
@[simp] theorem State.setNextPid_mem (s : State) (x : Nat) : (s.setNextPid x).mem = s.mem := rfl
@[simp] theorem State.setNextPid_pool (s : State) (x : Nat) : (s.setNextPid x).pool = s.pool := rfl
@[simp] theorem State.setNextPid_procs (s : State) (x : Nat) : (s.setNextPid x).procs = s.procs := rfl
@[simp] theorem State.setNextPid_livePt (s : State) (x : Nat) : (s.setNextPid x).livePt = s.livePt := rfl
@[simp] theorem State.setNextPid_cur (s : State) (x : Nat) : (s.setNextPid x).cur = s.cur := rfl
@[simp] theorem State.setNextPid_ticks (s : State) (x : Nat) : (s.setNextPid x).ticks = s.ticks := rfl
@[simp] theorem State.setNextPid_vec (s : State) (x : Nat) : (s.setNextPid x).vec = s.vec := rfl
@[simp] theorem State.setNextPid_phase (s : State) (x : Nat) : (s.setNextPid x).phase = s.phase := rfl
@[simp] theorem State.setNextPid_haltReason (s : State) (x : Nat) : (s.setNextPid x).haltReason = s.haltReason := rfl
@[simp] theorem State.setNextPid_nextPid (s : State) (x : Nat) : (s.setNextPid x).nextPid = x := rfl
@[simp] theorem State.setNextPid_rover (s : State) (x : Nat) : (s.setNextPid x).rover = s.rover := rfl
@[simp] theorem State.setNextPid_trace (s : State) (x : Nat) : (s.setNextPid x).trace = s.trace := rfl
@[simp] theorem State.setNextPid_pending (s : State) (x : Nat) : (s.setNextPid x).pending = s.pending := rfl
@[simp] theorem State.setNextPid_replies (s : State) (x : Nat) : (s.setNextPid x).replies = s.replies := rfl

@[simp] theorem State.setRover_cfg (s : State) (x : Word) : (s.setRover x).cfg = s.cfg := rfl
@[simp] theorem State.setRover_regs (s : State) (x : Word) : (s.setRover x).regs = s.regs := rfl
@[simp] theorem State.setRover_mem (s : State) (x : Word) : (s.setRover x).mem = s.mem := rfl
@[simp] theorem State.setRover_pool (s : State) (x : Word) : (s.setRover x).pool = s.pool := rfl
@[simp] theorem State.setRover_procs (s : State) (x : Word) : (s.setRover x).procs = s.procs := rfl
@[simp] theorem State.setRover_livePt (s : State) (x : Word) : (s.setRover x).livePt = s.livePt := rfl
@[simp] theorem State.setRover_cur (s : State) (x : Word) : (s.setRover x).cur = s.cur := rfl
@[simp] theorem State.setRover_ticks (s : State) (x : Word) : (s.setRover x).ticks = s.ticks := rfl
@[simp] theorem State.setRover_vec (s : State) (x : Word) : (s.setRover x).vec = s.vec := rfl
@[simp] theorem State.setRover_phase (s : State) (x : Word) : (s.setRover x).phase = s.phase := rfl
@[simp] theorem State.setRover_haltReason (s : State) (x : Word) : (s.setRover x).haltReason = s.haltReason := rfl
@[simp] theorem State.setRover_nextPid (s : State) (x : Word) : (s.setRover x).nextPid = s.nextPid := rfl
@[simp] theorem State.setRover_rover (s : State) (x : Word) : (s.setRover x).rover = x := rfl
@[simp] theorem State.setRover_trace (s : State) (x : Word) : (s.setRover x).trace = s.trace := rfl
@[simp] theorem State.setRover_pending (s : State) (x : Word) : (s.setRover x).pending = s.pending := rfl
@[simp] theorem State.setRover_replies (s : State) (x : Word) : (s.setRover x).replies = s.replies := rfl

@[simp] theorem State.setTrace_cfg (s : State) (x : List TraceEvent) : (s.setTrace x).cfg = s.cfg := rfl
@[simp] theorem State.setTrace_regs (s : State) (x : List TraceEvent) : (s.setTrace x).regs = s.regs := rfl
@[simp] theorem State.setTrace_mem (s : State) (x : List TraceEvent) : (s.setTrace x).mem = s.mem := rfl
@[simp] theorem State.setTrace_pool (s : State) (x : List TraceEvent) : (s.setTrace x).pool = s.pool := rfl
@[simp] theorem State.setTrace_procs (s : State) (x : List TraceEvent) : (s.setTrace x).procs = s.procs := rfl
@[simp] theorem State.setTrace_livePt (s : State) (x : List TraceEvent) : (s.setTrace x).livePt = s.livePt := rfl
@[simp] theorem State.setTrace_cur (s : State) (x : List TraceEvent) : (s.setTrace x).cur = s.cur := rfl
@[simp] theorem State.setTrace_ticks (s : State) (x : List TraceEvent) : (s.setTrace x).ticks = s.ticks := rfl
@[simp] theorem State.setTrace_vec (s : State) (x : List TraceEvent) : (s.setTrace x).vec = s.vec := rfl
@[simp] theorem State.setTrace_phase (s : State) (x : List TraceEvent) : (s.setTrace x).phase = s.phase := rfl
@[simp] theorem State.setTrace_haltReason (s : State) (x : List TraceEvent) : (s.setTrace x).haltReason = s.haltReason := rfl
@[simp] theorem State.setTrace_nextPid (s : State) (x : List TraceEvent) : (s.setTrace x).nextPid = s.nextPid := rfl
@[simp] theorem State.setTrace_rover (s : State) (x : List TraceEvent) : (s.setTrace x).rover = s.rover := rfl
@[simp] theorem State.setTrace_trace (s : State) (x : List TraceEvent) : (s.setTrace x).trace = x := rfl
@[simp] theorem State.setTrace_pending (s : State) (x : List TraceEvent) : (s.setTrace x).pending = s.pending := rfl
@[simp] theorem State.setTrace_replies (s : State) (x : List TraceEvent) : (s.setTrace x).replies = s.replies := rfl

@[simp] theorem State.setPending_cfg (s : State) (x : List HostEvent) : (s.setPending x).cfg = s.cfg := rfl
@[simp] theorem State.setPending_regs (s : State) (x : List HostEvent) : (s.setPending x).regs = s.regs := rfl
@[simp] theorem State.setPending_mem (s : State) (x : List HostEvent) : (s.setPending x).mem = s.mem := rfl
@[simp] theorem State.setPending_pool (s : State) (x : List HostEvent) : (s.setPending x).pool = s.pool := rfl
@[simp] theorem State.setPending_procs (s : State) (x : List HostEvent) : (s.setPending x).procs = s.procs := rfl
@[simp] theorem State.setPending_livePt (s : State) (x : List HostEvent) : (s.setPending x).livePt = s.livePt := rfl
@[simp] theorem State.setPending_cur (s : State) (x : List HostEvent) : (s.setPending x).cur = s.cur := rfl
@[simp] theorem State.setPending_ticks (s : State) (x : List HostEvent) : (s.setPending x).ticks = s.ticks := rfl
@[simp] theorem State.setPending_vec (s : State) (x : List HostEvent) : (s.setPending x).vec = s.vec := rfl
@[simp] theorem State.setPending_phase (s : State) (x : List HostEvent) : (s.setPending x).phase = s.phase := rfl
@[simp] theorem State.setPending_haltReason (s : State) (x : List HostEvent) : (s.setPending x).haltReason = s.haltReason := rfl
@[simp] theorem State.setPending_nextPid (s : State) (x : List HostEvent) : (s.setPending x).nextPid = s.nextPid := rfl
@[simp] theorem State.setPending_rover (s : State) (x : List HostEvent) : (s.setPending x).rover = s.rover := rfl
@[simp] theorem State.setPending_trace (s : State) (x : List HostEvent) : (s.setPending x).trace = s.trace := rfl
@[simp] theorem State.setPending_pending (s : State) (x : List HostEvent) : (s.setPending x).pending = x := rfl
@[simp] theorem State.setPending_replies (s : State) (x : List HostEvent) : (s.setPending x).replies = s.replies := rfl

@[simp] theorem State.setReplies_cfg (s : State) (x : List Reply) : (s.setReplies x).cfg = s.cfg := rfl
@[simp] theorem State.setReplies_regs (s : State) (x : List Reply) : (s.setReplies x).regs = s.regs := rfl
@[simp] theorem State.setReplies_mem (s : State) (x : List Reply) : (s.setReplies x).mem = s.mem := rfl
@[simp] theorem State.setReplies_pool (s : State) (x : List Reply) : (s.setReplies x).pool = s.pool := rfl
@[simp] theorem State.setReplies_procs (s : State) (x : List Reply) : (s.setReplies x).procs = s.procs := rfl
@[simp] theorem State.setReplies_livePt (s : State) (x : List Reply) : (s.setReplies x).livePt = s.livePt := rfl
@[simp] theorem State.setReplies_cur (s : State) (x : List Reply) : (s.setReplies x).cur = s.cur := rfl
@[simp] theorem State.setReplies_ticks (s : State) (x : List Reply) : (s.setReplies x).ticks = s.ticks := rfl
@[simp] theorem State.setReplies_vec (s : State) (x : List Reply) : (s.setReplies x).vec = s.vec := rfl
@[simp] theorem State.setReplies_phase (s : State) (x : List Reply) : (s.setReplies x).phase = s.phase := rfl
@[simp] theorem State.setReplies_haltReason (s : State) (x : List Reply) : (s.setReplies x).haltReason = s.haltReason := rfl
@[simp] theorem State.setReplies_nextPid (s : State) (x : List Reply) : (s.setReplies x).nextPid = s.nextPid := rfl
@[simp] theorem State.setReplies_rover (s : State) (x : List Reply) : (s.setReplies x).rover = s.rover := rfl
@[simp] theorem State.setReplies_trace (s : State) (x : List Reply) : (s.setReplies x).trace = s.trace := rfl
@[simp] theorem State.setReplies_pending (s : State) (x : List Reply) : (s.setReplies x).pending = s.pending := rfl
@[simp] theorem State.setReplies_replies (s : State) (x : List Reply) : (s.setReplies x).replies = x := rfl

@[simp] theorem State.halt_cfg (s : State) (r : HaltReason) : (s.halt r).cfg = s.cfg := rfl
@[simp] theorem State.halt_regs (s : State) (r : HaltReason) : (s.halt r).regs = s.regs := rfl
@[simp] theorem State.halt_mem (s : State) (r : HaltReason) : (s.halt r).mem = s.mem := rfl
@[simp] theorem State.halt_pool (s : State) (r : HaltReason) : (s.halt r).pool = s.pool := rfl
@[simp] theorem State.halt_procs (s : State) (r : HaltReason) : (s.halt r).procs = s.procs := rfl
@[simp] theorem State.halt_livePt (s : State) (r : HaltReason) : (s.halt r).livePt = s.livePt := rfl
@[simp] theorem State.halt_cur (s : State) (r : HaltReason) : (s.halt r).cur = s.cur := rfl
@[simp] theorem State.halt_ticks (s : State) (r : HaltReason) : (s.halt r).ticks = s.ticks := rfl
@[simp] theorem State.halt_vec (s : State) (r : HaltReason) : (s.halt r).vec = s.vec := rfl
@[simp] theorem State.halt_phase (s : State) (r : HaltReason) : (s.halt r).phase = .halted := rfl
@[simp] theorem State.halt_haltReason (s : State) (r : HaltReason) : (s.halt r).haltReason = r.code := rfl
@[simp] theorem State.halt_nextPid (s : State) (r : HaltReason) : (s.halt r).nextPid = s.nextPid := rfl
@[simp] theorem State.halt_rover (s : State) (r : HaltReason) : (s.halt r).rover = s.rover := rfl
@[simp] theorem State.halt_trace (s : State) (r : HaltReason) : (s.halt r).trace = s.trace := rfl
@[simp] theorem State.halt_pending (s : State) (r : HaltReason) : (s.halt r).pending = s.pending := rfl
@[simp] theorem State.halt_replies (s : State) (r : HaltReason) : (s.halt r).replies = s.replies := rfl

@[simp] theorem State.setReg_cfg (s : State) (r : GReg) (v : Word) : (s.setReg r v).cfg = s.cfg := rfl
@[simp] theorem State.setReg_regs (s : State) (r : GReg) (v : Word) : (s.setReg r v).regs = s.regs.set r v := rfl
@[simp] theorem State.setReg_mem (s : State) (r : GReg) (v : Word) : (s.setReg r v).mem = s.mem := rfl
@[simp] theorem State.setReg_pool (s : State) (r : GReg) (v : Word) : (s.setReg r v).pool = s.pool := rfl
@[simp] theorem State.setReg_procs (s : State) (r : GReg) (v : Word) : (s.setReg r v).procs = s.procs := rfl
@[simp] theorem State.setReg_livePt (s : State) (r : GReg) (v : Word) : (s.setReg r v).livePt = s.livePt := rfl
@[simp] theorem State.setReg_cur (s : State) (r : GReg) (v : Word) : (s.setReg r v).cur = s.cur := rfl
@[simp] theorem State.setReg_ticks (s : State) (r : GReg) (v : Word) : (s.setReg r v).ticks = s.ticks := rfl
@[simp] theorem State.setReg_vec (s : State) (r : GReg) (v : Word) : (s.setReg r v).vec = s.vec := rfl
@[simp] theorem State.setReg_phase (s : State) (r : GReg) (v : Word) : (s.setReg r v).phase = s.phase := rfl
@[simp] theorem State.setReg_haltReason (s : State) (r : GReg) (v : Word) : (s.setReg r v).haltReason = s.haltReason := rfl
@[simp] theorem State.setReg_nextPid (s : State) (r : GReg) (v : Word) : (s.setReg r v).nextPid = s.nextPid := rfl
@[simp] theorem State.setReg_rover (s : State) (r : GReg) (v : Word) : (s.setReg r v).rover = s.rover := rfl
@[simp] theorem State.setReg_trace (s : State) (r : GReg) (v : Word) : (s.setReg r v).trace = s.trace := rfl
@[simp] theorem State.setReg_pending (s : State) (r : GReg) (v : Word) : (s.setReg r v).pending = s.pending := rfl
@[simp] theorem State.setReg_replies (s : State) (r : GReg) (v : Word) : (s.setReg r v).replies = s.replies := rfl

@[simp] theorem State.setIp_cfg (s : State) (v : Word) : (s.setIp v).cfg = s.cfg := rfl
@[simp] theorem State.setIp_regs (s : State) (v : Word) : (s.setIp v).regs = s.regs.setIp v := rfl
@[simp] theorem State.setIp_mem (s : State) (v : Word) : (s.setIp v).mem = s.mem := rfl
@[simp] theorem State.setIp_pool (s : State) (v : Word) : (s.setIp v).pool = s.pool := rfl
@[simp] theorem State.setIp_procs (s : State) (v : Word) : (s.setIp v).procs = s.procs := rfl
@[simp] theorem State.setIp_livePt (s : State) (v : Word) : (s.setIp v).livePt = s.livePt := rfl
@[simp] theorem State.setIp_cur (s : State) (v : Word) : (s.setIp v).cur = s.cur := rfl
@[simp] theorem State.setIp_ticks (s : State) (v : Word) : (s.setIp v).ticks = s.ticks := rfl
@[simp] theorem State.setIp_vec (s : State) (v : Word) : (s.setIp v).vec = s.vec := rfl
@[simp] theorem State.setIp_phase (s : State) (v : Word) : (s.setIp v).phase = s.phase := rfl
@[simp] theorem State.setIp_haltReason (s : State) (v : Word) : (s.setIp v).haltReason = s.haltReason := rfl
@[simp] theorem State.setIp_nextPid (s : State) (v : Word) : (s.setIp v).nextPid = s.nextPid := rfl
@[simp] theorem State.setIp_rover (s : State) (v : Word) : (s.setIp v).rover = s.rover := rfl
@[simp] theorem State.setIp_trace (s : State) (v : Word) : (s.setIp v).trace = s.trace := rfl
@[simp] theorem State.setIp_pending (s : State) (v : Word) : (s.setIp v).pending = s.pending := rfl
@[simp] theorem State.setIp_replies (s : State) (v : Word) : (s.setIp v).replies = s.replies := rfl

@[simp] theorem State.advance_cfg (s : State) : s.advance.cfg = s.cfg := rfl
@[simp] theorem State.advance_regs (s : State) : s.advance.regs = s.regs.setIp (s.regs.ip + 2) := rfl
@[simp] theorem State.advance_mem (s : State) : s.advance.mem = s.mem := rfl
@[simp] theorem State.advance_pool (s : State) : s.advance.pool = s.pool := rfl
@[simp] theorem State.advance_procs (s : State) : s.advance.procs = s.procs := rfl
@[simp] theorem State.advance_livePt (s : State) : s.advance.livePt = s.livePt := rfl
@[simp] theorem State.advance_cur (s : State) : s.advance.cur = s.cur := rfl
@[simp] theorem State.advance_ticks (s : State) : s.advance.ticks = s.ticks := rfl
@[simp] theorem State.advance_vec (s : State) : s.advance.vec = s.vec := rfl
@[simp] theorem State.advance_phase (s : State) : s.advance.phase = s.phase := rfl
@[simp] theorem State.advance_haltReason (s : State) : s.advance.haltReason = s.haltReason := rfl
@[simp] theorem State.advance_nextPid (s : State) : s.advance.nextPid = s.nextPid := rfl
@[simp] theorem State.advance_rover (s : State) : s.advance.rover = s.rover := rfl
@[simp] theorem State.advance_trace (s : State) : s.advance.trace = s.trace := rfl
@[simp] theorem State.advance_pending (s : State) : s.advance.pending = s.pending := rfl
@[simp] theorem State.advance_replies (s : State) : s.advance.replies = s.replies := rfl

@[simp] theorem State.roverTo_cfg (s : State) (p : Nat) : (s.roverTo p).cfg = s.cfg := rfl
@[simp] theorem State.roverTo_regs (s : State) (p : Nat) : (s.roverTo p).regs = s.regs := rfl
@[simp] theorem State.roverTo_mem (s : State) (p : Nat) : (s.roverTo p).mem = s.mem := rfl
@[simp] theorem State.roverTo_pool (s : State) (p : Nat) : (s.roverTo p).pool = s.pool := rfl
@[simp] theorem State.roverTo_procs (s : State) (p : Nat) : (s.roverTo p).procs = s.procs := rfl
@[simp] theorem State.roverTo_livePt (s : State) (p : Nat) : (s.roverTo p).livePt = s.livePt := rfl
@[simp] theorem State.roverTo_cur (s : State) (p : Nat) : (s.roverTo p).cur = s.cur := rfl
@[simp] theorem State.roverTo_ticks (s : State) (p : Nat) : (s.roverTo p).ticks = s.ticks := rfl
@[simp] theorem State.roverTo_vec (s : State) (p : Nat) : (s.roverTo p).vec = s.vec := rfl
@[simp] theorem State.roverTo_phase (s : State) (p : Nat) : (s.roverTo p).phase = s.phase := rfl
@[simp] theorem State.roverTo_haltReason (s : State) (p : Nat) : (s.roverTo p).haltReason = s.haltReason := rfl
@[simp] theorem State.roverTo_nextPid (s : State) (p : Nat) : (s.roverTo p).nextPid = s.nextPid := rfl
@[simp] theorem State.roverTo_rover (s : State) (p : Nat) : (s.roverTo p).rover = BitVec.ofNat 32 p := rfl
@[simp] theorem State.roverTo_trace (s : State) (p : Nat) : (s.roverTo p).trace = s.trace := rfl
@[simp] theorem State.roverTo_pending (s : State) (p : Nat) : (s.roverTo p).pending = s.pending := rfl
@[simp] theorem State.roverTo_replies (s : State) (p : Nat) : (s.roverTo p).replies = s.replies := rfl

@[simp] theorem Regs.setIp_a (r : Regs) (v : Word) : (r.setIp v).a = r.a := rfl
@[simp] theorem Regs.setIp_b (r : Regs) (v : Word) : (r.setIp v).b = r.b := rfl
@[simp] theorem Regs.setIp_c (r : Regs) (v : Word) : (r.setIp v).c = r.c := rfl
@[simp] theorem Regs.setIp_flags (r : Regs) (v : Word) : (r.setIp v).flags = r.flags := rfl
@[simp] theorem Regs.setIp_ip (r : Regs) (v : Word) : (r.setIp v).ip = v := rfl
@[simp] theorem Regs.setIp_sp (r : Regs) (v : Word) : (r.setIp v).sp = r.sp := rfl
@[simp] theorem Regs.set_flags (r : Regs) (x : GReg) (v : Word) : (r.set x v).flags = r.flags := by cases x <;> rfl
@[simp] theorem Regs.set_ip (r : Regs) (x : GReg) (v : Word) : (r.set x v).ip = r.ip := by cases x <;> rfl
@[simp] theorem Regs.set_sp (r : Regs) (x : GReg) (v : Word) : (r.set x v).sp = r.sp := by cases x <;> rfl

/-- Writing a general register and reading it back. -/
@[simp] theorem Regs.get_set (r : Regs) (x : GReg) (v : Word) : (r.set x v).get x = v := by cases x <;> rfl

/-- Writing a general register leaves the others. -/
theorem Regs.get_set_ne (r : Regs) (x y : GReg) (v : Word) (h : y ≠ x) : (r.set x v).get y = r.get y := by
  cases x <;> cases y <;> first | rfl | exact absurd rfl h

/-- The page-fault protocol's stash and restore leave a register set as it was. -/
@[simp] theorem Regs.set_set_get (r : Regs) (x : GReg) (v : Word) : (r.set x v).set x (r.get x) = r := by
  cases x <;> rfl

@[simp] theorem Regs.get_setIp (r : Regs) (x : GReg) (v : Word) : (r.setIp v).get x = r.get x := by cases x <;> rfl

@[simp] theorem Process.setRegs_pid (p : Process) (x : Regs) : (p.setRegs x).pid = p.pid := rfl
@[simp] theorem Process.setRegs_extStart (p : Process) (x : Regs) : (p.setRegs x).extStart = p.extStart := rfl
@[simp] theorem Process.setRegs_extSize (p : Process) (x : Regs) : (p.setRegs x).extSize = p.extSize := rfl
@[simp] theorem Process.setRegs_regs (p : Process) (x : Regs) : (p.setRegs x).regs = x := rfl
@[simp] theorem Process.setRegs_pt (p : Process) (x : Regs) : (p.setRegs x).pt = p.pt := rfl
@[simp] theorem Process.setRegs_state (p : Process) (x : Regs) : (p.setRegs x).state = p.state := rfl
@[simp] theorem Process.setRegs_prio (p : Process) (x : Regs) : (p.setRegs x).prio = p.prio := rfl
@[simp] theorem Process.setRegs_burst (p : Process) (x : Regs) : (p.setRegs x).burst = p.burst := rfl
@[simp] theorem Process.setState_pid (p : Process) (x : ProcState) : (p.setState x).pid = p.pid := rfl
@[simp] theorem Process.setState_extStart (p : Process) (x : ProcState) : (p.setState x).extStart = p.extStart := rfl
@[simp] theorem Process.setState_extSize (p : Process) (x : ProcState) : (p.setState x).extSize = p.extSize := rfl
@[simp] theorem Process.setState_regs (p : Process) (x : ProcState) : (p.setState x).regs = p.regs := rfl
@[simp] theorem Process.setState_pt (p : Process) (x : ProcState) : (p.setState x).pt = p.pt := rfl
@[simp] theorem Process.setState_state (p : Process) (x : ProcState) : (p.setState x).state = x := rfl
@[simp] theorem Process.setState_prio (p : Process) (x : ProcState) : (p.setState x).prio = p.prio := rfl
@[simp] theorem Process.setState_burst (p : Process) (x : ProcState) : (p.setState x).burst = p.burst := rfl
@[simp] theorem Process.setPrio_pid (p : Process) (x : Word) : (p.setPrio x).pid = p.pid := rfl
@[simp] theorem Process.setPrio_extStart (p : Process) (x : Word) : (p.setPrio x).extStart = p.extStart := rfl
@[simp] theorem Process.setPrio_extSize (p : Process) (x : Word) : (p.setPrio x).extSize = p.extSize := rfl
@[simp] theorem Process.setPrio_regs (p : Process) (x : Word) : (p.setPrio x).regs = p.regs := rfl
@[simp] theorem Process.setPrio_pt (p : Process) (x : Word) : (p.setPrio x).pt = p.pt := rfl
@[simp] theorem Process.setPrio_state (p : Process) (x : Word) : (p.setPrio x).state = p.state := rfl
@[simp] theorem Process.setPrio_prio (p : Process) (x : Word) : (p.setPrio x).prio = x := rfl
@[simp] theorem Process.setPrio_burst (p : Process) (x : Word) : (p.setPrio x).burst = p.burst := rfl
@[simp] theorem Process.setEntry_pid (p : Process) (k : Nat) (f : Word) : (p.setEntry k f).pid = p.pid := rfl
@[simp] theorem Process.setEntry_extStart (p : Process) (k : Nat) (f : Word) : (p.setEntry k f).extStart = p.extStart := rfl
@[simp] theorem Process.setEntry_extSize (p : Process) (k : Nat) (f : Word) : (p.setEntry k f).extSize = p.extSize := rfl
@[simp] theorem Process.setEntry_regs (p : Process) (k : Nat) (f : Word) : (p.setEntry k f).regs = p.regs := rfl
@[simp] theorem Process.setEntry_pt (p : Process) (k : Nat) (f : Word) : (p.setEntry k f).pt = p.pt.set k f := rfl
@[simp] theorem Process.setEntry_state (p : Process) (k : Nat) (f : Word) : (p.setEntry k f).state = p.state := rfl
@[simp] theorem Process.setEntry_prio (p : Process) (k : Nat) (f : Word) : (p.setEntry k f).prio = p.prio := rfl
@[simp] theorem Process.setEntry_burst (p : Process) (k : Nat) (f : Word) : (p.setEntry k f).burst = p.burst := rfl

end Sys2Proof.Machine
end

