-- ==== Sys2Proof/Laws/Event.lean ====
section
/-! SUPPORT. Reasoning about the parts of an event: a part meets `All P E B` when its result meets `P`, the state it halts
in meets `E`, and it breaks a precondition only if `B`. -/

namespace Sys2Proof.Machine

/-- What a part of an event answers: a result meeting `P`, a halt meeting `E`, a broken precondition only if `B`. -/
def Ev.All {α : Type} (x : Ev α) (P : α → State → Prop) (E : State → Prop) (B : Prop) : Prop :=
  match x with
  | .ok a s => P a s
  | .ended s => E s
  | .broken _ => B

variable {α β : Type} {P P' : α → State → Prop} {Q : β → State → Prop} {E E' : State → Prop} {B : Prop}

@[simp] theorem Ev.all_ok (a : α) (s : State) : (Ev.ok a s).All P E B ↔ P a s := Iff.rfl
@[simp] theorem Ev.all_ended (s : State) : (Ev.ended s : Ev α).All P E B ↔ E s := Iff.rfl
@[simp] theorem Ev.all_broken (f : Fault) : (Ev.broken f : Ev α).All P E B ↔ B := Iff.rfl
@[simp] theorem Ev.all_halt (r : HaltReason) (s : State) : (haltEvent r s : Ev α).All P E B ↔ E (s.halt r) := Iff.rfl

@[simp] theorem Ev.bind_ok (a : α) (s : State) (f : α → State → Ev β) : (Ev.ok a s).bind f = f a s := rfl
@[simp] theorem Ev.bind_ended (s : State) (f : α → State → Ev β) : (Ev.ended s).bind f = .ended s := rfl
@[simp] theorem Ev.bind_broken (r : Fault) (f : α → State → Ev β) : (Ev.broken r).bind f = .broken r := rfl
@[simp] theorem Ev.bind_halt (r : HaltReason) (s : State) (f : α → State → Ev β) :
    (haltEvent r s : Ev α).bind f = haltEvent r s := rfl

@[simp] theorem Ev.outcome_ok (a : Unit) (s : State) : (Ev.ok a s).outcome = .next s := rfl
@[simp] theorem Ev.outcome_ended (s : State) : (Ev.ended s).outcome = .next s := rfl
@[simp] theorem Ev.outcome_broken (f : Fault) : (Ev.broken f).outcome = .fault f := rfl
@[simp] theorem Ev.outcome_halt (r : HaltReason) (s : State) :
    Ev.outcome (haltEvent r s) = .next (s.halt r) := rfl

/-- Two parts in sequence. -/
theorem Ev.all_bind {x : Ev α} {f : α → State → Ev β} :
    (x.bind f).All Q E B ↔ x.All (fun a s => (f a s).All Q E B) E B := by
  cases x <;> exact Iff.rfl

/-- What a part answers, weakened. -/
theorem Ev.All.mono {x : Ev α} (h : x.All P E B) (hP : ∀ a s, P a s → P' a s) (hE : ∀ s, E s → E' s) :
    x.All P' E' B := by
  cases x
  · exact hP _ _ h
  · exact hE _ h
  · exact h

/-- A part and then the rest of the event. -/
theorem Ev.All.bind {x : Ev α} {f : α → State → Ev β} (h : x.All P E B) (hf : ∀ a s, P a s → (f a s).All Q E B) :
    (x.bind f).All Q E B :=
  Ev.all_bind.mpr (h.mono hf fun _ => id)

/-- The next state of an event made of a part that meets one predicate either way. -/
theorem Ev.All.next {x : Ev Unit} {R : State → Prop} {t : State} (h : x.All (fun _ s => R s) R B)
    (ht : x.outcome = .next t) : R t := by
  cases x with
  | ok a s => simp at ht; exact ht ▸ h
  | ended s => simp at ht; exact ht ▸ h
  | broken f => simp at ht

/-- An event whose part breaks no precondition does not fault. -/
theorem Ev.All.no_fault {x : Ev Unit} {Q : Unit → State → Prop} {f : Fault} (h : x.All Q E False) :
    x.outcome ≠ .fault f := by
  cases x with
  | ok a s => simp
  | ended s => simp
  | broken f => exact h.elim

end Sys2Proof.Machine
end

