-- ==== Sys2Proof/Laws/Memory.lean ====
section
/-! SUPPORT. The laws of the memory cells and of the words over them: read after write, what a write leaves alone, and
the canonical form kept by every operation. -/

namespace Sys2Proof.Machine

@[simp] theorem Memory.read_nil (a : Nat) : Memory.read [] a = Memory.unlisted := rfl

theorem Memory.read_cons (k : Nat) (b : Byte) (m : Memory) (a : Nat) :
    Memory.read ((k, b) :: m) a = if k = a then b else Memory.read m a := rfl

/-- A cell below every listed address reads as an unlisted one. -/
theorem Memory.read_of_lt (m : Memory) (a : Nat) (h : ∀ x ∈ m, a < x.1) : m.read a = Memory.unlisted := by
  induction m with
  | nil => rfl
  | cons x m ih =>
    have hx := h x (by simp)
    rw [Memory.read_cons, if_neg (by omega)]
    exact ih fun y hy => h y (by simp [hy])

theorem Memory.wf_tail {x : Host.Cell} {m : Memory} (h : Memory.wf (x :: m)) : m.wf :=
  ⟨(List.pairwise_cons.mp h.1).2, fun y hy => h.2 y (by simp [hy])⟩

theorem Memory.wf_head_lt {x : Host.Cell} {m : Memory} (h : Memory.wf (x :: m)) : ∀ y ∈ m, x.1 < y.1 :=
  (List.pairwise_cons.mp h.1).1

theorem Memory.wf_cons {a : Nat} {b : Byte} {m : Memory} (h : m.wf) (hlt : ∀ y ∈ m, a < y.1) :
    (Memory.cons a b m).wf := by
  unfold Memory.cons
  split
  · exact h
  · rename_i hb
    exact ⟨List.pairwise_cons.mpr ⟨hlt, h.1⟩, by simpa [hb] using h.2⟩

theorem Memory.mem_cons {a : Nat} {b : Byte} {m : Memory} {x : Host.Cell} (h : x ∈ Memory.cons a b m) :
    x = (a, b) ∨ x ∈ m := by
  unfold Memory.cons at h
  split at h
  · exact .inr h
  · simpa using h

/-- A write lists no cell but the written one beside those listed before. -/
theorem Memory.mem_write {m : Memory} {a : Nat} {b : Byte} {x : Host.Cell} (h : x ∈ m.write a b) :
    x = (a, b) ∨ x ∈ m := by
  induction m with
  | nil => exact Memory.mem_cons h
  | cons y m ih =>
    obtain ⟨k, c⟩ := y
    simp only [Memory.write] at h
    split at h
    · exact Memory.mem_cons h
    · split at h
      · rcases Memory.mem_cons h with h | h
        · exact .inl h
        · exact .inr (by simp [h])
      · rcases List.mem_cons.mp h with h | h
        · exact .inr (by simp [h])
        · rcases ih h with h | h
          · exact .inl h
          · exact .inr (by simp [h])

/-- A write keeps the canonical form. -/
theorem Memory.write_wf {m : Memory} (h : m.wf) (a : Nat) (b : Byte) : (m.write a b).wf := by
  induction m with
  | nil => exact Memory.wf_cons ⟨List.Pairwise.nil, by simp⟩ (by simp)
  | cons y m ih =>
    obtain ⟨k, c⟩ := y
    have hlt := Memory.wf_head_lt h
    have htl := Memory.wf_tail h
    simp only [Memory.write]
    split
    · rename_i hak
      refine Memory.wf_cons h fun z hz => ?_
      rcases List.mem_cons.mp hz with rfl | hz
      · exact hak
      · exact Nat.lt_trans hak (hlt z hz)
    · split
      · rename_i hak
        subst hak
        exact Memory.wf_cons htl hlt
      · rename_i h1 h2
        refine ⟨List.pairwise_cons.mpr ⟨fun z hz => ?_, (ih htl).1⟩, fun z hz => ?_⟩
        · rcases Memory.mem_write hz with rfl | hz
          · show k < a
            omega
          · exact hlt z hz
        · rcases List.mem_cons.mp hz with rfl | hz
          · exact h.2 _ (by simp)
          · exact (ih htl).2 z hz

/-- Read after write, the same cell. -/
theorem Memory.read_write_same {m : Memory} (h : m.wf) (a : Nat) (b : Byte) : (m.write a b).read a = b := by
  induction m with
  | nil => by_cases hb : b = Memory.unlisted <;> simp [Memory.write, Memory.cons, hb, Memory.read]
  | cons y m ih =>
    obtain ⟨k, c⟩ := y
    have hlt := Memory.wf_head_lt h
    simp only [Memory.write]
    split
    · rename_i hak
      by_cases hb : b = Memory.unlisted
      · simp only [Memory.cons, hb, if_true]
        refine Memory.read_of_lt _ _ fun z hz => ?_
        rcases List.mem_cons.mp hz with rfl | hz
        · exact hak
        · exact Nat.lt_trans hak (hlt z hz)
      · simp [Memory.cons, hb, Memory.read]
    · split
      · rename_i hak
        subst hak
        by_cases hb : b = Memory.unlisted
        · simp only [Memory.cons, hb, if_true]
          exact Memory.read_of_lt _ _ hlt
        · simp [Memory.cons, hb, Memory.read]
      · rename_i h1 h2
        rw [Memory.read_cons, if_neg (by omega)]
        exact ih (Memory.wf_tail h)

/-- A write leaves every other cell. -/
theorem Memory.read_write_ne (m : Memory) (a a' : Nat) (b : Byte) (h : a' ≠ a) :
    (m.write a b).read a' = m.read a' := by
  induction m with
  | nil =>
    simp only [Memory.write, Memory.cons]
    split
    · rfl
    · rw [Memory.read_cons, if_neg (Ne.symm h)]
  | cons y m ih =>
    obtain ⟨k, c⟩ := y
    simp only [Memory.write]
    split
    · simp only [Memory.cons]
      split
      · rfl
      · rw [Memory.read_cons, if_neg (Ne.symm h)]
    · split
      · rename_i hak
        subst hak
        simp only [Memory.cons]
        split
        · rw [Memory.read_cons, if_neg (Ne.symm h)]
        · rw [Memory.read_cons, Memory.read_cons, if_neg (Ne.symm h), if_neg (Ne.symm h)]
      · rw [Memory.read_cons, Memory.read_cons, ih]

/-- The bytes of a word make the word. -/
theorem wordOfBytes_wordByte (v : Word) :
    wordOfBytes (wordByte v 0) (wordByte v 1) (wordByte v 2) (wordByte v 3) = v := by
  unfold wordOfBytes wordByte
  ext i hi
  simp only [BitVec.getElem_append, BitVec.getElem_extractLsb']
  split
  · simp [BitVec.getLsbD_eq_getElem hi]
  · split
    · rw [show 8 * 1 + (i - 8) = i by omega, BitVec.getLsbD_eq_getElem hi]
    · split
      · rw [show 8 * 2 + (i - 8 - 8) = i by omega, BitVec.getLsbD_eq_getElem hi]
      · rw [show 8 * 3 + (i - 8 - 8 - 8) = i by omega, BitVec.getLsbD_eq_getElem hi]

/-- A word write leaves every byte outside the word's four. -/
theorem Memory.read_writeWord_outside (m : Memory) (k a : Nat) (v : Word) (h : a < 4 * k ∨ 4 * k + 4 ≤ a) :
    (m.writeWord k v).read a = m.read a := by
  unfold Memory.writeWord
  rw [Memory.read_write_ne _ _ _ _ (by omega), Memory.read_write_ne _ _ _ _ (by omega),
    Memory.read_write_ne _ _ _ _ (by omega), Memory.read_write_ne _ _ _ _ (by omega)]

/-- A word write leaves every other word. -/
theorem Memory.readWord_writeWord_ne (m : Memory) (k j : Nat) (v : Word) (h : j ≠ k) :
    (m.writeWord k v).readWord j = m.readWord j := by
  unfold Memory.readWord
  rw [Memory.read_writeWord_outside _ _ _ _ (by omega), Memory.read_writeWord_outside _ _ _ _ (by omega),
    Memory.read_writeWord_outside _ _ _ _ (by omega), Memory.read_writeWord_outside _ _ _ _ (by omega)]

/-- A word write keeps the canonical form. -/
theorem Memory.writeWord_wf {m : Memory} (h : m.wf) (k : Nat) (v : Word) : (m.writeWord k v).wf :=
  Memory.write_wf (Memory.write_wf (Memory.write_wf (Memory.write_wf h _ _) _ _) _ _) _ _

/-- Read after write, the same word. -/
theorem Memory.readWord_writeWord_same {m : Memory} (h : m.wf) (k : Nat) (v : Word) :
    (m.writeWord k v).readWord k = v := by
  have h0 := Memory.write_wf h (4 * k) (wordByte v 0)
  have h1 := Memory.write_wf h0 (4 * k + 1) (wordByte v 1)
  have h2 := Memory.write_wf h1 (4 * k + 2) (wordByte v 2)
  have e : (m.writeWord k v).readWord k =
      wordOfBytes (wordByte v 0) (wordByte v 1) (wordByte v 2) (wordByte v 3) := by
    unfold Memory.writeWord Memory.readWord
    rw [Memory.read_write_same h2, Memory.read_write_ne _ _ (4 * k) _ (by omega),
      Memory.read_write_ne _ _ (4 * k) _ (by omega), Memory.read_write_ne _ _ (4 * k) _ (by omega),
      Memory.read_write_same h, Memory.read_write_ne _ _ (4 * k + 1) _ (by omega),
      Memory.read_write_ne _ _ (4 * k + 1) _ (by omega), Memory.read_write_same h0,
      Memory.read_write_ne _ _ (4 * k + 2) _ (by omega), Memory.read_write_same h1]
  rw [e, wordOfBytes_wordByte]

/-- The word read at `j` after a word write at `k`. -/
theorem Memory.readWord_writeWord {m : Memory} (h : m.wf) (k j : Nat) (v : Word) :
    (m.writeWord k v).readWord j = if j = k then v else m.readWord j := by
  split
  · subst j
    exact Memory.readWord_writeWord_same h k v
  · rename_i hj
    exact Memory.readWord_writeWord_ne m k j v hj

/-- A word write inside RAM lists no cell outside it. -/
theorem Memory.writeWord_range {m : Memory} {n : Nat} (h : ∀ x ∈ m, x.1 < 4 * n) (k : Nat) (v : Word)
    (hk : k < n) : ∀ x ∈ m.writeWord k v, x.1 < 4 * n := by
  intro x hx
  have aux : x.1 < 4 * n := by
    rcases Memory.mem_write hx with rfl | hx
    · show 4 * k + 3 < 4 * n
      omega
    rcases Memory.mem_write hx with rfl | hx
    · show 4 * k + 2 < 4 * n
      omega
    rcases Memory.mem_write hx with rfl | hx
    · show 4 * k + 1 < 4 * n
      omega
    rcases Memory.mem_write hx with rfl | hx
    · show 4 * k < 4 * n
      omega
    exact h x hx
  exact aux

end Sys2Proof.Machine
end

