-- ==== Sys2Proof/Laws/Mmu.lean ====
section
/-! SUPPORT. What each operation of the MMU can do, said once: word accesses, translation, the frame pool, page-table
writes and the page-fault handler. -/

namespace Sys2Proof.Machine

variable {s : State}

theorem memRead_of_lt {pa : Nat} (h : pa < s.cfg.ramWords) : memRead pa s = .ok (s.mem.readWord pa) s := if_pos h

theorem memWrite_of_lt {pa : Nat} {v : Word} (h : pa < s.cfg.ramWords) :
    memWrite pa v s = .ok () (s.setMem (s.mem.writeWord pa v)) := if_pos h

/-- `f` is the entry of the live page table for a page of that table. -/
def State.entryIs (s : State) (page : Nat) (f : Word) : Prop :=
  page < s.cfg.ptEntries ∧ s.liveEntry page = some f

theorem translate_out_of_range {va : Nat} (h : s.cfg.ptEntries ≤ s.pageOf va) :
    translate va s = haltEvent .vaRange s := if_pos h

/-- Translation through an entry of the live table. -/
theorem translate_of_entry {va : Nat} {f : Word} (h : s.entryIs (s.pageOf va) f) :
    translate va s =
      if f = unmapped then .ok (.miss (s.pageOf va)) s else .ok (.hit (f.toNat + s.offsetOf va)) s := by
  obtain ⟨hlt, hf⟩ := h
  unfold translate
  rw [if_neg (by omega)]
  simp only [hf]

/-- Everything a translation can answer. -/
theorem translate_cases (va : Nat) (s : State) :
    (s.cfg.ptEntries ≤ s.pageOf va ∧ translate va s = haltEvent .vaRange s) ∨
      (∃ f, s.entryIs (s.pageOf va) f ∧ f = unmapped ∧ translate va s = .ok (.miss (s.pageOf va)) s) ∨
      (∃ f, s.entryIs (s.pageOf va) f ∧ f ≠ unmapped ∧ translate va s = .ok (.hit (f.toNat + s.offsetOf va)) s) ∨
      (s.liveEntry (s.pageOf va) = none ∧ translate va s = .broken (.noLiveEntry (s.pageOf va))) := by
  by_cases h : s.cfg.ptEntries ≤ s.pageOf va
  · exact .inl ⟨h, translate_out_of_range h⟩
  · cases hf : s.liveEntry (s.pageOf va) with
    | none => exact .inr (.inr (.inr ⟨rfl, by simp [translate, h, hf]⟩))
    | some f =>
      have he : s.entryIs (s.pageOf va) f := ⟨by omega, hf⟩
      by_cases hu : f = unmapped
      · exact .inr (.inl ⟨f, he, hu, by rw [translate_of_entry he, if_pos hu]⟩)
      · exact .inr (.inr (.inl ⟨f, he, hu, by rw [translate_of_entry he, if_neg hu]⟩))

@[simp] theorem acquireFrame_nil (h : s.pool = []) : acquireFrame s = (noFrame, s) := by
  simp [acquireFrame, h]

@[simp] theorem acquireFrame_cons {f : Word} {rest : List Word} (h : s.pool = f :: rest) :
    acquireFrame s = (f, s.setPool rest) := by
  simp [acquireFrame, h]

/-- Everything ReleaseFrame can do. -/
theorem releaseFrame_cases (f : Word) (s : State) :
    ((f.toNat % s.cfg.pageSize ≠ 0 ∨ s.cfg.ramWords ≤ f.toNat ∨ f ∈ s.pool) ∧
        releaseFrame f s = haltEvent .badRelease s) ∨
      (s.cfg.isFrame f ∧ f ∉ s.pool ∧ releaseFrame f s = .ok () (s.setPool (f :: s.pool))) := by
  by_cases h : f.toNat % s.cfg.pageSize ≠ 0 ∨ s.cfg.ramWords ≤ f.toNat ∨ f ∈ s.pool
  · exact .inl ⟨h, if_pos h⟩
  · refine .inr ⟨⟨by omega, by omega⟩, fun hm => h (.inr (.inr hm)), if_neg h⟩

/-- The records after a write of one entry of the table of process `pid`. -/
def setLiveEntry (procs : List Process) (pid : Option Word) (page : Nat) (f : Word) : List Process :=
  procs.map fun p => if pid = some p.pid then p.setEntry page f else p

theorem writeLiveEntry_of_some {page : Nat} {f g : Word} (h : s.liveEntry page = some g) :
    writeLiveEntry page f s = .ok () (s.setProcs (setLiveEntry s.procs s.livePt page f)) := by
  simp [writeLiveEntry, h, setLiveEntry]

theorem writeLiveEntry_of_none {page : Nat} {f : Word} (h : s.liveEntry page = none) :
    writeLiveEntry page f s = .broken (.noLiveEntry page) := by
  simp [writeLiveEntry, h]

/-- Everything the page-fault handler can do. -/
theorem pfHandler_cases (arg : Word) (s : State) :
    (s.cfg.ptEntries ≤ arg.toNat ∧ pfHandler arg s = haltEvent .ptRange s) ∨
      (arg.toNat < s.cfg.ptEntries ∧ s.pool = [] ∧ pfHandler arg s = haltEvent .noFrame s) ∨
      (∃ rest, arg.toNat < s.cfg.ptEntries ∧ s.pool = noFrame :: rest ∧
        pfHandler arg s = haltEvent .noFrame (s.setPool rest)) ∨
      ∃ f rest, arg.toNat < s.cfg.ptEntries ∧ s.pool = f :: rest ∧ f ≠ noFrame ∧
        pfHandler arg s = writeLiveEntry arg.toNat f (s.setPool rest) := by
  by_cases h : s.cfg.ptEntries ≤ arg.toNat
  · exact .inl ⟨h, if_pos h⟩
  · have h' : arg.toNat < s.cfg.ptEntries := by omega
    cases hp : s.pool with
    | nil => exact .inr (.inl ⟨h', rfl, by simp [pfHandler, h, acquireFrame_nil hp]⟩)
    | cons f rest =>
      by_cases hf : f = noFrame
      · subst hf
        exact .inr (.inr (.inl ⟨rest, h', rfl, by simp [pfHandler, h, acquireFrame_cons hp]⟩))
      · exact .inr (.inr (.inr ⟨f, rest, h', rfl, hf, by simp [pfHandler, h, acquireFrame_cons hp, hf]⟩))

end Sys2Proof.Machine
end

