-- ==== Sys2Proof/Laws/Heap.lean ====
section
/-! SUPPORT. What the allocator can do to the state, said once: whatever its primitive writes keep, every allocator operation
keeps (`HeapKeeps`), and in a state ready for the heap no operation breaks a precondition. -/

namespace Sys2Proof.Machine

variable {s : State}

/-- The live page table after one write to it. -/
theorem livePageTable_setLiveEntry {pt : List Word} {page : Nat} {f : Word} (hpt : s.livePageTable = some pt)
    (rest : List Word) :
    ((s.setPool rest).setProcs (setLiveEntry s.procs s.livePt page f)).livePageTable = some (pt.set page f) := by
  simp only [State.livePageTable, State.setProcs_livePt, State.setPool_livePt, State.setProcs_procs] at hpt ⊢
  cases hl : s.livePt with
  | none => simp [hl] at hpt
  | some pid =>
    simp only [hl] at hpt ⊢
    generalize s.procs = ps at hpt
    induction ps with
    | nil => simp at hpt
    | cons p ps ih =>
      by_cases hp : p.pid = pid
      · simp only [List.find?_cons, hp, beq_self_eq_true, Option.map_some, Option.some.injEq] at hpt
        simp [setLiveEntry, hp, hpt]
      · have hne : (p.pid == pid) = false := by simpa using hp
        have hne' : ¬ some pid = some p.pid := by simpa using Ne.symm hp
        simp only [List.find?_cons, hne] at hpt
        simp only [setLiveEntry, List.map_cons, if_neg hne', List.find?_cons, hne]
        exact ih hpt

/-- The written entry reads as it was written. -/
theorem liveEntry_setLiveEntry {page : Nat} {f g : Word} (h : s.liveEntry page = some g) (rest : List Word) :
    ((s.setPool rest).setProcs (setLiveEntry s.procs s.livePt page f)).liveEntry page = some f := by
  unfold State.liveEntry at h ⊢
  cases hpt : s.livePageTable with
  | none => simp [hpt] at h
  | some pt =>
    simp only [hpt] at h
    rw [livePageTable_setLiveEntry hpt rest]
    exact List.getElem?_set_self (List.getElem?_eq_some_iff.mp h).1

/-- A state in which no allocator access breaks a precondition. -/
structure State.HeapReady (s : State) : Prop where
  cfg_wf : s.cfg.wf
  entry : s.livePt ≠ none → ∀ page < s.cfg.ptEntries, ∃ f, s.liveEntry page = some f ∧
    (f = unmapped ∨ s.cfg.isFrame f)
  pool_frames : ∀ f ∈ s.pool, s.cfg.isFrame f

/-- A frame base and an offset stay inside RAM (R61). -/
theorem Config.frame_offset_lt {c : Config} (hc : c.wf) {f : Word} (hf : c.isFrame f) {off : Nat}
    (ho : off < c.pageSize) : f.toNat + off < c.ramWords := by
  obtain ⟨h1, -, h3, -⟩ := hc
  obtain ⟨k, hk⟩ := Nat.dvd_of_mod_eq_zero hf.1
  obtain ⟨n, hn⟩ := Nat.dvd_of_mod_eq_zero h3
  have hlt := hf.2
  rw [hk, hn] at hlt
  have hkn : k < n := Nat.lt_of_mul_lt_mul_left hlt
  have : c.pageSize * (k + 1) ≤ c.pageSize * n := Nat.mul_le_mul_left _ hkn
  rw [Nat.mul_add, Nat.mul_one] at this
  rw [hk, hn]
  omega

/-- A page below `PT_ENTRIES` from an address below RAM's end. -/
theorem State.offsetOf_lt (h : s.cfg.wf) (va : Nat) : s.offsetOf va < s.cfg.pageSize := Nat.mod_lt _ h.1

/-- What the primitive writes of the allocator keep: `I` along the way, `E` where the event halts. `B` is whether a broken
precondition is allowed; where it is not, `I` must make the state ready. -/
structure HeapKeeps (I E : State → Prop) (B : Prop) : Prop where
  halt : ∀ s r, I s → E (s.halt r)
  mem : ∀ s pa v, I s → pa < s.cfg.ramWords → I (s.setMem (s.mem.writeWord pa v))
  rover : ∀ s w, I s → I (s.setRover w)
  serve : ∀ s page f rest g, I s → page < s.cfg.ptEntries → s.pool = f :: rest → f ≠ noFrame →
    s.liveEntry page = some g → I ((s.setPool rest).setProcs (setLiveEntry s.procs s.livePt page f))
  pop : ∀ s rest, I s → s.pool = noFrame :: rest → E ((s.setPool rest).halt .noFrame)
  ready : ¬ B → ∀ s, I s → s.HeapReady

variable {I E : State → Prop} {B : Prop}

/-- The page-fault handler's body. -/
theorem HeapKeeps.pfHandler (k : HeapKeeps I E B) {arg : Word} (h : I s)
    (hlive : ¬ B → s.livePt ≠ none) :
    (pfHandler arg s).All (fun _ t => I t ∧
      ∃ f rest g, s.pool = f :: rest ∧ f ≠ noFrame ∧ s.liveEntry arg.toNat = some g ∧ arg.toNat < s.cfg.ptEntries ∧
        t = (s.setPool rest).setProcs (setLiveEntry s.procs s.livePt arg.toNat f)) E B := by
  rcases pfHandler_cases arg s with ⟨-, e⟩ | ⟨-, -, e⟩ | ⟨rest, -, hp, e⟩ | ⟨f, rest, hlt, hp, hf, e⟩
  · rw [e]; exact k.halt _ _ h
  · rw [e]; exact k.halt _ _ h
  · rw [e]; exact k.pop _ _ h hp
  · rw [e]
    cases hg : (s.setPool rest).liveEntry arg.toNat with
    | some g =>
      rw [writeLiveEntry_of_some hg]
      exact ⟨k.serve s _ f rest g h hlt hp hf hg, f, rest, g, hp, hf, hg, hlt, rfl⟩
    | none =>
      rw [writeLiveEntry_of_none hg, Ev.all_broken]
      by_contra hB
      obtain ⟨g, hg', -⟩ := (k.ready hB s h).entry (hlive hB) _ hlt
      have hg'' : (s.setPool rest).liveEntry arg.toNat = some g := hg'
      rw [hg''] at hg
      cases hg

/-- `Phys`. -/
theorem HeapKeeps.phys (k : HeapKeeps I E B) {x : Nat} (h : I s) (hx : x < s.cfg.heapEnd) :
    (phys x s).All (fun pa t => I t ∧ (¬ B → pa < t.cfg.ramWords)) E B := by
  have inRam : ¬ B → x < s.cfg.ramWords := fun hB => by
    have := (k.ready hB s h).cfg_wf.2.2.2.2.2.1
    omega
  unfold Machine.phys
  split
  · rename_i hx'
    rcases translate_cases x s with ⟨-, e⟩ | ⟨f, he, hu, e⟩ | ⟨f, he, hu, e⟩ | ⟨hnone, e⟩
    · rw [e]; exact k.halt _ _ h
    · rw [e, Ev.bind_ok]
      refine (k.pfHandler h fun _ => hx'.2).bind ?_
      rintro - t ⟨ht, f', rest, g, hp, hf', hg, hlt, rfl⟩
      by_cases hB : B
      · unfold physAfterService
        rcases translate_cases x ((s.setPool rest).setProcs
            (setLiveEntry s.procs s.livePt (BitVec.ofNat 32 (s.pageOf x)).toNat f')) with
          ⟨-, e'⟩ | ⟨g, -, -, e'⟩ | ⟨g, -, -, e'⟩ | ⟨-, e'⟩
        · rw [e']; exact k.halt _ _ ht
        · rw [e']; exact hB
        · rw [e']; exact ⟨ht, fun hn => absurd hB hn⟩
        · rw [e']; exact hB
      · have hr := k.ready hB s h
        have hpage : s.pageOf x < 2 ^ 32 := by
          have h1 := inRam hB
          have h2 := hr.cfg_wf.2.2.2.1
          have h3 : s.pageOf x ≤ x := Nat.div_le_self _ _
          omega
        have hn : (BitVec.ofNat 32 (s.pageOf x)).toNat = s.pageOf x := by
          simpa using Nat.mod_eq_of_lt hpage
        rw [hn] at hg hlt ht ⊢
        have hent : ((s.setPool rest).setProcs (setLiveEntry s.procs s.livePt (s.pageOf x) f')).entryIs
            (State.pageOf ((s.setPool rest).setProcs (setLiveEntry s.procs s.livePt (s.pageOf x) f')) x) f' :=
          ⟨hlt, liveEntry_setLiveEntry hg rest⟩
        unfold physAfterService
        rw [translate_of_entry hent, if_neg hf']
        refine ⟨ht, fun _ => ?_⟩
        exact Config.frame_offset_lt hr.cfg_wf (hr.pool_frames f' (by simp [hp])) (State.offsetOf_lt hr.cfg_wf x)
    · rw [e, Ev.bind_ok]
      refine ⟨h, fun hB => ?_⟩
      have hr := k.ready hB s h
      obtain ⟨g, hg, hc⟩ := hr.entry hx'.2 _ he.1
      rw [he.2] at hg
      cases hg
      exact Config.frame_offset_lt hr.cfg_wf (hc.resolve_left hu) (State.offsetOf_lt hr.cfg_wf x)
    · rw [e, Ev.bind_broken, Ev.all_broken]
      by_contra hB
      by_cases hlt : s.pageOf x < s.cfg.ptEntries
      · obtain ⟨g, hg, -⟩ := (k.ready hB s h).entry hx'.2 _ hlt
        rw [hnone] at hg
        cases hg
      · rw [translate_out_of_range (by omega)] at e
        cases e
  · exact ⟨h, inRam⟩

theorem HeapKeeps.heapCheck (k : HeapKeeps I E B) {x : Nat} (h : I s) :
    (heapCheck x s).All (fun _ t => t = s ∧ x < s.cfg.heapEnd) E B := by
  unfold Machine.heapCheck
  split
  · exact k.halt _ _ h
  · exact ⟨rfl, by omega⟩

theorem HeapKeeps.aRead (k : HeapKeeps I E B) {x : Nat} (h : I s) : (aRead x s).All (fun _ t => I t) E B := by
  refine (k.heapCheck h).bind ?_
  rintro - t ⟨rfl, hx⟩
  refine (k.phys h hx).bind ?_
  rintro pa t ⟨ht, hpa⟩
  unfold memRead
  split
  · exact ht
  · rename_i hn
    by_contra hB
    exact hn (hpa hB)

theorem HeapKeeps.aWrite (k : HeapKeeps I E B) {x v : Nat} (h : I s) : (aWrite x v s).All (fun _ t => I t) E B := by
  refine (k.heapCheck h).bind ?_
  rintro - t ⟨rfl, hx⟩
  refine (k.phys h hx).bind ?_
  rintro pa t ⟨ht, hpa⟩
  unfold memWrite
  split
  · rename_i hlt
    exact k.mem _ _ _ ht hlt
  · rename_i hn
    by_contra hB
    exact hn (hpa hB)

theorem HeapKeeps.checkBlock (k : HeapKeeps I E B) {p : Nat} (h : I s) :
    (checkBlock p s).All (fun _ t => I t) E B := by
  refine (k.heapCheck h).bind ?_
  rintro - t ⟨rfl, -⟩
  refine (k.heapCheck h).bind ?_
  rintro - t ⟨rfl, -⟩
  refine (k.aRead h).bind ?_
  intro size t ht
  split
  · exact k.halt _ _ ht
  · exact ht

theorem HeapKeeps.allocTake (k : HeapKeeps I E B) {n prev p size : Nat} (h : I s) :
    (allocTake n prev p size s).All (fun _ t => I t) E B := by
  unfold Machine.allocTake
  split
  · refine (k.aWrite h).bind fun _ t ht => ?_
    split
    · exact (k.aWrite ht).bind fun _ t ht => k.rover _ _ ht
    · exact (k.aRead ht).bind fun _ t ht => (k.aWrite ht).bind fun _ t ht =>
        (k.aWrite ht).bind fun _ t ht => k.rover _ _ ht
  · split
    · exact k.rover _ _ h
    · exact (k.aRead h).bind fun _ t ht => (k.aWrite ht).bind fun _ t ht => k.rover _ _ ht

theorem HeapKeeps.allocScan (k : HeapKeeps I E B) {n fuel prev p : Nat} (h : I s) :
    (allocScan n fuel prev p s).All (fun _ t => I t) E B := by
  induction fuel generalizing prev p s with
  | zero =>
    unfold Machine.allocScan
    refine (k.checkBlock h).bind fun _ t ht => (k.aRead ht).bind fun size t ht => ?_
    dsimp only
    split
    · exact k.allocTake ht
    · split
      · exact ht
      · exact k.halt _ _ ht
  | succ fuel ih =>
    unfold Machine.allocScan
    refine (k.checkBlock h).bind fun _ t ht => (k.aRead ht).bind fun size t ht => ?_
    dsimp only
    split
    · exact k.allocTake ht
    · split
      · exact ht
      · exact (k.aRead ht).bind fun next t ht => ih ht

/-- AllocateMemory. -/
theorem HeapKeeps.allocateMemory (k : HeapKeeps I E B) {units : Word} (h : I s) :
    (allocateMemory units s).All (fun _ t => I t) E B := by
  unfold Machine.allocateMemory
  split
  · exact h
  · split
    · exact h
    · exact (k.aRead h).bind fun p t ht => k.allocScan ht

theorem HeapKeeps.freeScan (k : HeapKeeps I E B) {bp fuel p : Nat} (h : I s) :
    (freeScan bp fuel p s).All (fun _ t => I t) E B := by
  induction fuel generalizing p s with
  | zero =>
    unfold Machine.freeScan
    refine (k.checkBlock h).bind fun _ t ht => (k.aRead ht).bind fun q t ht => ?_
    dsimp only
    split
    · exact ht
    · exact k.halt _ _ ht
  | succ fuel ih =>
    unfold Machine.freeScan
    refine (k.checkBlock h).bind fun _ t ht => (k.aRead ht).bind fun q t ht => ?_
    dsimp only
    split
    · exact ht
    · exact ih ht

theorem HeapKeeps.freeLinkLower (k : HeapKeeps I E B) {bp p sizeP : Nat} (h : I s) :
    (freeLinkLower bp p sizeP s).All (fun _ t => I t) E B := by
  unfold Machine.freeLinkLower
  split
  · exact (k.aRead h).bind fun _ t ht => (k.aWrite ht).bind fun _ t ht => (k.aRead ht).bind fun _ t ht =>
      (k.aWrite ht).bind fun _ t ht => k.rover _ _ ht
  · exact (k.aWrite h).bind fun _ t ht => k.rover _ _ ht

theorem HeapKeeps.freeBetween (k : HeapKeeps I E B) {bp n p q : Nat} (h : I s) :
    (freeBetween bp n p q s).All (fun _ t => I t) E B := by
  refine (k.aRead h).bind fun sizeP t ht => ?_
  split
  · exact k.halt _ _ ht
  · split
    · exact k.halt _ _ ht
    · split
      · refine (k.aRead ht).bind fun sizeQ t ht => ?_
        split
        · exact (k.aWrite ht).bind fun _ t ht => (k.aWrite ht).bind fun _ t ht => k.rover _ _ ht
        · exact (k.aWrite ht).bind fun _ t ht => (k.aRead ht).bind fun _ t ht =>
            (k.aWrite ht).bind fun _ t ht => k.freeLinkLower ht
      · exact (k.aWrite ht).bind fun _ t ht => (k.aWrite ht).bind fun _ t ht => k.freeLinkLower ht

/-- FreeExtent. -/
theorem HeapKeeps.freeExtent (k : HeapKeeps I E B) {bp n : Nat} (h : I s) :
    (freeExtent bp n s).All (fun _ t => I t) E B := by
  unfold Machine.freeExtent
  split
  · exact k.halt _ _ h
  · split
    · exact (k.aWrite h).bind fun _ t ht => (k.aWrite ht).bind fun _ t ht => k.rover _ _ ht
    · exact (k.freeScan h).bind fun _ t ht => k.freeBetween ht

end Sys2Proof.Machine
end

