-- ==== Sys2Proof/Laws/Scheduler.lean ====
section
/-! SUPPORT. What the context-switch primitives do, as equations, and what TOP and SHORTEST select. -/

namespace Sys2Proof.Machine

variable {s : State} {i : Nat} {p : Process}

/-- The state that DISPATCH of record `p` at index `i` leads to (R171). -/
def State.dispatched (s : State) (i : Nat) (p : Process) : State :=
  ((((s.setRegs p.regs).setLivePt (some p.pid)).setProcs (s.procs.set i (p.setState .running))).setCur i).setTicks 0

@[simp] theorem State.dispatched_cfg (s : State) (i : Nat) (p : Process) : (s.dispatched i p).cfg = s.cfg := rfl
@[simp] theorem State.dispatched_regs (s : State) (i : Nat) (p : Process) : (s.dispatched i p).regs = p.regs := rfl
@[simp] theorem State.dispatched_mem (s : State) (i : Nat) (p : Process) : (s.dispatched i p).mem = s.mem := rfl
@[simp] theorem State.dispatched_pool (s : State) (i : Nat) (p : Process) : (s.dispatched i p).pool = s.pool := rfl
@[simp] theorem State.dispatched_procs (s : State) (i : Nat) (p : Process) :
    (s.dispatched i p).procs = s.procs.set i (p.setState .running) := rfl
@[simp] theorem State.dispatched_livePt (s : State) (i : Nat) (p : Process) :
    (s.dispatched i p).livePt = some p.pid := rfl
@[simp] theorem State.dispatched_cur (s : State) (i : Nat) (p : Process) : (s.dispatched i p).cur = i := rfl
@[simp] theorem State.dispatched_ticks (s : State) (i : Nat) (p : Process) : (s.dispatched i p).ticks = 0 := rfl
@[simp] theorem State.dispatched_vec (s : State) (i : Nat) (p : Process) : (s.dispatched i p).vec = s.vec := rfl
@[simp] theorem State.dispatched_phase (s : State) (i : Nat) (p : Process) : (s.dispatched i p).phase = s.phase := rfl
@[simp] theorem State.dispatched_haltReason (s : State) (i : Nat) (p : Process) :
    (s.dispatched i p).haltReason = s.haltReason := rfl
@[simp] theorem State.dispatched_nextPid (s : State) (i : Nat) (p : Process) :
    (s.dispatched i p).nextPid = s.nextPid := rfl
@[simp] theorem State.dispatched_trace (s : State) (i : Nat) (p : Process) : (s.dispatched i p).trace = s.trace := rfl
@[simp] theorem State.dispatched_pending (s : State) (i : Nat) (p : Process) :
    (s.dispatched i p).pending = s.pending := rfl

theorem procAt_of_some (h : s.procs[i]? = some p) : procAt i s = .ok p s := by simp [procAt, h]

theorem procAt_of_none (h : s.procs[i]? = none) : procAt i s = .broken (.noSuchProcess i) := by simp [procAt, h]

theorem modifyProc_of_some (f : Process → Process) (h : s.procs[i]? = some p) :
    modifyProc i f s = .ok () (s.setProcs (s.procs.set i (f p))) := by simp [modifyProc, procAt_of_some h]

theorem modifyProc_of_none (f : Process → Process) (h : s.procs[i]? = none) :
    modifyProc i f s = .broken (.noSuchProcess i) := by simp [modifyProc, procAt_of_none h]

theorem dispatch_of_some (h : s.procs[i]? = some p) : dispatch i s = .ok () (s.dispatched i p) := by
  have h' : ((s.setRegs p.regs).setLivePt (some p.pid)).procs[i]? = some p := h
  simp [dispatch, procAt_of_some h, modifyProc_of_some _ h', State.dispatched]

theorem dispatch_of_none (h : s.procs[i]? = none) : dispatch i s = .broken (.noSuchProcess i) := by
  simp [dispatch, procAt_of_none h]

theorem save_of_some (h : s.procs[i]? = some p) :
    save i s = .ok () (s.setProcs (s.procs.set i (p.setRegs s.regs))) := modifyProc_of_some _ h

theorem retire_of_some (h : s.procs[i]? = some p) : retire i s = .ok () (s.setProcs (s.procs.eraseIdx i)) := by
  simp [retire, procAt_of_some h]

theorem retire_of_none (h : s.procs[i]? = none) : retire i s = .broken (.noSuchProcess i) := by
  simp [retire, procAt_of_none h]

/-- The two ends of a retirement (R176). -/
theorem dispatchNext_nil (select : State → Nat) (h : s.procs = []) : dispatchNext select s = haltEvent .noProcess s :=
  if_pos h

theorem dispatchNext_ne (select : State → Nat) (h : s.procs ≠ []) : dispatchNext select s = dispatch (select s) s :=
  if_neg h

/-- A strict order whose negation is transitive: what TOP and SHORTEST compare by. -/
structure StrictChoice (better : Process → Process → Bool) : Prop where
  irrefl : ∀ p, better p p = false
  negTrans : ∀ p q r, better p q = false → better q r = false → better p r = false
  asymm : ∀ p q, better p q = true → better q p = false

/-- The best index of a list's rest, given the best of what came before. -/
theorem bestIndex_spec {better : Process → Process → Bool} (h : StrictChoice better) (all : List Process) :
    ∀ (ps : List Process) (i : Nat) (best : Process) (bestIdx : Nat),
      all.drop i = ps → all[bestIdx]? = some best → (∀ j q, j < i → all[j]? = some q → better q best = false) →
      ∃ p, all[bestIndex better ps i best bestIdx]? = some p ∧ ∀ q ∈ all, better q p = false := by
  intro ps
  induction ps with
  | nil =>
    intro i best bestIdx hd hb hj
    refine ⟨best, hb, fun q hq => ?_⟩
    obtain ⟨j, hlt, hq'⟩ := List.mem_iff_getElem.mp hq
    have hlen : all.length ≤ i := by simpa using hd
    exact hj j q (by omega) (by rw [List.getElem?_eq_getElem hlt, hq'])
  | cons p ps ih =>
    intro i best bestIdx hd hb hj
    have hp : all[i]? = some p := by
      have := congrArg List.head? hd
      simpa [List.head?_drop] using this
    have hd' : all.drop (i + 1) = ps := by
      have := congrArg List.tail hd
      simpa [List.tail_drop] using this
    unfold bestIndex
    split
    · rename_i hbt
      refine ih (i + 1) p i hd' hp fun j q hji hq => ?_
      by_cases hj' : j = i
      · subst hj'
        rw [hp] at hq
        cases hq
        exact h.irrefl p
      · exact h.negTrans q best p (hj j q (by omega) hq) (h.asymm p best hbt)
    · rename_i hbt
      refine ih (i + 1) best bestIdx hd' hb fun j q hji hq => ?_
      by_cases hj' : j = i
      · subst hj'
        rw [hp] at hq
        cases hq
        simpa using hbt
      · exact hj j q (by omega) hq

/-- The selected record of a nonempty list: none in the list is better. -/
theorem chooseIndex_spec {better : Process → Process → Bool} (h : StrictChoice better) {ps : List Process}
    (hne : ps ≠ []) : ∃ p, ps[chooseIndex better ps]? = some p ∧ ∀ q ∈ ps, better q p = false := by
  cases ps with
  | nil => exact absurd rfl hne
  | cons p ps =>
    refine bestIndex_spec h (p :: ps) ps 1 p 0 rfl rfl fun j q hj hq => ?_
    have : j = 0 := by omega
    subst this
    cases hq
    exact h.irrefl _

theorem higherPrio_strict : StrictChoice higherPrio := by
  have key : ∀ p q : Process, higherPrio p q = true ↔
      (q.prio.toInt < p.prio.toInt ∨ (p.prio.toInt = q.prio.toInt ∧ p.pid.toNat < q.pid.toNat)) := fun p q => by
    simp [higherPrio, BitVec.toInt_inj]
  have keyf : ∀ p q : Process, higherPrio p q = false ↔
      ¬ (q.prio.toInt < p.prio.toInt ∨ (p.prio.toInt = q.prio.toInt ∧ p.pid.toNat < q.pid.toNat)) := fun p q => by
    rw [← key, Bool.not_eq_true]
  refine ⟨fun p => ?_, fun p q r h1 h2 => ?_, fun p q h => ?_⟩
  · rw [keyf]; omega
  · rw [keyf] at *; omega
  · rw [key] at h; rw [keyf]; omega

theorem shorterBurst_strict : StrictChoice shorterBurst := by
  have key : ∀ p q : Process, shorterBurst p q = true ↔
      (p.burst.toNat < q.burst.toNat ∨ (p.burst.toNat = q.burst.toNat ∧ p.pid.toNat < q.pid.toNat)) := fun p q => by
    simp [shorterBurst, BitVec.toNat_inj]
  have keyf : ∀ p q : Process, shorterBurst p q = false ↔
      ¬ (p.burst.toNat < q.burst.toNat ∨ (p.burst.toNat = q.burst.toNat ∧ p.pid.toNat < q.pid.toNat)) := fun p q => by
    rw [← key, Bool.not_eq_true]
  refine ⟨fun p => ?_, fun p q r h1 h2 => ?_, fun p q h => ?_⟩
  · rw [keyf]; omega
  · rw [keyf] at *; omega
  · rw [key] at h; rw [keyf]; omega

/-- TOP selects a record of PROCS (R174). -/
theorem top_spec (h : s.procs ≠ []) : ∃ p, s.procs[top s]? = some p ∧ ∀ q ∈ s.procs, higherPrio q p = false :=
  chooseIndex_spec higherPrio_strict h

/-- SHORTEST selects a record of PROCS (R175). -/
theorem shortest_spec (h : s.procs ≠ []) :
    ∃ p, s.procs[shortest s]? = some p ∧ ∀ q ∈ s.procs, shorterBurst q p = false :=
  chooseIndex_spec shorterBurst_strict h

end Sys2Proof.Machine
end

