-- ==== Sys2Proof/Laws/Exec.lean ====
section
/-! SUPPORT. What an instruction or a handler can do to the state, said once: whatever the primitive changes keep
(`HandlerKeeps`, `ExecKeeps`), every handler, every vector and every instruction keeps. -/

namespace Sys2Proof.Machine

variable {s t : State} {I : State → Prop}

/-- A predicate on states that every primitive change of a handler, a move, a load or a store keeps. -/
structure HandlerKeeps (I : State → Prop) : Prop extends HeapKeeps I I True where
  ticks : ∀ s w, I s → I (s.setTicks w)
  procRegs : ∀ s i p, I s → s.procs[i]? = some p → I (s.setProcs (s.procs.set i (p.setRegs s.regs)))
  procState : ∀ s i p st, I s → s.procs[i]? = some p → I (s.setProcs (s.procs.set i (p.setState st)))
  procPrio : ∀ s i p w, I s → s.procs[i]? = some p → I (s.setProcs (s.procs.set i (p.setPrio w)))
  retire : ∀ s i p, I s → s.procs[i]? = some p → I (s.setProcs (s.procs.eraseIdx i))
  dispatch : ∀ s i p, I s → s.procs[i]? = some p → I (s.dispatched i p)
  reg : ∀ s x v, I s → I (s.setReg x v)
  ip : ∀ s v, I s → I (s.setIp v)

/-- The same, with the one change that only an invalid opcode makes. -/
structure ExecKeeps (I : State → Prop) : Prop extends HandlerKeeps I where
  emit : ∀ s e, I s → I (s.emit e)

theorem HandlerKeeps.modifyAll (_k : HandlerKeeps I) {i : Nat} {f : Process → Process}
    (hf : ∀ p, s.procs[i]? = some p → I (s.setProcs (s.procs.set i (f p)))) :
    (modifyProc i f s).All (fun _ t => I t) I True := by
  cases h : s.procs[i]? with
  | none => rw [modifyProc_of_none _ h]; trivial
  | some p => rw [modifyProc_of_some _ h]; exact hf p h

theorem HandlerKeeps.dispatchAll (k : HandlerKeeps I) {i : Nat} (h : I s) :
    (Machine.dispatch i s).All (fun _ t => I t) I True := by
  cases hp : s.procs[i]? with
  | none => rw [dispatch_of_none hp]; trivial
  | some p => rw [dispatch_of_some hp]; exact k.dispatch s i p h hp

theorem HandlerKeeps.retireAll (k : HandlerKeeps I) {i : Nat} (h : I s) :
    (Machine.retire i s).All (fun _ t => I t) I True := by
  cases hp : s.procs[i]? with
  | none => rw [retire_of_none hp]; trivial
  | some p => rw [retire_of_some hp]; exact k.retire s i p h hp

theorem HandlerKeeps.dispatchNextAll (k : HandlerKeeps I) {select : State → Nat} (h : I s) :
    (dispatchNext select s).All (fun _ t => I t) I True := by
  unfold dispatchNext
  split
  · exact k.halt _ _ h
  · exact k.dispatchAll h

/-- Every handler keeps what the primitive changes keep. -/
theorem HandlerKeeps.handler (k : HandlerKeeps I) (v : Handler) (arg : Option Word) (h : I s) :
    (runHandler v arg s).All (fun _ t => I t) I True := by
  cases v with
  | nop => exact h
  | swiFcfs => exact (k.retireAll h).bind fun _ t ht => k.dispatchNextAll ht
  | swiSjf => exact (k.retireAll h).bind fun _ t ht => k.dispatchNextAll ht
  | tmrRr =>
    show (tmrRr s).All _ _ _
    unfold tmrRr
    have h' := k.ticks s (s.ticks + 1) h
    dsimp only
    split
    · refine (k.modifyAll fun p hp => k.procRegs _ _ p h' hp).bind fun _ t ht => ?_
      exact (k.modifyAll fun p hp => k.procState _ _ p _ ht hp).bind fun _ t ht => k.dispatchAll ht
    · exact h'
  | swiRr =>
    show (swiRr s).All _ _ _
    unfold swiRr
    dsimp only
    cases hp : s.procs[s.cur]? with
    | none => rw [procAt_of_none hp]; trivial
    | some p =>
      rw [procAt_of_some hp, Ev.bind_ok]
      exact (k.freeExtent h).bind fun _ t ht => (k.retireAll ht).bind fun _ t ht => k.dispatchNextAll ht
  | tmrPrio =>
    show (tmrPrio s).All _ _ _
    unfold tmrPrio
    have h' := k.ticks s (s.ticks + 1) h
    dsimp only
    split
    · refine (k.modifyAll fun p hp => k.procRegs _ _ p h' hp).bind fun _ t ht => ?_
      refine (k.modifyAll fun p hp => k.procState _ _ p _ ht hp).bind fun _ t ht => ?_
      refine (k.modifyAll fun p hp => k.procPrio _ _ p _ ht hp).bind fun _ t ht => ?_
      exact (k.modifyAll fun p hp => k.procPrio _ _ p _ ht hp).bind fun _ t ht => k.dispatchAll ht
    · exact h'
  | swiPrio =>
    show (swiPrio s).All _ _ _
    unfold swiPrio
    split
    · exact (k.retireAll h).bind fun _ t ht => k.dispatchNextAll ht
    · split
      · exact k.modifyAll fun p hp => k.procPrio _ _ p _ h hp
      · exact k.halt _ _ h
  | pf =>
    cases arg with
    | none => trivial
    | some w => exact (k.pfHandler h fun hB => absurd trivial hB).mono (fun _ _ h => h.1) fun _ => id

/-- Every vector. -/
theorem HandlerKeeps.vector (k : HandlerKeeps I) (v : VectorIndex) (arg : Option Word) (h : I s) :
    (raiseVector v arg s).All (fun _ t => I t) I True := k.handler _ _ h

/-- The page-fault protocol. -/
theorem HandlerKeeps.pageFault (k : HandlerKeeps I) (x : GReg) (page : Nat) (h : I s) :
    (raisePageFault x page s).All (fun _ t => I t) I True := by
  have h' := k.reg s x (BitVec.ofNat 32 page) h
  have hv := k.vector .pageFault (some (faultArg x (s.setReg x (BitVec.ofNat 32 page)))) h'
  unfold raisePageFault
  dsimp only
  cases hr : raiseVector .pageFault (some (faultArg x (s.setReg x (BitVec.ofNat 32 page))))
      (s.setReg x (BitVec.ofNat 32 page)) with
  | ok a t => rw [hr] at hv; exact k.reg _ _ _ hv
  | ended t => rw [hr] at hv; exact k.reg _ _ _ hv
  | broken f => trivial

/-- Every load and store. -/
theorem HandlerKeeps.access (k : HandlerKeeps I) (kind : AccessKind) (x : GReg) (w1 : Word) (h : I s) :
    (access kind x w1 s).All (fun _ t => I t) I True := by
  unfold Machine.access
  rcases translate_cases (addrOperand w1) s with ⟨-, e⟩ | ⟨f, -, -, e⟩ | ⟨f, -, -, e⟩ | ⟨-, e⟩
  · rw [e]; exact k.halt _ _ h
  · rw [e]; exact k.pageFault x _ h
  · rw [e, Ev.bind_ok]
    cases kind with
    | load =>
      show ((memRead _ s).bind _).All _ _ _
      unfold memRead
      split
      · exact k.ip _ _ (k.reg _ _ _ h)
      · trivial
    | store =>
      show ((memWrite _ _ s).bind _).All _ _ _
      unfold memWrite
      split
      · rename_i hlt; exact k.ip _ _ (k.mem _ _ _ h hlt)
      · trivial
  · rw [e]; trivial

/-- Every instruction but the invalid opcode keeps what these changes keep. -/
theorem HandlerKeeps.exec (k : HandlerKeeps I) (i : Instr) (hi : ∀ w0 w1, i ≠ .invalid w0 w1) (h : I s)
    (ht : exec i s = .next t) : I t := by
  cases i with
  | mova w => cases ht; exact k.ip _ _ (k.reg _ .a _ h)
  | movb w => cases ht; exact k.ip _ _ (k.reg _ .b _ h)
  | movc w => cases ht; exact k.ip _ _ (k.reg _ .c _ h)
  | jmp w => cases ht; exact k.ip _ _ h
  | int w =>
    simp only [Machine.exec, execInt] at ht
    split at ht
    · refine Ev.All.next (k.vector .software none ?_) ht
      split
      · exact k.ip _ _ h
      · exact h
    · cases ht; exact k.halt _ _ h
  | lda w => exact Ev.All.next (k.access .load .a w h) ht
  | ldb w => exact Ev.All.next (k.access .load .b w h) ht
  | ldc w => exact Ev.All.next (k.access .load .c w h) ht
  | sta w => exact Ev.All.next (k.access .store .a w h) ht
  | stb w => exact Ev.All.next (k.access .store .b w h) ht
  | stc w => exact Ev.All.next (k.access .store .c w h) ht
  | invalid w0 w1 => exact absurd rfl (hi w0 w1)

/-- Every instruction keeps what the primitive changes keep. -/
theorem ExecKeeps.exec (k : ExecKeeps I) (i : Instr) (h : I s) (ht : exec i s = .next t) : I t := by
  by_cases hi : ∃ w0 w1, i = .invalid w0 w1
  · obtain ⟨w0, w1, rfl⟩ := hi
    cases ht
    exact k.ip _ _ (k.emit _ _ h)
  · exact k.toHandlerKeeps.exec i (fun w0 w1 e => hi ⟨w0, w1, e⟩) h ht

end Sys2Proof.Machine
end

