-- ==== Sys2Proof/Laws/HeapPhysical.lean ====
section
/-! SUPPORT. The allocator's accesses where they are physical (no ALLOC_XLATE, or no live table): each is a plain word access
inside the managed range (R72, R158). -/

namespace Sys2Proof.Machine

variable {s : State} {x v p : Nat}

/-- The allocator's addresses are physical (R72). -/
abbrev State.heapPhysical (s : State) : Prop := s.cfg.allocXlate = false ∨ s.livePt = none

/-- An address of the managed range (R72). -/
abbrev State.inHeap (s : State) (x : Nat) : Prop := s.cfg.heapBase.toNat ≤ x ∧ x < s.cfg.heapEnd

theorem phys_physical (h : s.heapPhysical) (x : Nat) : phys x s = .ok x s := by
  unfold phys
  rw [if_neg]
  rintro ⟨h1, h2⟩
  rcases h with h | h
  · simp [h] at h1
  · exact h2 h

theorem heapCheck_of_inHeap (h : s.inHeap x) : heapCheck x s = .ok () s := if_neg (by omega)

/-- The range check's two ends. -/
theorem heapCheck_cases (x : Nat) (s : State) :
    heapCheck x s = haltEvent .heapFault s ∨ (s.inHeap x ∧ heapCheck x s = .ok () s) := by
  by_cases h : s.inHeap x
  · exact .inr ⟨h, heapCheck_of_inHeap h⟩
  · exact .inl (if_pos (by omega))

/-- The managed range lies in RAM (R6). -/
theorem heap_in_ram {c : Config} (hc : c.wf) (h : x < c.heapEnd) : x < c.ramWords :=
  Nat.lt_of_lt_of_le h hc.2.2.2.2.2.1

/-- A read of the managed range. -/
theorem aRead_physical (hc : s.cfg.wf) (hp : s.heapPhysical) (hx : s.inHeap x) :
    aRead x s = .ok (s.mem.readWord x).toNat s := by
  unfold aRead
  rw [heapCheck_of_inHeap hx, Ev.bind_ok, phys_physical hp, Ev.bind_ok, memRead_of_lt (heap_in_ram hc hx.2), Ev.bind_ok]

/-- A write of the managed range with a value that a word holds. -/
theorem aWrite_physical (hc : s.cfg.wf) (hp : s.heapPhysical) (hx : s.inHeap x) (hv : v < 2 ^ 32) :
    aWrite x v s = .ok () (s.setMem (s.mem.writeWord x (BitVec.ofNat 32 v))) := by
  unfold aWrite
  rw [heapCheck_of_inHeap hx, Ev.bind_ok, phys_physical hp, Ev.bind_ok, storedWord, if_pos hv]
  exact memWrite_of_lt (heap_in_ram hc hx.2)

/-- A block whose header lies in the managed range, with a legal size, passes the check (R73). -/
theorem checkBlock_physical (hc : s.cfg.wf) (hp : s.heapPhysical) (h1 : s.cfg.heapBase.toNat ≤ p)
    (h2 : 2 ≤ (s.mem.readWord (p + 1)).toNat) (h3 : p + (s.mem.readWord (p + 1)).toNat ≤ s.cfg.heapEnd) :
    checkBlock p s = .ok () s := by
  unfold checkBlock
  rw [heapCheck_of_inHeap ⟨h1, by omega⟩, Ev.bind_ok, heapCheck_of_inHeap ⟨by omega, by omega⟩, Ev.bind_ok,
    aRead_physical hc hp ⟨by omega, by omega⟩, Ev.bind_ok, if_neg (by omega)]

/-- What a physical read can answer, with no premise on the configuration. -/
theorem aRead_physical_all (hp : s.heapPhysical) (x : Nat) :
    (aRead x s).All (fun r t => r = (s.mem.readWord x).toNat ∧ t = s ∧ s.inHeap x) (fun _ => True) True := by
  unfold aRead
  rcases heapCheck_cases x s with e | ⟨hx, e⟩
  · rw [e]; trivial
  · rw [e, Ev.bind_ok, phys_physical hp, Ev.bind_ok]
    unfold memRead
    split
    · exact ⟨rfl, rfl, hx⟩
    · trivial

/-- What a physical block check can answer, with no premise on the configuration. -/
theorem checkBlock_physical_all (hp : s.heapPhysical) (p : Nat) :
    (checkBlock p s).All
      (fun _ t => t = s ∧ s.cfg.heapBase.toNat ≤ p ∧ 2 ≤ (s.mem.readWord (p + 1)).toNat ∧
        p + (s.mem.readWord (p + 1)).toNat ≤ s.cfg.heapEnd) (fun _ => True) True := by
  unfold checkBlock
  rcases heapCheck_cases p s with e | ⟨hx, e⟩
  · rw [e]; trivial
  rw [e, Ev.bind_ok]
  rcases heapCheck_cases (p + 1) s with e | ⟨-, e⟩
  · rw [e]; trivial
  rw [e, Ev.bind_ok]
  refine (aRead_physical_all hp (p + 1)).bind ?_
  rintro r t ⟨rfl, rfl, -⟩
  split
  · trivial
  · exact ⟨rfl, hx.1, by omega, by omega⟩

/-- A physical scan that takes no block changes nothing. One that takes a block takes it at a block of at least the
requested size that passed the check. -/
theorem allocScan_physical {n fuel prev : Nat} (hp : s.heapPhysical) :
    (∃ b size, s.cfg.heapBase.toNat ≤ b ∧ 2 ≤ size ∧ b + size ≤ s.cfg.heapEnd ∧ n ≤ size ∧
        ∃ prev', allocScan n fuel prev p s = allocTake n prev' b size s) ∨
      (allocScan n fuel prev p s).All (fun r t => r = none ∧ t = s) (fun _ => True) True := by
  induction fuel generalizing prev p with
  | zero =>
    unfold allocScan
    have hc := checkBlock_physical_all hp p
    cases hcb : checkBlock p s with
    | ended t => exact .inr trivial
    | broken f => exact .inr trivial
    | ok u t =>
      rw [hcb] at hc
      obtain ⟨rfl, h1, h2, h3⟩ := hc
      rw [Ev.bind_ok]
      have hr := aRead_physical_all hp (p + 1)
      cases hrd : aRead (p + 1) t with
      | ended t => exact .inr trivial
      | broken f => exact .inr trivial
      | ok r u =>
        rw [hrd] at hr
        obtain ⟨rfl, rfl, -⟩ := hr
        rw [Ev.bind_ok]
        split
        · rename_i hn
          exact .inl ⟨p, _, h1, h2, h3, hn, prev, rfl⟩
        · split
          · exact .inr ⟨rfl, rfl⟩
          · exact .inr trivial
  | succ fuel ih =>
    unfold allocScan
    have hc := checkBlock_physical_all hp p
    cases hcb : checkBlock p s with
    | ended t => exact .inr trivial
    | broken f => exact .inr trivial
    | ok u t =>
      rw [hcb] at hc
      obtain ⟨rfl, h1, h2, h3⟩ := hc
      rw [Ev.bind_ok]
      have hr := aRead_physical_all hp (p + 1)
      cases hrd : aRead (p + 1) t with
      | ended t => exact .inr trivial
      | broken f => exact .inr trivial
      | ok r u =>
        rw [hrd] at hr
        obtain ⟨rfl, rfl, -⟩ := hr
        rw [Ev.bind_ok]
        split
        · rename_i hn
          exact .inl ⟨p, _, h1, h2, h3, hn, prev, rfl⟩
        · split
          · exact .inr ⟨rfl, rfl⟩
          · have hr := aRead_physical_all hp p
            cases hrd : aRead p u with
            | ended t => exact .inr trivial
            | broken f => exact .inr trivial
            | ok r t =>
              rw [hrd] at hr
              obtain ⟨rfl, rfl, -⟩ := hr
              exact ih

/-- Taking a block answers the block, whole or cut to the request. -/
theorem allocTake_all (n prev p size : Nat) (s : State) :
    (allocTake n prev p size s).All
      (fun r _ => (2 < size - n ∧ r = some (p, n)) ∨ (¬ 2 < size - n ∧ r = some (p, size))) (fun _ => True) True := by
  have any : ∀ {α : Type} (x : Ev α), x.All (fun _ _ => True) (fun _ => True) True := fun x => by cases x <;> trivial
  unfold allocTake
  split
  · rename_i h
    refine (any _).bind fun _ _ _ => ?_
    split
    · exact (any _).bind fun _ _ _ => .inl ⟨h, rfl⟩
    · exact (any _).bind fun _ _ _ => (any _).bind fun _ _ _ => (any _).bind fun _ _ _ => .inl ⟨h, rfl⟩
  · rename_i h
    split
    · exact .inr ⟨h, rfl⟩
    · exact (any _).bind fun _ _ _ => (any _).bind fun _ _ _ => .inr ⟨h, rfl⟩

end Sys2Proof.Machine
end

