-- ==== Sys2Proof/Laws/Invariant.lean ====
section
/-! SUPPORT. The invariant through the shared operations: its part that holds in the middle of a handler (`State.Base`), and
what the heap, the context-switch primitives, the handlers and the page-fault protocol do to it. -/

namespace Sys2Proof.Machine

variable {s t : State}

/-- The part of the invariant that does not speak of PHASE: it holds at every point of an event. -/
structure State.Base (s : State) : Prop where
  cfg_wf : s.cfg.wf
  mem_wf : s.mem.wf
  mem_range : ∀ x ∈ s.mem, x.1 < 4 * s.cfg.ramWords
  pool_nodup : s.pool.Nodup
  pool_frames : ∀ f ∈ s.pool, s.cfg.isFrame f
  pt_size : ∀ p ∈ s.procs, p.pt.length = s.cfg.ptEntries
  pt_frames : ∀ p ∈ s.procs, ∀ e ∈ p.pt, e = unmapped ∨ s.cfg.isFrame e
  pids_rise : s.procs.Pairwise (fun p q => p.pid.toNat < q.pid.toNat)
  pids_below : ∀ p ∈ s.procs, p.pid.toNat < s.nextPid
  nextPid_le : s.nextPid ≤ pidLimit
  vec_policy : s.vec = vectorsOf s.cfg.policy
  states_legal : ∀ p ∈ s.procs, p.state ≠ .waiting ∧ p.state ≠ .terminated

theorem State.Inv.base (h : s.Inv) : s.Base :=
  ⟨h.cfg_wf, h.mem_wf, h.mem_range, h.pool_nodup, h.pool_frames, h.pt_size, h.pt_frames, h.pids_rise, h.pids_below,
    h.nextPid_le, h.vec_policy, h.states_legal⟩

/-- A halted state of a good state is good. -/
theorem State.Base.halt (h : s.Base) (r : HaltReason) : (s.halt r).Inv where
  cfg_wf := h.cfg_wf
  mem_wf := h.mem_wf
  mem_range := h.mem_range
  pool_nodup := h.pool_nodup
  pool_frames := h.pool_frames
  pt_size := h.pt_size
  pt_frames := h.pt_frames
  pids_rise := h.pids_rise
  pids_below := h.pids_below
  nextPid_le := h.nextPid_le
  vec_policy := h.vec_policy
  reason_phase := by cases r <;> simp [HaltReason.code]
  reason_legal := by cases r <;> simp [HaltReason.code, legalReasons]
  construct_new := by simp
  run_cur := by simp
  run_running := by simp
  states_legal := h.states_legal

/-- The invariant put together in RUN. -/
theorem State.Base.run (h : s.Base) (hp : s.phase = .run) (hr : s.haltReason = 0) (hl : s.livePt ≠ none)
    (hc : (s.procs[s.cur]?).map Process.pid = s.livePt)
    (hrun : ∀ p ∈ s.procs, p.state = .running ↔ s.livePt = some p.pid) : s.Inv where
  cfg_wf := h.cfg_wf
  mem_wf := h.mem_wf
  mem_range := h.mem_range
  pool_nodup := h.pool_nodup
  pool_frames := h.pool_frames
  pt_size := h.pt_size
  pt_frames := h.pt_frames
  pids_rise := h.pids_rise
  pids_below := h.pids_below
  nextPid_le := h.nextPid_le
  vec_policy := h.vec_policy
  reason_phase := by simp [hp, hr]
  reason_legal := by simp [hr, legalReasons]
  construct_new := by simp [hp]
  run_cur := fun _ => ⟨hl, hc⟩
  run_running := fun _ => hrun
  states_legal := h.states_legal

/-- The invariant put together in CONSTRUCT. -/
theorem State.Base.construct (h : s.Base) (hp : s.phase = .construct) (hr : s.haltReason = 0)
    (hl : s.livePt = none) (hn : ∀ p ∈ s.procs, p.state = .new) : s.Inv where
  cfg_wf := h.cfg_wf
  mem_wf := h.mem_wf
  mem_range := h.mem_range
  pool_nodup := h.pool_nodup
  pool_frames := h.pool_frames
  pt_size := h.pt_size
  pt_frames := h.pt_frames
  pids_rise := h.pids_rise
  pids_below := h.pids_below
  nextPid_le := h.nextPid_le
  vec_policy := h.vec_policy
  reason_phase := by simp [hp, hr]
  reason_legal := by simp [hr, legalReasons]
  construct_new := fun _ => ⟨hl, hn⟩
  run_cur := by simp [hp]
  run_running := by simp [hp]
  states_legal := h.states_legal

/-- Process ids are distinct along PROCS. -/
theorem State.Base.pid_inj (h : s.Base) {i j : Nat} {p q : Process} (hi : s.procs[i]? = some p)
    (hj : s.procs[j]? = some q) (he : p.pid = q.pid) : i = j := by
  obtain ⟨hi', rfl⟩ := List.getElem?_eq_some_iff.mp hi
  obtain ⟨hj', rfl⟩ := List.getElem?_eq_some_iff.mp hj
  have hr := List.pairwise_iff_getElem.mp h.pids_rise
  rcases Nat.lt_trichotomy i j with hlt | heq | hgt
  · have := hr i j hi' hj' hlt
    rw [he] at this
    omega
  · exact heq
  · have := hr j i hj' hi' hgt
    rw [he] at this
    omega

/-- One record replaced by one of the same pid, page table of the same kind and a legal state. -/
theorem State.Base.setProc (h : s.Base) {i : Nat} {p q : Process} (hi : s.procs[i]? = some p) (hpid : q.pid = p.pid)
    (hpt : q.pt = p.pt) (hst : q.state ≠ .waiting ∧ q.state ≠ .terminated) : (s.setProcs (s.procs.set i q)).Base := by
  have hmem : p ∈ s.procs := List.mem_of_getElem? hi
  obtain ⟨hi', hpi⟩ := List.getElem?_eq_some_iff.mp hi
  refine { h with pt_size := ?_, pt_frames := ?_, pids_rise := ?_, pids_below := ?_, states_legal := ?_ }
  · intro r hr
    rcases List.mem_or_eq_of_mem_set hr with hr | rfl
    · exact h.pt_size r hr
    · rw [hpt]; exact h.pt_size p hmem
  · intro r hr
    rcases List.mem_or_eq_of_mem_set hr with hr | rfl
    · exact h.pt_frames r hr
    · rw [hpt]; exact h.pt_frames p hmem
  · have e : (s.procs.set i q).map (fun r => r.pid.toNat) = s.procs.map (fun r => r.pid.toNat) := by
      rw [List.map_set]
      refine List.ext_getElem (by simp) fun k h1 h2 => ?_
      rw [List.getElem_set]
      split
      · subst k
        rw [List.getElem_map, hpid, hpi]
      · rfl
    have := List.pairwise_map.mpr h.pids_rise
    rw [← e] at this
    exact List.pairwise_map.mp this
  · intro r hr
    rcases List.mem_or_eq_of_mem_set hr with hr | rfl
    · exact h.pids_below r hr
    · rw [hpid]; exact h.pids_below p hmem
  · intro r hr
    rcases List.mem_or_eq_of_mem_set hr with hr | rfl
    · exact h.states_legal r hr
    · exact hst

/-- Fields that `State.Base` does not read. -/
theorem State.Base.congr (h : s.Base) (e1 : t.cfg = s.cfg) (e2 : t.mem = s.mem) (e3 : t.pool = s.pool)
    (e4 : t.procs = s.procs) (e5 : t.nextPid = s.nextPid) (e6 : t.vec = s.vec) : t.Base := by
  refine ⟨?_, ?_, ?_, ?_, ?_, ?_, ?_, ?_, ?_, ?_, ?_, ?_⟩
  · rw [e1]; exact h.cfg_wf
  · rw [e2]; exact h.mem_wf
  · rw [e1, e2]; exact h.mem_range
  · rw [e3]; exact h.pool_nodup
  · rw [e1, e3]; exact h.pool_frames
  · rw [e1, e4]; exact h.pt_size
  · rw [e1, e4]; exact h.pt_frames
  · rw [e4]; exact h.pids_rise
  · rw [e4, e5]; exact h.pids_below
  · rw [e5]; exact h.nextPid_le
  · rw [e1, e6]; exact h.vec_policy
  · rw [e4]; exact h.states_legal

/-- A word write inside RAM. -/
theorem State.Base.writeWord (h : s.Base) {pa : Nat} (v : Word) (hpa : pa < s.cfg.ramWords) :
    (s.setMem (s.mem.writeWord pa v)).Base :=
  { h with
    mem_wf := Memory.writeWord_wf h.mem_wf _ _
    mem_range := Memory.writeWord_range h.mem_range _ _ hpa }

/-- A frame popped from the pool. -/
theorem State.Base.popPool (h : s.Base) {f : Word} {rest : List Word} (hp : s.pool = f :: rest) :
    (s.setPool rest).Base :=
  { h with
    pool_nodup := (List.nodup_cons.mp (hp ▸ h.pool_nodup)).2
    pool_frames := fun g hg => h.pool_frames g (by rw [hp]; exact List.mem_cons_of_mem _ hg) }

/-- A record removed. -/
theorem State.Base.erase (h : s.Base) (i : Nat) : (s.setProcs (s.procs.eraseIdx i)).Base :=
  { h with
    pt_size := fun p hp => h.pt_size p (List.mem_of_mem_eraseIdx hp)
    pt_frames := fun p hp => h.pt_frames p (List.mem_of_mem_eraseIdx hp)
    pids_rise := h.pids_rise.sublist (List.eraseIdx_sublist ..)
    pids_below := fun p hp => h.pids_below p (List.mem_of_mem_eraseIdx hp)
    states_legal := fun p hp => h.states_legal p (List.mem_of_mem_eraseIdx hp) }

/-- An entry of one table written with a frame base. -/
theorem State.Base.setEntry (h : s.Base) {pid : Option Word} {f : Word} {page : Nat} (hf : s.cfg.isFrame f) :
    (s.setProcs (setLiveEntry s.procs pid page f)).Base := by
  have hmem : ∀ q ∈ setLiveEntry s.procs pid page f, ∃ p ∈ s.procs, q.pid = p.pid ∧ q.state = p.state ∧
      (q.pt = p.pt ∨ q.pt = p.pt.set page f) := by
    intro q hq
    obtain ⟨p, hp, rfl⟩ := List.mem_map.mp hq
    refine ⟨p, hp, ?_⟩
    split
    · exact ⟨rfl, rfl, .inr rfl⟩
    · exact ⟨rfl, rfl, .inl rfl⟩
  refine { h with pt_size := ?_, pt_frames := ?_, pids_rise := ?_, pids_below := ?_, states_legal := ?_ }
  · intro q hq
    obtain ⟨p, hp, -, -, e | e⟩ := hmem q hq
    · rw [e]; exact h.pt_size p hp
    · rw [e, List.length_set]; exact h.pt_size p hp
  · intro q hq e he
    obtain ⟨p, hp, -, -, e' | e'⟩ := hmem q hq
    · exact h.pt_frames p hp e (e' ▸ he)
    · rw [e'] at he
      rcases List.mem_or_eq_of_mem_set he with he | rfl
      · exact h.pt_frames p hp e he
      · exact .inr hf
  · have e : (setLiveEntry s.procs pid page f).map (fun r => r.pid.toNat) = s.procs.map (fun r => r.pid.toNat) := by
      rw [setLiveEntry, List.map_map]
      refine List.map_congr_left fun p _ => ?_
      simp only [Function.comp]
      split <;> rfl
    have := List.pairwise_map.mpr h.pids_rise
    rw [← e] at this
    exact List.pairwise_map.mp this
  · intro q hq
    obtain ⟨p, hp, e, -⟩ := hmem q hq
    rw [e]; exact h.pids_below p hp
  · intro q hq
    obtain ⟨p, hp, -, e, -⟩ := hmem q hq
    rw [e]; exact h.states_legal p hp

/-- The running process, its record and its table, in RUN. -/
theorem State.Inv.live (h : s.Inv) (hr : s.phase = .run) :
    ∃ p, s.procs[s.cur]? = some p ∧ s.livePt = some p.pid ∧ s.livePageTable = some p.pt ∧ p ∈ s.procs := by
  obtain ⟨hl, hc⟩ := h.run_cur hr
  obtain ⟨pid, hpid⟩ := Option.ne_none_iff_exists'.mp hl
  rw [hpid] at hc
  obtain ⟨p, hp, rfl⟩ := Option.map_eq_some_iff.mp hc
  have hm := List.mem_of_getElem? hp
  refine ⟨p, hp, hpid, ?_, hm⟩
  simp only [State.livePageTable, hpid]
  cases hf : s.procs.find? fun q => q.pid == p.pid with
  | none =>
    have := List.find?_eq_none.mp hf p hm
    simp at this
  | some q =>
    have hq : q.pid = p.pid := by simpa using List.find?_some hf
    obtain ⟨j, hj⟩ := List.mem_iff_getElem?.mp (List.mem_of_find?_eq_some hf)
    have := h.base.pid_inj hj hp hq
    subst this
    rw [hj] at hp
    cases hp
    rfl

/-- In RUN and in CONSTRUCT the state is ready for the heap. -/
theorem State.Inv.heapReady (h : s.Inv) (hh : s.phase ≠ .halted) : s.HeapReady where
  cfg_wf := h.cfg_wf
  pool_frames := h.pool_frames
  entry := fun hl page hlt => by
    cases hp : s.phase with
    | construct => exact absurd (h.construct_new hp).1 hl
    | run =>
      obtain ⟨p, -, -, hpt, hm⟩ := h.live hp
      have hlen : page < p.pt.length := by rw [h.pt_size p hm]; exact hlt
      refine ⟨p.pt[page], ?_, h.pt_frames p hm _ (List.getElem_mem hlen)⟩
      simp only [State.liveEntry, hpt, List.getElem?_eq_getElem hlen]
    | halted => exact absurd hp hh

/-- One write of an entry of the live table keeps the invariant. -/
theorem State.Inv.serve (h : s.Inv) {page : Nat} {f : Word} {rest : List Word} {pid : Option Word}
    (hp : s.pool = f :: rest) : ((s.setPool rest).setProcs (setLiveEntry s.procs pid page f)).Inv := by
  have hb : ((s.setPool rest).setProcs (setLiveEntry s.procs pid page f)).Base :=
    (h.base.popPool hp).setEntry (h.pool_frames f (by simp [hp]))
  have hfield : ∀ q ∈ setLiveEntry s.procs pid page f, ∃ p ∈ s.procs, q.pid = p.pid ∧ q.state = p.state := by
    intro q hq
    obtain ⟨p, hp, rfl⟩ := List.mem_map.mp hq
    refine ⟨p, hp, ?_⟩
    split <;> exact ⟨rfl, rfl⟩
  exact
    { hb with
      reason_phase := h.reason_phase
      reason_legal := h.reason_legal
      construct_new := fun hc => ⟨(h.construct_new hc).1, fun q hq => by
        obtain ⟨p, hp, -, e⟩ := hfield q hq
        rw [e]; exact (h.construct_new hc).2 p hp⟩
      run_cur := fun hr => by
        refine ⟨(h.run_cur hr).1, ?_⟩
        show ((setLiveEntry s.procs pid page f)[s.cur]?).map Process.pid = s.livePt
        rw [← (h.run_cur hr).2, setLiveEntry, List.getElem?_map, Option.map_map]
        cases s.procs[s.cur]? with
        | none => rfl
        | some p =>
          simp only [Option.map_some, Function.comp]
          split <;> rfl
      run_running := fun hr q hq => by
        obtain ⟨p, hp, e1, e2⟩ := hfield q hq
        show q.state = .running ↔ s.livePt = some q.pid
        rw [e1, e2]; exact h.run_running hr p hp }

/-- The allocator and the page-fault handler keep the invariant in a phase that is not HALTED, and break no
precondition. -/
theorem inv_heapKeeps {ph : Phase} (hph : ph ≠ .halted) :
    HeapKeeps (fun t => t.Inv ∧ t.phase = ph) State.Inv False where
  halt := fun _ r h => h.1.base.halt r
  mem := fun _ _ v h hpa => ⟨
    { h.1.base.writeWord v hpa with
      reason_phase := h.1.reason_phase
      reason_legal := h.1.reason_legal
      construct_new := h.1.construct_new
      run_cur := h.1.run_cur
      run_running := h.1.run_running }, h.2⟩
  rover := fun _ _ h => ⟨{ h.1 with }, h.2⟩
  serve := fun _ _ _ _ _ h _ hp _ _ => ⟨h.1.serve hp, h.2⟩
  pop := fun _ _ h hp => (h.1.base.popPool hp).halt _
  ready := fun _ _ h => h.1.heapReady (h.2 ▸ hph)

/-- DISPATCH of a process, where no process is Running. -/
theorem State.Base.dispatched (h : s.Base) {i : Nat} {p : Process} (hp : s.procs[i]? = some p)
    (hph : s.phase = .run) (hr : s.haltReason = 0) (hn : ∀ q ∈ s.procs, q.state ≠ .running) :
    (s.dispatched i p).Inv := by
  have hb : (s.dispatched i p).Base :=
    (h.setProc hp (q := p.setState .running) rfl rfl (by simp)).congr rfl rfl rfl rfl rfl rfl
  obtain ⟨hi, -⟩ := List.getElem?_eq_some_iff.mp hp
  refine hb.run hph hr (by simp) (by simp [List.getElem?_set_self hi]) fun q hq => ?_
  obtain ⟨j, hj⟩ := List.mem_iff_getElem?.mp hq
  simp only [State.dispatched_procs, List.getElem?_set, hi, if_true] at hj
  split at hj
  · cases hj; simp
  · rename_i hij
    have hm := List.mem_of_getElem? hj
    constructor
    · intro he; exact absurd he (hn q hm)
    · intro he
      simp only [State.dispatched_livePt, Option.some.injEq] at he
      exact absurd (h.pid_inj hp hj he) hij

/-- The end of a retirement or of a preemption: the selected process is dispatched. -/
theorem State.Base.dispatchAll (h : s.Base) {i : Nat} (hi : i < s.procs.length) (hph : s.phase = .run)
    (hr : s.haltReason = 0) (hn : ∀ q ∈ s.procs, q.state ≠ .running) :
    (dispatch i s).All (fun _ t => t.Inv ∧ t.phase = .run) State.Inv False := by
  have hp : s.procs[i]? = some s.procs[i] := List.getElem?_eq_getElem hi
  rw [dispatch_of_some hp]
  exact ⟨h.dispatched hp hph hr hn, hph⟩

/-- RETIRE of the running process: what is left has no Running process. -/
theorem State.Inv.retired (h : s.Inv) (hr : s.phase = .run) :
    ∀ q ∈ s.procs.eraseIdx s.cur, q.state ≠ .running := by
  intro q hq he
  obtain ⟨p, hp, hl, -, -⟩ := h.live hr
  have hlive := (h.run_running hr q (List.mem_of_mem_eraseIdx hq)).mp he
  rw [hl] at hlive
  obtain ⟨j, hj, hjq⟩ := List.mem_eraseIdx_iff_getElem?.mp hq
  exact hj (h.base.pid_inj hp hjq (by simpa using hlive)).symm

/-- The retirements: RETIRE, then halt or dispatch. -/
theorem State.Inv.retireThen (h : s.Inv) (hr : s.phase = .run) {select : State → Nat}
    (hsel : ∀ t : State, t.procs ≠ [] → select t < t.procs.length) :
    ((retire s.cur s).bind fun _ t => dispatchNext select t).All (fun _ t => t.Inv ∧ t.phase = .run) State.Inv False := by
  obtain ⟨p, hp, -, -, -⟩ := h.live hr
  have hr0 : s.haltReason = 0 := h.reason_phase.mpr (by simp [hr])
  rw [retire_of_some hp, Ev.bind_ok]
  have hb := h.base.erase s.cur
  by_cases hn : (s.setProcs (s.procs.eraseIdx s.cur)).procs = []
  · rw [dispatchNext_nil _ hn]; exact hb.halt _
  · rw [dispatchNext_ne _ hn]
    exact hb.dispatchAll (hsel _ hn) hr hr0 (h.retired hr)

theorem top_lt (h : s.procs ≠ []) : top s < s.procs.length := by
  obtain ⟨p, hp, -⟩ := top_spec h
  exact (List.getElem?_eq_some_iff.mp hp).1

theorem shortest_lt (h : s.procs ≠ []) : shortest s < s.procs.length := by
  obtain ⟨p, hp, -⟩ := shortest_spec h
  exact (List.getElem?_eq_some_iff.mp hp).1

/-- The live registers, TICKS and TRACE are no part of the invariant. -/
theorem State.Inv.setRegs (h : s.Inv) (r : Regs) : (s.setRegs r).Inv := { h with }
theorem State.Inv.setTicks (h : s.Inv) (w : Word) : (s.setTicks w).Inv := { h with }
theorem State.Inv.setTrace (h : s.Inv) (e : List TraceEvent) : (s.setTrace e).Inv := { h with }
theorem State.Inv.setPending (h : s.Inv) (es : List HostEvent) : (s.setPending es).Inv := { h with }
theorem State.Inv.setReplies (h : s.Inv) (rs : List Reply) : (s.setReplies rs).Inv := { h with }

/-- A word write inside RAM keeps the invariant. -/
theorem State.Inv.writeWord (h : s.Inv) {pa : Nat} (v : Word) (hpa : pa < s.cfg.ramWords) :
    (s.setMem (s.mem.writeWord pa v)).Inv :=
  { h.base.writeWord v hpa with
    reason_phase := h.reason_phase
    reason_legal := h.reason_legal
    construct_new := h.construct_new
    run_cur := h.run_cur
    run_running := h.run_running }

/-- SAVE, mark Ready and change the priority of the running process: the outgoing half of a preemption (R176). -/
theorem State.Inv.preempt (h : s.Inv) (hr : s.phase = .run) {p : Process} (hp : s.procs[s.cur]? = some p)
    (regs : Regs) (prio : Word) :
    (s.setProcs (s.procs.set s.cur (((p.setRegs regs).setState .ready).setPrio prio))).Base ∧
      ∀ q ∈ s.procs.set s.cur (((p.setRegs regs).setState .ready).setPrio prio), q.state ≠ .running := by
  refine ⟨h.base.setProc hp rfl rfl (by simp), fun q hq => ?_⟩
  obtain ⟨j, hj⟩ := List.mem_iff_getElem?.mp hq
  obtain ⟨hi, -⟩ := List.getElem?_eq_some_iff.mp hp
  simp only [List.getElem?_set, hi, if_true] at hj
  split at hj
  · cases hj
    simp
  · rename_i hij
    intro he
    have hl := (h.run_running hr q (List.mem_of_getElem? hj)).mp he
    have hc := (h.run_cur hr).2
    rw [hp, hl] at hc
    exact hij (h.base.pid_inj hp hj (by simpa using hc))

/-- The round-robin timer. -/
theorem State.Inv.tmrRr (h : s.Inv) (hr : s.phase = .run) :
    (tmrRr s).All (fun _ t => t.Inv ∧ t.phase = .run) State.Inv False := by
  have hr0 : s.haltReason = 0 := h.reason_phase.mpr (by simp [hr])
  obtain ⟨p, hp, -, -, -⟩ := h.live hr
  obtain ⟨hi, -⟩ := List.getElem?_eq_some_iff.mp hp
  unfold Machine.tmrRr
  dsimp only
  split
  · rename_i hq
    have hp1 : (s.setTicks (s.ticks + 1)).procs[s.cur]? = some p := hp
    rw [State.setTicks_cur, save_of_some hp1, Ev.bind_ok]
    have hp2 : ((s.setTicks (s.ticks + 1)).setProcs
        ((s.setTicks (s.ticks + 1)).procs.set s.cur (p.setRegs (s.setTicks (s.ticks + 1)).regs))).procs[s.cur]? =
        some (p.setRegs s.regs) := List.getElem?_set_self hi
    rw [modifyProc_of_some _ hp2, Ev.bind_ok]
    obtain ⟨hb, hn⟩ := (h.setTicks (s.ticks + 1)).preempt hr hp1 s.regs p.prio
    simp only [State.setProcs_procs, State.setTicks_procs, State.setTicks_regs, List.set_set, List.length_set]
    refine State.Base.dispatchAll (hb.congr rfl rfl rfl rfl rfl rfl) ?_ hr hr0 hn
    simp only [State.setProcs_procs, List.length_set]
    exact Nat.mod_lt _ (by omega)
  · exact ⟨h.setTicks _, hr⟩

/-- The priority timer. -/
theorem State.Inv.tmrPrio (h : s.Inv) (hr : s.phase = .run) :
    (tmrPrio s).All (fun _ t => t.Inv ∧ t.phase = .run) State.Inv False := by
  have hr0 : s.haltReason = 0 := h.reason_phase.mpr (by simp [hr])
  obtain ⟨p, hp, -, -, -⟩ := h.live hr
  obtain ⟨hi, -⟩ := List.getElem?_eq_some_iff.mp hp
  unfold Machine.tmrPrio
  dsimp only
  split
  · have hp1 : (s.setTicks (s.ticks + 1)).procs[s.cur]? = some p := hp
    rw [State.setTicks_cur, save_of_some hp1, Ev.bind_ok]
    have hp2 : ((s.setTicks (s.ticks + 1)).setProcs
        ((s.setTicks (s.ticks + 1)).procs.set s.cur (p.setRegs (s.setTicks (s.ticks + 1)).regs))).procs[s.cur]? =
        some (p.setRegs s.regs) := List.getElem?_set_self hi
    rw [modifyProc_of_some _ hp2, Ev.bind_ok]
    simp only [State.setProcs_procs, State.setTicks_procs, State.setTicks_regs, List.set_set]
    have hp3 : (((s.setTicks (s.ticks + 1)).setProcs (s.procs.set s.cur (p.setRegs s.regs))).setProcs
        (s.procs.set s.cur ((p.setRegs s.regs).setState .ready))).procs[s.cur]? =
        some ((p.setRegs s.regs).setState .ready) := List.getElem?_set_self hi
    rw [modifyProc_of_some _ hp3, Ev.bind_ok]
    simp only [State.setProcs_procs, List.set_set]
    obtain ⟨hb, hn⟩ := (h.setTicks (s.ticks + 1)).preempt hr hp1 s.regs (p.prio - 1)
    generalize hw : (((s.setTicks (s.ticks + 1)).setProcs (s.procs.set s.cur (p.setRegs s.regs))).setProcs
        (s.procs.set s.cur ((p.setRegs s.regs).setState .ready))).setProcs (s.procs.set s.cur
        (((p.setRegs s.regs).setState .ready).setPrio (((p.setRegs s.regs).setState .ready).prio - 1))) = w
    have hwp : w.procs = s.procs.set s.cur (((p.setRegs s.regs).setState .ready).setPrio (p.prio - 1)) := by
      rw [← hw]; rfl
    have hwb : w.Base := hb.congr (by rw [← hw]; rfl) (by rw [← hw]; rfl) (by rw [← hw]; rfl)
      hwp (by rw [← hw]; rfl) (by rw [← hw]; rfl)
    have hwn : ∀ q ∈ w.procs, q.state ≠ .running := by rw [hwp]; exact hn
    have hwne : w.procs ≠ [] := by
      intro he
      have : w.procs.length = s.procs.length := by rw [hwp]; simp
      rw [he] at this
      simp at this
      omega
    obtain ⟨q, hq, -⟩ := top_spec hwne
    rw [modifyProc_of_some _ hq, Ev.bind_ok]
    have hqm := List.mem_of_getElem? hq
    have hb' := hwb.setProc hq (q := q.setPrio (q.prio + 1)) rfl rfl (hwb.states_legal q hqm)
    refine State.Base.dispatchAll hb' (by simpa using top_lt hwne) (by rw [← hw]; exact hr)
      (by rw [← hw]; exact hr0) fun r hr' => ?_
    rcases List.mem_or_eq_of_mem_set hr' with hr' | rfl
    · exact hwn r hr'
    · exact hwn q hqm
  · exact ⟨h.setTicks _, hr⟩

/-- The round-robin software handler. -/
theorem State.Inv.swiRr (h : s.Inv) (hr : s.phase = .run) :
    (swiRr s).All (fun _ t => t.Inv ∧ t.phase = .run) State.Inv False := by
  obtain ⟨p, hp, -, -, -⟩ := h.live hr
  unfold Machine.swiRr
  dsimp only
  rw [procAt_of_some hp, Ev.bind_ok]
  have keep : HeapKeeps (fun t => (t.Inv ∧ t.phase = .run) ∧ t.cur = s.cur) State.Inv False :=
    have k := inv_heapKeeps (ph := .run) (by simp)
    { halt := fun s r h => k.halt s r h.1
      mem := fun s pa v h hpa => ⟨k.mem s pa v h.1 hpa, h.2⟩
      rover := fun s w h => ⟨k.rover s w h.1, h.2⟩
      serve := fun s page f rest g h h1 h2 h3 h4 => ⟨k.serve s page f rest g h.1 h1 h2 h3 h4, h.2⟩
      pop := fun s rest h => k.pop s rest h.1
      ready := fun hB s h => k.ready hB s h.1 }
  refine (keep.freeExtent ⟨⟨h, hr⟩, rfl⟩).bind ?_
  rintro - t ⟨⟨ht, htr⟩, hc⟩
  rw [← hc]
  exact ht.retireThen htr fun u hu => Nat.mod_lt _ (List.length_pos_of_ne_nil hu)

/-- The priority of the running process set. -/
theorem State.Inv.setPrio (h : s.Inv) (hr : s.phase = .run) {p : Process} (hp : s.procs[s.cur]? = some p)
    (w : Word) : (s.setProcs (s.procs.set s.cur (p.setPrio w))).Inv := by
  have hr0 : s.haltReason = 0 := h.reason_phase.mpr (by simp [hr])
  have hm := List.mem_of_getElem? hp
  obtain ⟨hi, -⟩ := List.getElem?_eq_some_iff.mp hp
  have hb := h.base.setProc hp (q := p.setPrio w) rfl rfl (h.states_legal p hm)
  refine hb.run hr hr0 (h.run_cur hr).1 ?_ fun q hq => ?_
  · simpa [List.getElem?_set_self hi, hp] using (h.run_cur hr).2
  · rcases List.mem_or_eq_of_mem_set hq with hq | rfl
    · exact h.run_running hr q hq
    · exact h.run_running hr p hm

/-- Every handler of the policy's slots, in RUN. -/
theorem State.Inv.vector (h : s.Inv) (hr : s.phase = .run) (v : VectorIndex) {arg : Option Word}
    (harg : v = .pageFault → arg ≠ none) :
    (raiseVector v arg s).All (fun _ t => t.Inv ∧ t.phase = .run) State.Inv False := by
  have hpf : ∀ w, (pfHandler w s).All (fun _ t => t.Inv ∧ t.phase = .run) State.Inv False := fun w =>
    ((inv_heapKeeps (ph := .run) (by simp)).pfHandler ⟨h, hr⟩ fun _ => (h.run_cur hr).1).mono (fun _ _ h => h.1)
      fun _ => id
  have hnop : (Ev.ok () s).All (fun _ t => t.Inv ∧ t.phase = .run) State.Inv False := ⟨h, hr⟩
  have hfcfs : (swiFcfs s).All (fun _ t => t.Inv ∧ t.phase = .run) State.Inv False :=
    h.retireThen hr fun t ht => List.length_pos_of_ne_nil ht
  have hsjf : (swiSjf s).All (fun _ t => t.Inv ∧ t.phase = .run) State.Inv False :=
    h.retireThen hr fun t ht => shortest_lt ht
  have hprio : (swiPrio s).All (fun _ t => t.Inv ∧ t.phase = .run) State.Inv False := by
    unfold Machine.swiPrio
    split
    · exact h.retireThen hr fun t ht => top_lt ht
    · split
      · obtain ⟨p, hp, -, -, -⟩ := h.live hr
        rw [modifyProc_of_some _ hp]
        exact ⟨h.setPrio hr hp _, hr⟩
      · exact h.base.halt _
  unfold raiseVector
  rw [h.vec_policy]
  cases v with
  | timer =>
    cases s.cfg.policy with
    | fcfs => exact hnop
    | sjf => exact hnop
    | rr => exact h.tmrRr hr
    | prio => exact h.tmrPrio hr
  | software =>
    cases s.cfg.policy with
    | fcfs => exact hfcfs
    | sjf => exact hsjf
    | rr => exact h.swiRr hr
    | prio => exact hprio
  | pageFault =>
    obtain ⟨w, rfl⟩ := Option.ne_none_iff_exists'.mp (harg rfl)
    cases s.cfg.policy <;> exact hpf w
  | reserved => cases s.cfg.policy <;> exact hnop

/-- The page-fault protocol, in RUN. -/
theorem State.Inv.pageFault (h : s.Inv) (hr : s.phase = .run) (x : GReg) (page : Nat) :
    (raisePageFault x page s).All (fun _ t => t.Inv ∧ t.phase = .run) State.Inv False := by
  have hv := (h.setRegs (s.regs.set x (BitVec.ofNat 32 page))).vector hr .pageFault
    (arg := some (faultArg x (s.setReg x (BitVec.ofNat 32 page)))) (by simp)
  unfold raisePageFault
  dsimp only
  change (raiseVector .pageFault _ (s.setReg x (BitVec.ofNat 32 page))).All _ _ _ at hv
  cases hres : raiseVector .pageFault (some (faultArg x (s.setReg x (BitVec.ofNat 32 page))))
      (s.setReg x (BitVec.ofNat 32 page)) with
  | ok a t => rw [hres] at hv; exact ⟨hv.1.setRegs _, hv.2⟩
  | ended t => rw [hres] at hv; exact State.Inv.setRegs hv _
  | broken f => rw [hres] at hv; exact hv.elim

/-- Every load and store, in RUN. -/
theorem State.Inv.access (h : s.Inv) (hr : s.phase = .run) (kind : AccessKind) (x : GReg) (w1 : Word) :
    (access kind x w1 s).All (fun _ t => t.Inv) State.Inv False := by
  have hready := h.heapReady (by simp [hr])
  unfold Machine.access
  by_cases hrange : s.cfg.ptEntries ≤ s.pageOf (addrOperand w1)
  · rw [translate_out_of_range hrange]; exact h.base.halt _
  · obtain ⟨f, hf, hfr⟩ := hready.entry (h.run_cur hr).1 (s.pageOf (addrOperand w1)) (by omega)
    rw [translate_of_entry ⟨by omega, hf⟩]
    split
    · exact (h.pageFault hr x _).mono (fun _ _ h => h.1) fun _ => id
    · rename_i hu
      have hpa := Config.frame_offset_lt h.cfg_wf (hfr.resolve_left hu) (State.offsetOf_lt h.cfg_wf (addrOperand w1))
      rw [Ev.bind_ok]
      cases kind with
      | load =>
        show ((memRead _ s).bind _).All _ _ _
        rw [memRead_of_lt hpa]
        exact (h.setRegs _).setRegs _
      | store =>
        show ((memWrite _ _ s).bind _).All _ _ _
        rw [memWrite_of_lt hpa]
        exact (h.writeWord _ hpa).setRegs _

end Sys2Proof.Machine
end

