-- ==== Sys2Proof/Laws/PerInstr.lean ====
section
/-! SUPPORT. Facts about every instruction as syntax, one lemma per constructor. -/

namespace Sys2Proof.Laws

/-- The operand word of every instruction stands whole in its second word, in both maps (R90 to R92). -/
def OperandKept.Statement (i : Instr) : Prop := ∀ m, (encode m i).2 = i.operand

theorem OperandKept.mova (w : Word) : OperandKept.Statement (.mova w) := fun _ => rfl
theorem OperandKept.movb (w : Word) : OperandKept.Statement (.movb w) := fun _ => rfl
theorem OperandKept.movc (w : Word) : OperandKept.Statement (.movc w) := fun _ => rfl
theorem OperandKept.jmp (w : Word) : OperandKept.Statement (.jmp w) := fun _ => rfl
theorem OperandKept.int (w : Word) : OperandKept.Statement (.int w) := fun _ => rfl
theorem OperandKept.lda (w : Word) : OperandKept.Statement (.lda w) := fun _ => rfl
theorem OperandKept.ldb (w : Word) : OperandKept.Statement (.ldb w) := fun _ => rfl
theorem OperandKept.ldc (w : Word) : OperandKept.Statement (.ldc w) := fun _ => rfl
theorem OperandKept.sta (w : Word) : OperandKept.Statement (.sta w) := fun _ => rfl
theorem OperandKept.stb (w : Word) : OperandKept.Statement (.stb w) := fun _ => rfl
theorem OperandKept.stc (w : Word) : OperandKept.Statement (.stc w) := fun _ => rfl
theorem OperandKept.invalid (w0 w1 : Word) : OperandKept.Statement (.invalid w0 w1) := fun _ => rfl

end Sys2Proof.Laws
end

