-- ==== Sys2Proof/Laws/Step.lean ====
section
/-! SUPPORT. What a step can do, said once: the next event is admitted and its effect is the next state. -/

namespace Sys2Proof.Machine

variable {s t : State}

/-- The fetch of two words inside RAM (R111). -/
theorem fetch_of_lt (h : s.regs.ip.toNat + 1 < s.cfg.ramWords) :
    fetch s = .ok (s.mem.readWord s.regs.ip.toNat, s.mem.readWord (s.regs.ip.toNat + 1)) s := by
  unfold fetch
  rw [if_neg (by omega), memRead_of_lt (by omega), Ev.bind_ok, memRead_of_lt h, Ev.bind_ok]

/-- The fetch of words that are not both in RAM (R111). -/
theorem fetch_of_ge (h : s.cfg.ramWords ≤ s.regs.ip.toNat + 1) : fetch s = haltEvent .fetchRange s := if_pos h

/-- A CPU cycle is the fetch-range fault or the execution of the decoded instruction. -/
theorem cpuCycle_eq (s : State) :
    cpuCycle s =
      if s.cfg.ramWords ≤ s.regs.ip.toNat + 1 then .next (s.halt .fetchRange)
      else exec (decode s.cfg.opmapMode (s.mem.readWord s.regs.ip.toNat) (s.mem.readWord (s.regs.ip.toNat + 1))) s := by
  by_cases h : s.cfg.ramWords ≤ s.regs.ip.toNat + 1
  · rw [if_pos h, cpuCycle, fetch_of_ge h]
    rfl
  · rw [if_neg h, cpuCycle, fetch_of_lt (by omega)]

theorem hostEvent_of_admitted {e : HostEvent} (h : e.admitted s.phase = true) : hostEvent e s = eventEffect e s := if_pos h

theorem hostEvent_of_not_admitted {e : HostEvent} (h : e.admitted s.phase = false) :
    hostEvent e s = .refused (.eventNotAdmitted e s.phase) := by simp [hostEvent, h]

/-- A host event that has a next state was admitted. -/
theorem hostEvent_next {e : HostEvent} (h : hostEvent e s = .next t) :
    e.admitted s.phase = true ∧ eventEffect e s = .next t := by
  unfold hostEvent at h
  split at h
  · rename_i ha
    exact ⟨ha, h⟩
  · cases h

/-- A step that has a next state is the effect of the next event, which was admitted. -/
theorem step_next (h : step s = .next t) :
    s.nextEvent.admitted s.phase = true ∧ eventEffect s.nextEvent (s.setPending s.pending.tail) = .next t :=
  hostEvent_next h

/-- The instruction a CPU cycle runs, or the fetch-range fault. -/
theorem cpuCycle_next (h : cpuCycle s = .next t) : t = s.halt .fetchRange ∨ ∃ i, exec i s = .next t := by
  rw [cpuCycle_eq] at h
  split at h
  · cases h
    exact .inl rfl
  · exact .inr ⟨_, h⟩

/-- What a predicate that instructions keep needs besides, to be kept by the host's events. -/
structure HostKeeps (I : State → Prop) : Prop extends ExecKeeps I where
  replies : ∀ s rs, I s → I (s.setReplies rs)
  phase : ∀ s, I s → s.phase = .construct → I (s.setPhase .run)
  create : ∀ s a b c d, I s → s.phase = .construct → s.nextPid ≠ pidLimit →
    I ((s.setProcs (s.procs ++ [newProcess s.cfg (BitVec.ofNat 32 s.nextPid) a b c d])).setNextPid (s.nextPid + 1))
  acquire : ∀ s f rest, I s → s.pool = f :: rest → I (s.setPool rest)

/-- Every admitted event keeps what the primitive changes keep; a release of a frame must keep it too. -/
theorem HostKeeps.event {I : State → Prop} (k : HostKeeps I) {e : HostEvent} (ha : e.admitted s.phase = true)
    (h : I s)
    (hrel : ∀ f, e = .frameRelease f → s.cfg.isFrame f → f ∉ s.pool → I (s.setPool (f :: s.pool)))
    (ht : eventEffect e s = .next t) : I t := by
  cases e with
  | hostWrite pa v =>
    simp only [eventEffect, hostWrite] at ht
    split at ht
    · rename_i hlt
      rw [memWrite_of_lt hlt] at ht
      cases ht
      exact k.mem _ _ _ h hlt
    · cases ht
  | hostAlloc units =>
    refine Ev.All.next (R := I) (B := True) ?_ ht
    exact (k.allocateMemory h).bind fun r t ht => k.replies t _ ht
  | hostCreate a b c d =>
    have hc : s.phase = .construct := by simpa [HostEvent.admitted] using ha
    simp only [eventEffect, hostCreate] at ht
    split at ht
    · cases ht; exact k.halt _ _ h
    · rename_i hn
      cases ht
      exact k.replies _ _ (k.create s a b c d h hc hn)
  | start =>
    have hc : s.phase = .construct := by simpa [HostEvent.admitted] using ha
    simp only [eventEffect, start] at ht
    split at ht
    · cases ht; exact k.halt _ _ h
    · exact Ev.All.next (k.dispatchAll (k.phase s h hc)) ht
  | step =>
    rcases cpuCycle_next ht with rfl | ⟨i, hi⟩
    · exact k.halt _ _ h
    · exact k.exec i h hi
  | timer => exact Ev.All.next (k.vector .timer none h) ht
  | swi => exact Ev.All.next (k.vector .software none h) ht
  | frameAcquire =>
    cases ht
    unfold hostFrameAcquire
    cases hp : s.pool with
    | nil => rw [acquireFrame_nil hp]; exact k.replies _ _ h
    | cons f rest => rw [acquireFrame_cons hp]; exact k.replies _ _ (k.acquire s f rest h hp)
  | frameRelease f =>
    rcases releaseFrame_cases f s with ⟨-, e⟩ | ⟨hf, hn, e⟩
    · simp only [eventEffect, e] at ht; cases ht; exact k.halt _ _ h
    · simp only [eventEffect, e] at ht; cases ht; exact hrel f rfl hf hn
  | observe => cases ht; exact h

/-- Every step keeps what the primitive changes keep. -/
theorem HostKeeps.step {I : State → Prop} (k : HostKeeps I) (h : I (s.setPending s.pending.tail))
    (hrel : ∀ f, s.nextEvent = .frameRelease f → s.cfg.isFrame f → f ∉ s.pool →
      I ((s.setPending s.pending.tail).setPool (f :: s.pool)))
    (ht : Machine.step s = .next t) : I t :=
  k.event (s := s.setPending s.pending.tail) (step_next ht).1 h hrel (step_next ht).2

end Sys2Proof.Machine
end

