-- ==== Sys2Proof/Tests/Slice0.lean ====
section
/-! SUPPORT. Tests of the model. Each `test_` theorem is one check on a small state with the expected result taken from
the spec's words (95_test_vectors.md where a vector is named). The `test_witness_` theorems show that the hypotheses of the
statements in Certificates/Slice0/Obligations.lean can be met. -/

namespace Sys2Proof.Tests

open Sys2Proof.Machine

/-! ## Helpers -/

/-- The next state of an outcome. -/
def nextOf : Host.Outcome State Fault Refusal → Option State
  | .next t => some t
  | .fault _ => none
  | .refused _ => none

/-- The refusal of an outcome. -/
def refusalOf : Host.Outcome State Fault Refusal → Option Refusal
  | .next _ => none
  | .fault _ => none
  | .refused r => some r

/-- A register set. -/
def regsOf (a b c ip : Word) : Regs := { a := a, b := b, c := c, flags := 0, ip := ip, sp := 0 }

/-- A record with the extent `(0, 8)`, an empty page table and priority 0. -/
def proc (pid : Word) (st : ProcState) (burst : Word) : Process where
  pid := pid
  extStart := 0
  extSize := 8
  regs := regsOf 0 0 0 8
  pt := List.replicate 8 unmapped
  state := st
  prio := 0
  burst := burst

/-- RC in RUN with two processes, pid 0 running, pid 1 ready, and an allocator with no free block. -/
def two (policy : Policy) : State :=
  { State.resetWith (Config.rc policy 5) with
    phase := .run
    procs := [proc 0 .running 4, proc 1 .ready 2]
    livePt := some 0
    nextPid := 2
    rover := nil }

/-- The same with pid 0 alone. -/
def one (policy : Policy) : State := { two policy with procs := [proc 0 .running 4] }

/-- RAM words written. -/
def withWords (s : State) (ws : List (Nat × Word)) : State :=
  { s with mem := ws.foldl (fun m x => m.writeWord x.1 x.2) s.mem }

/-- The live registers set. -/
def withRegs (s : State) (r : Regs) : State := { s with regs := r }

/-- A page of the first process mapped, its frame taken from the pool. -/
def mapped (s : State) (page : Nat) (f : Word) : State :=
  { s with
    pool := s.pool.erase f
    procs := s.procs.mapIdx fun i p => if i = 0 then { p with pt := p.pt.set page f } else p }

/-- The DISJOINT map. -/
def disjoint (s : State) : State := { s with cfg := { s.cfg with opmapMode := .disjoint } }

/-- The other fault argument register. -/
def underRegA (s : State) : State := { s with cfg := { s.cfg with faultArgReg := .regA } }

/-- The next host event. -/
def given (s : State) (e : HostEvent) : State := { s with pending := [e] }

/-- PHASE and HALT_REASON. -/
def ending (s : State) : Phase × BitVec 8 := (s.phase, s.haltReason)

/-! ## WellFormed: each ill-formed term is refused -/

theorem test_wf_refuses_shadowed_lda : (Instr.lda 7).wf .precedence = false := by decide
theorem test_wf_refuses_shadowed_sta : (Instr.sta 7).wf .precedence = false := by decide
theorem test_wf_refuses_valid_word_as_invalid :
    (Instr.invalid 0x10 7).wf .precedence = false ∧ (Instr.invalid 0x23 7).wf .disjoint = false := by decide
theorem test_wf_accepts :
    (Instr.lda 7).wf .disjoint = true ∧ (Instr.sta 7).wf .disjoint = true ∧
      (Instr.invalid 0x23 7).wf .precedence = true ∧ (Instr.jmp 7).wf .precedence = true := by decide

/-! ## Decoding: words written from R95 (PRECEDENCE) and R96 (DISJOINT) -/

theorem test_decode_mova :
    decode .precedence 0x00000010 0x2A = .mova 0x2A ∧ decode .disjoint 0x00000010 0x2A = .mova 0x2A := by decide
theorem test_decode_movb :
    decode .precedence 0x00000011 0xFFFFFFFB = .movb 0xFFFFFFFB ∧
      decode .disjoint 0x00000011 0xFFFFFFFB = .movb 0xFFFFFFFB := by decide
theorem test_decode_movc :
    decode .precedence 0x00000012 7 = .movc 7 ∧ decode .disjoint 0x00000012 7 = .movc 7 := by decide
theorem test_decode_jmp :
    decode .precedence 0x00000020 4 = .jmp 4 ∧ decode .disjoint 0x00000020 4 = .jmp 4 := by decide
theorem test_decode_int :
    decode .precedence 0x00000030 1 = .int 1 ∧ decode .disjoint 0x00000030 1 = .int 1 := by decide
theorem test_decode_lda :
    decode .disjoint 0x00000023 0x2C = .lda 0x2C ∧ decode .precedence 0x00000023 0x2C = .invalid 0x23 0x2C := by decide
theorem test_decode_ldb :
    decode .precedence 0x00000021 0x2C = .ldb 0x2C ∧ decode .disjoint 0x00000021 0x2C = .ldb 0x2C := by decide
theorem test_decode_ldc :
    decode .precedence 0x00000022 0x2C = .ldc 0x2C ∧ decode .disjoint 0x00000022 0x2C = .ldc 0x2C := by decide
theorem test_decode_sta :
    decode .disjoint 0x00000033 3 = .sta 3 ∧ decode .precedence 0x00000033 3 = .invalid 0x33 3 := by decide
theorem test_decode_stb :
    decode .precedence 0x00000031 0x2C = .stb 0x2C ∧ decode .disjoint 0x00000031 0x2C = .stb 0x2C := by decide
theorem test_decode_stc :
    decode .precedence 0x00000032 0x3F = .stc 0x3F ∧ decode .disjoint 0x00000032 0x3F = .stc 0x3F := by decide
/-- R93's two words, and the zero word (R98). -/
theorem test_decode_invalid :
    decode .precedence 0x00000120 7 = .invalid 0x120 7 ∧ decode .disjoint 0x80000010 7 = .invalid 0x80000010 7 ∧
      decode .precedence 0 0 = .invalid 0 0 := by decide
theorem test_decode_words :
    decodeWords .precedence [0x10, 0x2A, 5] = .ok (.mova 0x2A, [5]) ∧
      decodeWords .precedence [0x10] = .error .truncated := ⟨rfl, rfl⟩
theorem test_decode_table_word :
    decodeTableWord 64 0x0000002A00000010 = some (.mova 0x2A) ∧ decodeTableWord 32 0x30 = some (.int 0) := by decide

/-! ## One step of each instruction -/

/-- V10. -/
theorem test_mova :
    (nextOf (step (withWords (one .fcfs) [(0, 0x10), (1, 0x2A)]))).map State.regs = some (regsOf 0x2A 0 0 2) := by decide
/-- V11. -/
theorem test_movb :
    (nextOf (step (withWords (one .fcfs) [(0, 0x11), (1, 0xFFFFFFFB)]))).map State.regs =
      some (regsOf 0 0xFFFFFFFB 0 2) := by decide
/-- V12. -/
theorem test_movc :
    (nextOf (exec (.movc 0) (withRegs (one .fcfs) (regsOf 1 2 7 8)))).map State.regs = some (regsOf 1 2 0 10) := by decide
/-- V14. -/
theorem test_jmp_backward :
    (nextOf (step (withRegs (withWords (one .fcfs) [(14, 0x20), (15, 0xFFFFFFFE)]) (regsOf 0 0 0 14)))).map
      State.regs = some (regsOf 0 0 0 12) := by decide
/-- V16: below zero `ip` wraps. -/
theorem test_jmp_wraps :
    (nextOf (exec (.jmp 0xFFFFFFF0) (withRegs (one .fcfs) (regsOf 0 0 0 4)))).map State.regs =
      some (regsOf 0 0 0 0xFFFFFFF4) := by decide
/-- V17: `ip` stays, the process is retired, the machine halts. -/
theorem test_int_last_process :
    (nextOf (exec (.int 1) (withRegs (one .fcfs) (regsOf 0 0 0 2)))).map (fun t => (ending t, t.regs.ip, t.procs)) =
      some ((.halted, 1), 2, []) := by decide
/-- V18. -/
theorem test_int_other_code :
    (nextOf (exec (.int 0) (one .fcfs))).map (fun t => (ending t, t.regs.ip, t.procs.length)) =
      some ((.halted, 18), 0, 1) := by decide
/-- R137's example. -/
theorem test_lda_hit :
    (nextOf (step (mapped (disjoint (withWords (one .fcfs) [(0, 0x23), (1, 0x2C), (60, 7)])) 5 56))).map
      State.regs = some (regsOf 7 0 0 2) := by decide
/-- R138's example: the miss maps page 5 and leaves `b` and `ip`. -/
theorem test_ldb_miss :
    (nextOf (exec (.ldb 0x2C) (withRegs (one .fcfs) (regsOf 0 9 0 0)))).map
        (fun t => (t.regs, t.pool.head?, t.liveEntry 5)) = some (regsOf 0 9 0 0, some 48, some 56) := by decide
/-- V25: virtual address 64. -/
theorem test_ldb_out_of_range :
    (nextOf (exec (.ldb 64) (one .fcfs))).map (fun t => (ending t, t.regs.ip)) = some ((.halted, 17), 0) := by decide
/-- V24. -/
theorem test_ldc_hit :
    (nextOf (exec (.ldc 44) (withRegs (mapped (withWords (one .fcfs) [(60, 7)]) 5 56) (regsOf 0 0 0 4)))).map
      State.regs = some (regsOf 0 0 7 6) := by decide
/-- R140's example. -/
theorem test_sta_hit :
    (nextOf (exec (.sta 3) (withRegs (mapped (one .fcfs) 0 56) (regsOf 5 0 0 0)))).map
        (fun t => (t.mem.readWord 59, t.regs.ip)) = some (5, 2) := by decide
/-- V23, step 2. -/
theorem test_stb_hit :
    (nextOf (exec (.stb 44) (withRegs (mapped (one .fcfs) 5 56) (regsOf 0 7 0 2)))).map
        (fun t => (t.mem.readWord 60, t.regs)) = some (7, regsOf 0 7 0 4) := by decide
/-- V28: REG_A with a large `a` faults PT_RANGE and leaves `b` and the pool. -/
theorem test_stb_reg_a :
    (nextOf (exec (.stb 44) (withRegs (underRegA (one .fcfs)) (regsOf 9 1 0 2)))).map
        (fun t => (ending t, t.regs, t.pool.length)) = some ((.halted, 20), regsOf 9 1 0 2, 8) := by decide
/-- R142's example. -/
theorem test_stc_hit :
    (nextOf (exec (.stc 0x3F) (withRegs (mapped (one .fcfs) 7 48) (regsOf 0 0 0xFFFFFFFF 0)))).map
        (fun t => (t.mem.readWord 55, t.regs.ip)) = some (0xFFFFFFFF, 2) := by decide
/-- V19. -/
theorem test_invalid :
    (nextOf (step (withRegs (one .fcfs) (regsOf 0 0 0 6)))).map (fun t => (t.regs.ip, t.trace)) =
      some (8, [.invalidOpcode 6 0]) := by decide
/-- V22: `ip = 63` cannot be fetched in RC. -/
theorem test_fetch_range :
    (nextOf (step (withRegs (one .fcfs) (regsOf 0 0 0 63)))).map ending = some (.halted, 16) := by decide

/-! ## Handlers -/

/-- R175: SJF dispatches the shorter burst, here pid 2. -/
theorem test_sjf :
    (nextOf (exec (.int 1) { two .sjf with procs := [proc 0 .running 1, proc 1 .ready 4, proc 2 .new 3] })).map
        (fun t => (t.livePt, t.cur)) = some (some 2, 1) := by decide
/-- V2: the fifth tick switches, and the live registers are saved. -/
theorem test_rr_timer :
    (nextOf (step { given (withRegs (two .rr) (regsOf 0x2A 0 0 2)) .timer with ticks := 4 })).map
        (fun t => (t.cur, t.ticks, t.regs.ip, t.procs.map fun p => (p.regs.a, p.state))) =
      some (1, 0, 8, [(0x2A, .ready), (0, .running)]) := by decide
/-- R168: RR frees the extent `(0, 8)`, then dispatches the process at the same wrapped index. -/
theorem test_rr_software :
    (nextOf (exec (.int 1) (two .rr))).map
        (fun t => (t.livePt, t.rover, t.mem.readWord 0, t.mem.readWord 1)) = some (some 1, 0, 0, 8) := by decide
/-- R169: the outgoing process is demoted, the top promoted. -/
theorem test_prio_timer :
    (nextOf (step { given (two .prio) .timer with ticks := 4 })).map (fun t => t.procs.map Process.prio) =
      some [0xFFFFFFFF, 1] := by decide
/-- R170: request 2 sets the priority and leaves `ip`; another request is UNDEF_SYSCALL. -/
theorem test_prio_syscall :
    (nextOf (exec (.int 1) (withRegs (two .prio) (regsOf 2 7 0 4)))).map (fun t => (t.procs.map Process.prio, t.regs.ip)) =
        some ([7, 0], 4) ∧
      (nextOf (exec (.int 1) (withRegs (two .prio) (regsOf 3 7 0 4)))).map ending = some (.halted, 19) := by decide

/-! ## Host events, the allocator and the pool -/

/-- V1, step 0: HOST_ALLOC(2). -/
theorem test_host_alloc :
    (nextOf (step (given State.reset (.hostAlloc 2)))).map
        (fun t => (t.replies, t.mem.readWord 2, t.mem.readWord 3, t.rover)) = some ([.extent 0 2], 2, 30, 2) := by decide
/-- V36: a request larger than the range. -/
theorem test_host_alloc_no_fit :
    (nextOf (step (given State.reset (.hostAlloc 33)))).map (fun t => (t.replies, t.mem == State.reset.mem)) =
      some ([.extent 0xFFFFFFFF 0], true) := by decide
/-- R74: freeing the block between two free ones joins all three. -/
theorem test_free_joins_both :
    (nextOf (freeExtent 4 4
        { withWords State.reset [(0, 8), (1, 4), (8, 0), (9, 24)] with rover := 0 }).outcome).map
        (fun t => (t.rover, t.mem.readWord 0, t.mem.readWord 1)) = some (0, 0, 32) := by decide
/-- V30 and V32. -/
theorem test_pool :
    (nextOf (step (given State.reset .frameAcquire))).map (fun t => (t.replies, t.pool.head?)) =
        some ([.frame 56], some 48) ∧
      (nextOf (step (given State.reset (.frameRelease 17)))).map ending = some (.halted, 21) ∧
      (nextOf (step (given State.reset (.frameRelease 56)))).map ending = some (.halted, 21) := by decide
/-- R190: STEP has no transition before START, nor in HALTED. -/
theorem test_refusals :
    refusalOf (step State.reset) = some (.eventNotAdmitted .step .construct) ∧
      refusalOf (step { State.reset with phase := .halted }) = some (.eventNotAdmitted .step .halted) ∧
      refusalOf (step (given State.reset (.hostWrite 64 1))) = some (.hostWriteRange 64) := by decide
/-- R204 and R205: a created process is New with `ip` at its extent, and START dispatches it. -/
theorem test_create_and_start :
    ((nextOf (step (given State.reset (.hostCreate 6 2 2 0)))).bind fun s =>
        (nextOf (step (given s .start))).map fun t => (t.regs.ip, t.phase, t.procs.map Process.state)) =
      some (6, .run, [.running]) := by decide
/-- V1: construction of the image `[0x10, 0x2A]`, then one STEP. -/
theorem test_scenario_a :
    ((nextOf (construct [[0x10, 0x2A]] State.reset)).bind fun s =>
        (nextOf (step s)).map fun t => (t.regs.a, t.regs.ip)) = some (0x2A, 2) := by decide

/-! ## The host's fetch word, images and assembler -/

theorem test_with_fetch_word :
    (nextOf (step (State.reset.withFetchWord 64 0x0000002A00000010))).map (fun t => t.regs.a) = some 0x2A ∧
      (nextOf (step (State.reset.withFetchWord 64 0x0000000100000030))).map ending = some (.halted, 1) ∧
      (nextOf (step (State.reset.withFetchWord 64 0x0000002C00000031))).map (fun t => t.pool.head?) =
        some (some 48) := by decide
/-- R103. -/
theorem test_image : imageWords [0x10, 0, 0, 0, 0x2A, 1, 0, 0x80] = some [0x10, 0x8000012A] ∧
    imageWords [1, 2, 3] = none := by decide
/-- R101. -/
theorem test_assembler :
    (parseLine "LDB [0x2C]").map (AsmLine.words .precedence) = some [0x21, 0x2C] ∧
      (parseLine "JMP -2").map (AsmLine.words .precedence) = some [0x20, 0xFFFFFFFE] ∧
      (parseLine ".word 9").map (AsmLine.words .disjoint) = some [9] ∧ parseLine "LDB 44" = none := by decide

/-! ## Witnesses: the hypotheses of every statement that has some -/

theorem next_of_isSome {x : Host.Outcome State Fault Refusal} (h : (nextOf x).isSome = true) : ∃ t, x = .next t := by
  cases x with
  | next t => exact ⟨t, rfl⟩
  | fault f => cases h
  | refused r => cases h

/-- `LDB [0x2C]` at 40 and 41, `ip` there. -/
def atLoad : State := withRegs (withWords (one .fcfs) [(40, 0x21), (41, 0x2C)]) (regsOf 0 0 0 40)

/-- The RR and PRIO states one tick before the quantum. -/
def beforeQuantum (policy : Policy) : State := { given (two policy) .timer with ticks := 4 }

/-- The invariant of a small state, its clauses over words checked by `List.all`. -/
theorem inv_of_checks {s : State}
    (h : (s.pool.all fun f => decide (s.cfg.isFrame f)) = true ∧
      (s.procs.all fun p => p.pt.all fun e => decide (e = unmapped ∨ s.cfg.isFrame e)) = true)
    (h0 : s.cfg.wf ∧ s.mem.wf ∧ (∀ x ∈ s.mem, x.1 < 4 * s.cfg.ramWords) ∧ s.pool.Nodup ∧
      (∀ p ∈ s.procs, p.pt.length = s.cfg.ptEntries))
    (h1 : s.procs.Pairwise (fun p q => p.pid.toNat < q.pid.toNat) ∧ (∀ p ∈ s.procs, p.pid.toNat < s.nextPid) ∧
      s.nextPid ≤ pidLimit ∧ s.vec = vectorsOf s.cfg.policy)
    (h2 : (s.haltReason = 0 ↔ s.phase ≠ .halted) ∧ s.haltReason ∈ legalReasons ∧ s.phase = .run ∧
      s.livePt ≠ none ∧ (s.procs[s.cur]?).map Process.pid = s.livePt ∧
      (∀ p ∈ s.procs, p.state = .running ↔ s.livePt = some p.pid) ∧
      ∀ p ∈ s.procs, p.state ≠ .waiting ∧ p.state ≠ .terminated) : s.Inv where
  cfg_wf := h0.1
  mem_wf := h0.2.1
  mem_range := h0.2.2.1
  pool_nodup := h0.2.2.2.1
  pool_frames := fun f hf => by simpa using List.all_eq_true.mp h.1 f hf
  pt_size := h0.2.2.2.2
  pt_frames := fun p hp e he => by simpa using List.all_eq_true.mp (List.all_eq_true.mp h.2 p hp) e he
  pids_rise := h1.1
  pids_below := h1.2.1
  nextPid_le := h1.2.2.1
  vec_policy := h1.2.2.2
  reason_phase := h2.1
  reason_legal := h2.2.1
  construct_new := fun hc => by rw [h2.2.2.1] at hc; cases hc
  run_cur := fun _ => ⟨h2.2.2.2.1, h2.2.2.2.2.1⟩
  run_running := fun _ => h2.2.2.2.2.2.1
  states_legal := h2.2.2.2.2.2.2

theorem inv_one : (one .fcfs).Inv := by apply inv_of_checks <;> decide
theorem inv_atLoad : atLoad.Inv := by apply inv_of_checks <;> decide
theorem inv_beforeQuantum : (beforeQuantum .rr).Inv := by apply inv_of_checks <;> decide
theorem inv_mapped : (mapped (one .fcfs) 7 56).Inv := by apply inv_of_checks <;> decide

theorem test_witness_decodeInvertsEncode :
    (Instr.sta 7).wf .disjoint = true ∧ (Instr.invalid 0x33 7).wf .precedence = true := by decide
theorem test_witness_disjointKeepsPrecedence : decode .precedence 0x22 4 ≠ .invalid 0x22 4 := by decide
/-- The last two words of RAM. -/
theorem test_witness_stepRunsDecodedInstr :
    let s := withRegs (withWords (one .fcfs) [(62, 0x32), (63, 0x3F)]) (regsOf 0 0 0 62)
    s.phase = .run ∧ s.nextEvent = .step ∧ s.regs.ip.toNat + 1 < s.cfg.ramWords ∧
      (Instr.stc 0x3F).wf s.cfg.opmapMode = true ∧ s.mem.readWord 62 = (encode s.cfg.opmapMode (.stc 0x3F)).1 ∧
      s.mem.readWord 63 = (encode s.cfg.opmapMode (.stc 0x3F)).2 := by decide
theorem test_witness_fetch :
    (let s := withRegs (one .fcfs) (regsOf 0 0 0 63)
     s.phase = .run ∧ s.nextEvent = .step ∧ s.cfg.ramWords ≤ s.regs.ip.toNat + 1) ∧
    (let s := withRegs (one .fcfs) (regsOf 0 0 0 62)
     s.phase = .run ∧ s.nextEvent = .step ∧ s.regs.ip.toNat + 1 < s.cfg.ramWords) := by decide
theorem test_witness_haltedIsFinal :
    let s := { given (one .fcfs) .observe with phase := .halted, haltReason := 1 }
    s.phase = .halted ∧ ∃ t, step s = .next t := ⟨rfl, next_of_isSome (by decide)⟩
theorem test_witness_intOtherCode : (0 : Word) ≠ 1 ∧ (2 : Word) ≠ 1 := by decide
theorem test_witness_intUnderFcfs :
    (∀ s ∈ [one .fcfs, two .fcfs], s.vec.software = .swiFcfs ∧ s.cur < s.procs.length) ∧
      (one .fcfs).procs.eraseIdx (one .fcfs).cur = [] ∧
      (two .fcfs).procs.eraseIdx (two .fcfs).cur = proc 1 .ready 2 :: [] := by decide
theorem test_witness_intUnderSjf :
    (∀ s ∈ [one .sjf, two .sjf], s.vec.software = .swiSjf ∧ s.cur < s.procs.length) ∧
      (one .sjf).procs.eraseIdx (one .sjf).cur = [] ∧ (two .sjf).procs.eraseIdx (two .sjf).cur ≠ [] := by decide
/-- A heap fault on an extent that overlaps a free block, and both ends of a retirement after a good free. -/
theorem test_witness_intUnderRr :
    (let s := { one .rr with rover := 0 }
     s.vec.software = .swiRr ∧ s.procs[s.cur]? = some (proc 0 .running 4) ∧ ∃ u, freeExtent 0 8 s.atInt = .ended u) ∧
    (let s := one .rr
     s.vec.software = .swiRr ∧ s.procs[s.cur]? = some (proc 0 .running 4) ∧
       ∃ u, freeExtent 0 8 s.atInt = .ok () u ∧ s.cur < u.procs.length ∧ u.procs.eraseIdx s.cur = []) ∧
    (let s := two .rr
     s.vec.software = .swiRr ∧ s.procs[s.cur]? = some (proc 0 .running 4) ∧
       ∃ u q, freeExtent 0 8 s.atInt = .ok () u ∧ s.cur < u.procs.length ∧
         (u.procs.eraseIdx s.cur)[s.cur % (u.procs.eraseIdx s.cur).length]? = some q) :=
  ⟨⟨rfl, rfl, ⟨_, rfl⟩⟩, ⟨rfl, rfl, ⟨_, rfl, by decide, rfl⟩⟩, rfl, rfl, ⟨_, _, rfl, by decide, rfl⟩⟩
theorem test_witness_intUnderPrio :
    let s := fun st a => withRegs st (regsOf a 0 0 0)
    (∀ t ∈ [s (one .prio) 1, s (two .prio) 1, s (one .prio) 2, s (one .prio) 0, s (one .prio) 3],
      t.vec.software = .swiPrio ∧ t.procs[t.cur]? = some (proc 0 .running 4)) ∧
      ((s (one .prio) 1).regs.a = 1 ∧ (s (one .prio) 1).procs.eraseIdx 0 = []) ∧
      ((s (two .prio) 1).regs.a = 1 ∧ (s (two .prio) 1).procs.eraseIdx 0 ≠ []) ∧ (s (one .prio) 2).regs.a = 2 ∧
      ∀ t ∈ [s (one .prio) 0, s (one .prio) 3], t.regs.a ≠ 1 ∧ t.regs.a ≠ 2 := by decide
/-- Both settings of INT_IP_ADVANCE; with it, SWI leaves the `ip` that the handler saves where it is. -/
theorem test_witness_swiEvent :
    let s := given (two .sjf) .swi
    (s.phase = .run ∧ s.nextEvent = .swi ∧ s.cfg.intIpAdvance = false) ∧
      let u := { given (withRegs (one .prio) (regsOf 2 7 0 4)) .swi with
        cfg := { (one .prio).cfg with intIpAdvance := true } }
      u.phase = .run ∧ u.nextEvent = .swi ∧
        (nextOf (step u)).map (fun t => t.regs.ip) = some 4 ∧
        (nextOf (exec (.int 1) u.tookEvent)).map (fun t => t.regs.ip) = some 6 := by decide
/-- A miss that takes a frame, and each of the three halts. -/
theorem test_witness_onlyIntChangesControlState :
    (∀ code, Instr.ldb 5 ≠ .int code) ∧ (one .fcfs).vec.pageFault = .pf ∧
      (∃ t, exec (.ldb 5) (one .fcfs) = .next t) ∧
      (nextOf (exec (.ldb 5) { one .fcfs with pool := [] })).map ending = some (.halted, 2) ∧
      (nextOf (exec (.ldb 64) (one .fcfs))).map ending = some (.halted, 17) ∧
      (nextOf (exec (.ldb 5) (underRegA (withRegs (one .fcfs) (regsOf 8 0 0 0))))).map ending =
        some (.halted, 20) :=
  ⟨by simp, rfl, next_of_isSome (by decide), by decide, by decide, by decide⟩
/-- The last word of the last page, in the last frame of RAM. -/
theorem test_witness_loadStoreHit :
    let s := mapped (one .fcfs) 7 56
    let addr : Word := 63
    s.mem.wf ∧ addr.toNat / s.cfg.pageSize < s.cfg.ptEntries ∧ s.liveEntry (addr.toNat / s.cfg.pageSize) = some 56 ∧
      (56 : Word) ≠ unmapped ∧ (56 : Word).toNat + addr.toNat % s.cfg.pageSize < s.cfg.ramWords := by decide
theorem test_witness_accessOutsidePageTable :
    (one .fcfs).cfg.ptEntries ≤ (64 : Word).toNat / (one .fcfs).cfg.pageSize := by decide
theorem test_witness_pageFaultMaps :
    let s := one .fcfs
    s.vec.pageFault = .pf ∧ (63 : Word).toNat / s.cfg.pageSize < s.cfg.ptEntries ∧
      s.liveEntry ((63 : Word).toNat / s.cfg.pageSize) = some unmapped ∧ s.pool = 56 :: [48, 40, 32, 24, 16, 8, 0] ∧
      (56 : Word) ≠ noFrame ∧ Instr.stc 63 ∈ accessInstrs 63 ∧ s.cfg.faultArgReg = .instrReg := by decide
theorem test_witness_pageFaultWithoutFrame :
    let s := { underRegA (one .fcfs) with pool := [] }
    s.vec.pageFault = .pf ∧ (0 : Word).toNat / s.cfg.pageSize < s.cfg.ptEntries ∧
      s.liveEntry ((0 : Word).toNat / s.cfg.pageSize) = some unmapped ∧ s.pool = [] ∧
      Instr.lda 0 ∈ accessInstrs 0 := by decide
/-- `a = 8` is out of range, `a = 7` the last page. -/
theorem test_witness_pageFaultUnderRegA :
    let s := fun a pool => { underRegA (withRegs (one .fcfs) (regsOf a 0 0 0)) with pool := pool }
    (∀ t ∈ [s 8 [56], s 7 [], s 7 [56, 48]],
      t.vec.pageFault = .pf ∧ t.cfg.faultArgReg = .regA ∧ (44 : Word).toNat / t.cfg.pageSize < t.cfg.ptEntries ∧
        t.liveEntry ((44 : Word).toNat / t.cfg.pageSize) = some unmapped) ∧
      (s 8 [56]).cfg.ptEntries ≤ (s 8 [56]).regs.a.toNat ∧
      ((s 7 []).regs.a.toNat < (s 7 []).cfg.ptEntries ∧ (s 7 []).pool = []) ∧
      (s 7 [56, 48]).regs.a.toNat < (s 7 [56, 48]).cfg.ptEntries ∧ (s 7 [56, 48]).pool = 56 :: [48] ∧
      (56 : Word) ≠ noFrame ∧ (s 7 [56, 48]).liveEntry (s 7 [56, 48]).regs.a.toNat = some unmapped := by decide
theorem test_witness_pageFaultRetry :
    atLoad.Inv ∧ atLoad.phase = .run ∧ atLoad.nextEvent = .step ∧ atLoad.tookEvent.nextEvent = .step ∧
      atLoad.regs.ip.toNat + 1 < atLoad.cfg.ramWords ∧
      decode atLoad.cfg.opmapMode (atLoad.mem.readWord atLoad.regs.ip.toNat)
        (atLoad.mem.readWord (atLoad.regs.ip.toNat + 1)) = .ldb 0x2C ∧
      Instr.ldb 0x2C ∈ accessInstrs 0x2C ∧ atLoad.cfg.faultArgReg = .instrReg ∧
      (0x2C : Word).toNat / atLoad.cfg.pageSize < atLoad.cfg.ptEntries ∧
      atLoad.liveEntry ((0x2C : Word).toNat / atLoad.cfg.pageSize) = some unmapped ∧ atLoad.pool ≠ [] :=
  ⟨inv_atLoad, by decide⟩
theorem test_witness_everyInstruction : (one .fcfs).Inv ∧ (one .fcfs).phase = .run := ⟨inv_one, rfl⟩
/-- A step with a next state, for the statements whose one hypothesis that is. -/
theorem test_witness_anyStep : ∃ t, step (beforeQuantum .rr) = .next t := next_of_isSome (by decide)
theorem test_witness_nopTimer :
    (given (two .sjf) .timer).phase = .run ∧ (given (two .sjf) .timer).nextEvent = .timer ∧
      (given (two .sjf) .timer).vec.timer = .nop := by decide
/-- One tick short of the quantum, the quantum with two processes, and the quantum with one. -/
theorem test_witness_roundRobinTimer :
    let short := { given (two .rr) .timer with ticks := 3 }
    let alone := { given (one .rr) .timer with ticks := 4 }
    (∀ s ∈ [short, alone, beforeQuantum .rr],
      s.phase = .run ∧ s.nextEvent = .timer ∧ s.vec.timer = .tmrRr ∧ s.procs[s.cur]? = some (proc 0 .running 4)) ∧
      (∀ s ∈ [short, alone], ¬ (s.cfg.quantum.toNat ≤ (s.ticks + 1).toNat ∧ 1 < s.procs.length)) ∧
      let s := beforeQuantum .rr
      s.cfg.quantum.toNat ≤ (s.ticks + 1).toNat ∧ 1 < s.procs.length ∧
        s.procs[(s.cur + 1) % s.procs.length]? = some (proc 1 .ready 2) := by decide
theorem test_witness_priorityTimer :
    let short := { given (two .prio) .timer with ticks := 3 }
    (∀ s ∈ [short, beforeQuantum .prio],
      s.phase = .run ∧ s.nextEvent = .timer ∧ s.vec.timer = .tmrPrio ∧ s.procs[s.cur]? = some (proc 0 .running 4)) ∧
      (short.ticks + 1).toNat < short.cfg.quantum.toNat ∧
      (beforeQuantum .prio).cfg.quantum.toNat ≤ ((beforeQuantum .prio).ticks + 1).toNat := by decide
theorem test_witness_preemption :
    (beforeQuantum .rr).Inv ∧ (beforeQuantum .rr).phase = .run ∧ (beforeQuantum .rr).nextEvent = .timer ∧
      ∃ t, step (beforeQuantum .rr) = .next t ∧ t.livePt ≠ (beforeQuantum .rr).livePt := by
  refine ⟨inv_beforeQuantum, rfl, rfl, ?_⟩
  obtain ⟨t, ht⟩ := next_of_isSome (x := step (beforeQuantum .rr)) (by decide)
  have h : (nextOf (step (beforeQuantum .rr))).map State.livePt = some (some 1) := by decide
  rw [ht] at h
  exact ⟨t, ht, by rw [Option.some.inj h]; decide⟩
/-- RC, and the smallest configuration R6 admits. -/
theorem test_witness_configs :
    (Config.rc .prio 1).wf ∧ ({ Config.rc .fcfs 1 with ramWords := 2, pageSize := 1, heapWords := 2 } : Config).wf := by
  decide
theorem test_witness_hostWrite :
    (let s := given (one .fcfs) (.hostWrite 63 5)
     s.nextEvent = .hostWrite 63 5 ∧ s.phase ≠ .construct) ∧
    (let s := given State.reset (.hostWrite 64 5)
     s.nextEvent = .hostWrite 64 5 ∧ s.phase = .construct ∧ s.cfg.ramWords ≤ (64 : Word).toNat) ∧
    (let s := given State.reset (.hostWrite 63 5)
     s.nextEvent = .hostWrite 63 5 ∧ s.phase = .construct ∧ (63 : Word).toNat < s.cfg.ramWords ∧ s.mem.wf) := by
  decide
theorem test_witness_hostCreate :
    (let s := given (one .fcfs) (.hostCreate 0 2 2 0)
     s.nextEvent = .hostCreate 0 2 2 0 ∧ s.phase ≠ .construct) ∧
    (∀ n ∈ [2 ^ 32, 2 ^ 32 - 1],
      let s := { given State.reset (.hostCreate 0 2 2 0) with nextPid := n }
      s.phase = .construct ∧ s.nextEvent = .hostCreate 0 2 2 0 ∧ (s.nextPid = 2 ^ 32 ↔ n = 2 ^ 32)) := by decide
theorem test_witness_start :
    ((given (one .fcfs) .start).nextEvent = .start ∧ (given (one .fcfs) .start).phase ≠ .construct) ∧
    let s := { given State.reset .start with procs := [proc 0 .new 1] }
    (∀ t ∈ [given State.reset .start, s], t.phase = .construct ∧ t.nextEvent = .start) ∧
      (given State.reset .start).procs = [] ∧ s.procs = proc 0 .new 1 :: [] := by decide
theorem test_witness_frameAcquire :
    let s := { given (one .rr) .frameAcquire with pool := [] }
    (∀ t ∈ [given State.reset .frameAcquire, s], t.phase ≠ .halted ∧ t.nextEvent = .frameAcquire) ∧ s.pool = [] ∧
      (given State.reset .frameAcquire).pool = 56 :: [48, 40, 32, 24, 16, 8, 0] := by decide
theorem test_witness_frameRelease :
    (∀ f ∈ ([17, 64, 56] : List Word).map BitVec.toNat,
      let s := given State.reset (.frameRelease (BitVec.ofNat 32 f))
      s.phase ≠ .halted ∧ s.nextEvent = .frameRelease (BitVec.ofNat 32 f) ∧
        (f % s.cfg.pageSize ≠ 0 ∨ s.cfg.ramWords ≤ f ∨ BitVec.ofNat 32 f ∈ s.pool)) ∧
    (let s := given (mapped (one .fcfs) 7 56) (.frameRelease 56)
     s.phase ≠ .halted ∧ s.nextEvent = .frameRelease 56 ∧ (56 : Word).toNat % s.cfg.pageSize = 0 ∧
       (56 : Word).toNat < s.cfg.ramWords ∧ (56 : Word) ∉ s.pool) := by decide
theorem test_witness_degenerateRequest :
    (0 : Word).toNat = 0 ∧ State.reset.cfg.heapWords.toNat < (33 : Word).toNat ∧ (one .fcfs).rover = nil := by decide
/-- The largest request that splits and the smallest that takes the whole block; a request that does not fit. -/
theorem test_witness_allocation :
    State.reset.livePt = none ∧ (∃ t, allocateMemory 29 State.reset = .ok (some (0, 29)) t) ∧
      (∃ t, allocateMemory 30 State.reset = .ok (some (0, 32)) t) ∧
      ∃ t, allocateMemory 33 State.reset = .ok none t := ⟨rfl, ⟨_, rfl⟩, ⟨_, rfl⟩, ⟨_, rfl⟩⟩
/-- The event of an allocation that splits, of one that finds no block, and of one that faults; and outside CONSTRUCT. -/
theorem test_witness_hostAlloc :
    (∀ u ∈ [2, 32, 33],
      let s := given State.reset (.hostAlloc (BitVec.ofNat 32 u))
      s.nextEvent = .hostAlloc (BitVec.ofNat 32 u) ∧ s.phase = .construct ∧ s.livePt = none) ∧
      (∃ t, allocateMemory 2 (given State.reset (.hostAlloc 2)).tookEvent = .ok (some (0, 2)) t) ∧
      (∃ t, allocateMemory 33 (given State.reset (.hostAlloc 33)).tookEvent = .ok none t) ∧
      (∃ t, allocateMemory 2 { given State.reset (.hostAlloc 2) with rover := 40 }.tookEvent = .ended t) ∧
      (given (one .fcfs) (.hostAlloc 2)).nextEvent = .hostAlloc 2 ∧ (given (one .fcfs) (.hostAlloc 2)).phase ≠ .construct :=
  ⟨by decide, ⟨_, rfl⟩, ⟨_, rfl⟩, ⟨_, rfl⟩, rfl, by decide⟩
theorem heapTiled_reset : State.reset.heapTiled [(0, 32)] [] where
  ascending := by decide
  header_fits := by decide
  headers := ⟨rfl, rfl⟩
  rover := .inr ⟨(0, 32), by decide, rfl⟩
  tiled := ⟨[(0, 32)], .refl _, rfl, by decide, rfl⟩
theorem test_witness_allocationKeepsTiling :
    State.reset.cfg.wf ∧ State.reset.mem.wf ∧ State.reset.livePt = none ∧ State.reset.heapTiled [(0, 32)] [] ∧
      noneAdjacent [(0, 32)] ∧ ∃ t, allocateMemory 29 State.reset = .ok (some (0, 29)) t :=
  ⟨by decide, by decide, rfl, heapTiled_reset, by unfold noneAdjacent; decide, ⟨_, rfl⟩⟩
/-- A live extent between two free blocks, with ROVER at the upper one. -/
def holed : State := { withWords State.reset [(0, 8), (1, 4), (8, 0), (9, 24)] with rover := 8 }
theorem heapTiled_holed : holed.heapTiled [(0, 4), (8, 24)] [(4, 4)] where
  ascending := by decide
  header_fits := by decide
  headers := ⟨⟨rfl, rfl⟩, rfl, rfl⟩
  rover := .inr ⟨(8, 24), by decide, rfl⟩
  tiled := ⟨[(0, 4), (4, 4), (8, 24)], by decide, rfl, by decide, rfl, by decide, rfl, by decide, rfl⟩
theorem test_witness_freeKeepsTiling :
    holed.cfg.wf ∧ holed.mem.wf ∧ holed.cfg.allocXlate = false ∧ holed.heapTiled [(0, 4), (8, 24)] [(4, 4)] ∧
      noneAdjacent [(0, 4), (8, 24)] ∧ 2 ≤ 4 :=
  ⟨by decide, by decide, rfl, heapTiled_holed, by unfold noneAdjacent; decide, by decide⟩
/-- Requests of 4 (the block after ROVER's, whole), 5 (ROVER's own block, split) and 25 (no block) words; and the one block
of the reset state, split and whole. -/
theorem test_witness_allocationIsNextFit :
    holed.cfg.wf ∧ holed.livePt = none ∧ holed.heapTiled ([(0, 4)] ++ (8, 24) :: []) [(4, 4)] ∧
      holed.rover = BitVec.ofNat 32 8 ∧ (∀ u ∈ [4, 5, 25], 0 < u ∧ u ≤ holed.cfg.heapWords.toNat ∧ u = max u 2) ∧
      ([] ++ [(0, 4)] ++ [(8, 24)] = [] ++ (0, 4) :: [(8, 24)] ∧ 4 ≤ 4) ∧
      ([] ++ [(0, 4)] ++ [(8, 24)] = [(0, 4)] ++ (8, 24) :: [] ∧ (∀ x ∈ [(0, 4)], x.2 < 5) ∧ 5 ≤ 24) ∧
      (∀ x ∈ [(0, 4)] ++ (8, 24) :: [], x.2 < 25) ∧
      State.reset.heapTiled ([] ++ (0, 32) :: []) [] ∧ State.reset.rover = BitVec.ofNat 32 0 ∧ 29 ≤ 32 ∧ 30 ≤ 32 :=
  ⟨by decide, rfl, heapTiled_holed, rfl, by decide, by decide, by decide, by decide, heapTiled_reset, by decide⟩
/-- What the model does on those requests: R73's answers and ROVER. -/
theorem test_next_fit :
    [4, 5, 25].map (fun u => (nextOf (step (given holed (.hostAlloc (BitVec.ofNat 32 u))))).map
        fun t => (t.replies, t.rover)) =
      [some ([.extent 0 4], 8), some ([.extent 8 5], 0), some ([.extent 0xFFFFFFFF 0], 8)] := by decide
theorem test_witness_allocatorWritesOnlyTheHeap :
    (State.reset.cfg.allocXlate = false ∨ State.reset.livePt = none) ∧
      (∃ r t, allocateMemory 2 State.reset = .ok r t) ∧
      (∃ t, allocateMemory 2 { State.reset with rover := 40 } = .ended t) ∧
      (∃ t, freeExtent 0 8 (one .rr) = .ok () t) ∧ ∃ t, freeExtent 0 1 (one .rr) = .ended t :=
  ⟨.inr rfl, ⟨_, _, rfl⟩, ⟨_, rfl⟩, ⟨_, rfl⟩, ⟨_, rfl⟩⟩
/-- The invariant, the frames and the release of a frame that no entry maps; a mapped page that a step keeps. -/
theorem test_witness_invariantStep :
    (beforeQuantum .rr).Inv ∧ (∃ t, step (beforeQuantum .rr) = .next t) ∧ (beforeQuantum .rr).reservedZero :=
  ⟨inv_beforeQuantum, next_of_isSome (by decide), by decide⟩
theorem test_witness_framesHeldOnce :
    let s := given (mapped (one .fcfs) 7 56) (.frameRelease 48)
    s.Inv ∧ s.framesHeldOnce ∧ (48 : Word) ∉ s.mappedFrames ∧ ∃ t, step s = .next t :=
  ⟨{ inv_mapped with }, by decide, by decide, next_of_isSome (by decide)⟩
theorem test_witness_mappedPagesStay :
    let s := mapped (one .fcfs) 7 56
    s.Inv ∧ ∃ t, step s = .next t ∧ ∃ p ∈ s.procs, ∃ q ∈ t.procs, q.pid = p.pid ∧ p.pt[7]? = some 56 := by
  refine ⟨inv_mapped, ?_⟩
  obtain ⟨t, ht⟩ := next_of_isSome (x := step (mapped (one .fcfs) 7 56)) (by decide)
  have h : (nextOf (step (mapped (one .fcfs) 7 56))).map State.procs = some (mapped (one .fcfs) 7 56).procs := by decide
  rw [ht] at h
  have h' : t.procs = (mapped (one .fcfs) 7 56).procs := Option.some.inj h
  refine ⟨t, ht, { proc 0 .running 4 with pt := (List.replicate 8 unmapped).set 7 56 }, by decide, ?_⟩
  exact ⟨{ proc 0 .running 4 with pt := (List.replicate 8 unmapped).set 7 56 }, h' ▸ (by decide), rfl, by decide⟩
/-- The last two words of RAM, an invalid opcode word: a STEP that changes TRACE. -/
theorem test_witness_traceStep :
    ∃ t, step (withRegs (one .fcfs) (regsOf 0 0 0 62)) = .next t ∧
      t.trace ≠ (withRegs (one .fcfs) (regsOf 0 0 0 62)).trace := by
  obtain ⟨t, ht⟩ := next_of_isSome (x := step (withRegs (one .fcfs) (regsOf 0 0 0 62))) (by decide)
  have h : (nextOf (step (withRegs (one .fcfs) (regsOf 0 0 0 62)))).map State.trace = some [.invalidOpcode 62 0] := by
    decide
  rw [ht] at h
  exact ⟨t, ht, by rw [Option.some.inj h]; decide⟩
theorem test_witness_trace :
    (∀ w0 w1, Instr.mova 1 ≠ .invalid w0 w1) ∧ ∃ t, exec (.mova 1) (one .fcfs) = .next t :=
  ⟨by simp, next_of_isSome (by decide)⟩
theorem test_witness_onlyReleaseGrowsPool :
    (∀ f, (beforeQuantum .rr).nextEvent ≠ .frameRelease f) ∧ ∃ t, step (beforeQuantum .rr) = .next t :=
  ⟨by simp [beforeQuantum, given, State.nextEvent], next_of_isSome (by decide)⟩
/-- Two states that differ in what the statement leaves out, for a load that hits. -/
theorem test_witness_cpuIsPure :
    let s := mapped (one .fcfs) 5 56
    let s' := { s with ticks := 3, pool := [] }
    s.cfg = s'.cfg ∧ s.mem = s'.mem ∧ s.regs = s'.regs ∧ Instr.ldb 44 ≠ .int 1 ∧
      (∀ addr, Instr.ldb 44 ∈ accessInstrs addr →
        s.liveEntry (addr.toNat / s.cfg.pageSize) = s'.liveEntry (addr.toNat / s.cfg.pageSize) ∧
          s.liveEntry (addr.toNat / s.cfg.pageSize) ≠ some unmapped) ∧
      (∃ t, exec (.ldb 44) s = .next t) ∧ ∃ t, exec (.ldb 44) s' = .next t := by
  refine ⟨rfl, rfl, rfl, by decide, fun addr h => ⟨rfl, ?_⟩, next_of_isSome (by decide), next_of_isSome (by decide)⟩
  have : addr = 44 := by simpa [accessInstrs, eq_comm] using h
  subst this
  decide

end Sys2Proof.Tests
end

section
/-! SUPPORT. The scope family (spec 00_scope.md R6; 10_state.md R25 to R41): the reset state meets the invariant, every
host event keeps it, and no event changes the configuration. -/

namespace Sys2Proof.Machine

variable {s t : State}

/-! ### The reset state -/

theorem mem_pushFrames {n size : Nat} {f : Word} :
    f ∈ pushFrames size n ↔ ∃ k < n, f = BitVec.ofNat 32 (k * size) := by
  induction n with
  | zero => simp [pushFrames]
  | succ n ih =>
    rw [pushFrames, List.mem_cons, ih]
    constructor
    · rintro (rfl | ⟨k, hk, rfl⟩)
      · exact ⟨n, by omega, rfl⟩
      · exact ⟨k, by omega, rfl⟩
    · rintro ⟨k, hk, rfl⟩
      rcases Nat.lt_succ_iff_lt_or_eq.mp hk with hlt | rfl
      · exact .inr ⟨k, hlt, rfl⟩
      · exact .inl rfl

/-- A frame base fits a word while the frames below it do. -/
theorem toNat_frameBase {k n size : Nat} (hk : k < n) (hsize : 0 < size) (hfit : n * size ≤ 2 ^ 32) :
    (BitVec.ofNat 32 (k * size)).toNat = k * size := by
  rw [BitVec.toNat_ofNat]
  exact Nat.mod_eq_of_lt (Nat.lt_of_lt_of_le (Nat.mul_lt_mul_of_pos_right hk hsize) hfit)

theorem pushFrames_nodup {n size : Nat} (hsize : 0 < size) (hfit : n * size ≤ 2 ^ 32) :
    (pushFrames size n).Nodup := by
  induction n with
  | zero => exact List.nodup_nil
  | succ n ih =>
    have hfit' : n * size ≤ 2 ^ 32 := Nat.le_trans (Nat.mul_le_mul_right _ (Nat.le_succ n)) hfit
    refine List.nodup_cons.mpr ⟨fun hm => ?_, ih hfit'⟩
    obtain ⟨k, hk, he⟩ := mem_pushFrames.mp hm
    have heq : n * size = k * size := by
      rw [← toNat_frameBase (Nat.lt_succ_self n) hsize hfit, he, toNat_frameBase hk hsize hfit']
    exact absurd (Nat.eq_of_mul_eq_mul_right hsize heq) (by omega)

/-- The frames cover RAM exactly (R6). -/
theorem Config.frameCount_mul_pageSize {c : Config} (hc : c.wf) : c.frameCount * c.pageSize = c.ramWords := by
  obtain ⟨-, -, hmod, -⟩ := hc
  exact Nat.div_mul_cancel (Nat.dvd_of_mod_eq_zero hmod)

theorem initialPool_nodup {c : Config} (hc : c.wf) : (initialPool c).Nodup := by
  have hram := Config.frameCount_mul_pageSize hc
  obtain ⟨hsize, -, -, hfit, -⟩ := hc
  exact pushFrames_nodup hsize (by omega)

theorem isFrame_of_mem_initialPool {c : Config} (hc : c.wf) {f : Word} (hf : f ∈ initialPool c) : c.isFrame f := by
  have hram := Config.frameCount_mul_pageSize hc
  obtain ⟨hsize, -, -, hfit, -⟩ := hc
  obtain ⟨k, hk, rfl⟩ := mem_pushFrames.mp hf
  rw [Config.isFrame, toNat_frameBase hk hsize (by omega)]
  exact ⟨Nat.mul_mod_left _ _, hram ▸ Nat.mul_lt_mul_of_pos_right hk hsize⟩

theorem initialMemory_wf (c : Config) : (initialMemory c).wf :=
  Memory.writeWord_wf (Memory.writeWord_wf ⟨.nil, by simp⟩ _ _) _ _

theorem initialMemory_range {c : Config} (hc : c.wf) : ∀ x ∈ initialMemory c, x.1 < 4 * c.ramWords := by
  obtain ⟨-, -, -, -, hwords, hend, -⟩ := hc
  have hbase : c.heapBase.toNat + 1 < c.ramWords := by
    unfold Config.heapEnd at hend
    omega
  have hempty : ∀ x ∈ ([] : Memory), x.1 < 4 * c.ramWords := by simp
  exact Memory.writeWord_range (Memory.writeWord_range hempty _ _ (by omega)) _ _ hbase

theorem State.resetWith_base {c : Config} (hc : c.wf) : (State.resetWith c).Base where
  cfg_wf := hc
  mem_wf := initialMemory_wf c
  mem_range := initialMemory_range hc
  pool_nodup := initialPool_nodup hc
  pool_frames := fun _ hf => isFrame_of_mem_initialPool hc hf
  pt_size := by simp [State.resetWith]
  pt_frames := by simp [State.resetWith]
  pids_rise := .nil
  pids_below := by simp [State.resetWith]
  nextPid_le := Nat.zero_le _
  vec_policy := rfl
  states_legal := by simp [State.resetWith]

theorem State.resetWith_inv {c : Config} (hc : c.wf) : (State.resetWith c).Inv :=
  (State.resetWith_base hc).construct rfl rfl rfl (by simp [State.resetWith])

/-- At reset only POOL holds frames. -/
theorem State.resetWith_framesHeldOnce {c : Config} (hc : c.wf) : (State.resetWith c).framesHeldOnce := by
  have hmapped : (State.resetWith c).mappedFrames = [] := rfl
  rw [State.framesHeldOnce, hmapped, List.append_nil]
  exact initialPool_nodup hc

theorem State.resetWith_reservedZero (c : Config) : (State.resetWith c).reservedZero :=
  ⟨⟨rfl, rfl⟩, by simp [State.resetWith]⟩

theorem Config.reference_wf : Config.reference.wf := by decide

/-- Settles O37: each field of the invariant from what reset puts there. -/
theorem resetMeetsInvariant : Obligations.ResetMeetsInvariant := by
  have hreset : ∀ c : Config, c.wf →
      (State.resetWith c).Inv ∧ (State.resetWith c).framesHeldOnce ∧ (State.resetWith c).reservedZero := fun c hc =>
    ⟨State.resetWith_inv hc, State.resetWith_framesHeldOnce hc, State.resetWith_reservedZero c⟩
  exact ⟨hreset, hreset _ Config.reference_wf⟩

/-! ### The configuration -/

/-- No primitive change of an event touches the configuration. -/
theorem hostKeeps_cfg (c : Config) : HostKeeps (fun t => t.cfg = c) where
  halt := fun _ _ h => h
  mem := fun _ _ _ h _ => h
  rover := fun _ _ h => h
  serve := fun _ _ _ _ _ h _ _ _ _ => h
  pop := fun _ _ h _ => h
  ready := fun hB => absurd trivial hB
  ticks := fun _ _ h => h
  procRegs := fun _ _ _ h _ => h
  procState := fun _ _ _ _ h _ => h
  procPrio := fun _ _ _ _ h _ => h
  retire := fun _ _ _ h _ => h
  dispatch := fun _ _ _ h _ => h
  reg := fun _ _ _ h => h
  ip := fun _ _ h => h
  emit := fun _ _ h => h
  replies := fun _ _ h => h
  phase := fun _ h _ => h
  create := fun _ _ _ _ _ h _ _ => h
  acquire := fun _ _ _ h _ => h

/-- Settles O30: the configuration passes through every primitive change, and a release of a frame writes POOL alone. -/
theorem configurationNeverChanges : Obligations.ConfigurationNeverChanges := fun s _ ht =>
  (hostKeeps_cfg s.cfg).step rfl (fun _ _ _ _ => rfl) ht

/-! ### Every event keeps the invariant -/

/-- A part that breaks no precondition leads to a next state. -/
theorem Ev.All.exists_next {x : Ev Unit} {R : State → Prop} (h : x.All (fun _ u => R u) R False) :
    ∃ u, x.outcome = .next u ∧ R u := by
  cases x with
  | ok a u => exact ⟨u, rfl, h⟩
  | ended u => exact ⟨u, rfl, h⟩
  | broken f => exact h.elim

/-- The part of the invariant that speaks of PHASE reads five fields. -/
theorem State.Inv.of_base (h : s.Inv) (hb : t.Base) (ephase : t.phase = s.phase)
    (ereason : t.haltReason = s.haltReason) (elive : t.livePt = s.livePt) (ecur : t.cur = s.cur)
    (eprocs : t.procs = s.procs) : t.Inv :=
  { hb with
    reason_phase := by rw [ephase, ereason]; exact h.reason_phase
    reason_legal := by rw [ereason]; exact h.reason_legal
    construct_new := by rw [ephase, elive, eprocs]; exact h.construct_new
    run_cur := by rw [ephase, elive, ecur, eprocs]; exact h.run_cur
    run_running := by rw [ephase, elive, eprocs]; exact h.run_running }

/-- Every vector in RUN, as the end of an event. -/
theorem State.Inv.vector_next (h : s.Inv) (hr : s.phase = .run) (v : VectorIndex) (hv : v ≠ .pageFault) :
    ∃ u, (raiseVector v none s).outcome = .next u ∧ u.Inv :=
  Ev.All.exists_next ((h.vector hr v fun e => absurd e hv).mono (fun _ _ hu => hu.1) fun _ => id)

/-- Every instruction in RUN has a next state, which meets the invariant. -/
theorem State.Inv.exec_next (h : s.Inv) (hr : s.phase = .run) (i : Instr) : ∃ u, exec i s = .next u ∧ u.Inv := by
  cases i with
  | mova w => exact ⟨_, rfl, (h.setRegs _).setRegs _⟩
  | movb w => exact ⟨_, rfl, (h.setRegs _).setRegs _⟩
  | movc w => exact ⟨_, rfl, (h.setRegs _).setRegs _⟩
  | jmp w => exact ⟨_, rfl, h.setRegs _⟩
  | int w =>
    show ∃ u, execInt w s = .next u ∧ u.Inv
    unfold execInt
    split
    · split
      · have hadvanced : s.advance.Inv := h.setRegs _
        exact hadvanced.vector_next hr .software (by simp)
      · exact h.vector_next hr .software (by simp)
    · exact ⟨_, rfl, h.base.halt _⟩
  | lda w => exact (h.access hr .load .a w).exists_next
  | ldb w => exact (h.access hr .load .b w).exists_next
  | ldc w => exact (h.access hr .load .c w).exists_next
  | sta w => exact (h.access hr .store .a w).exists_next
  | stb w => exact (h.access hr .store .b w).exists_next
  | stc w => exact (h.access hr .store .c w).exists_next
  | invalid w0 w1 => exact ⟨_, rfl, (h.setTrace _).setRegs _⟩

/-- A STEP: the fetch-range fault or one instruction (R110 to R112). -/
theorem State.Inv.cpuCycle_next (h : s.Inv) (hr : s.phase = .run) : ∃ u, cpuCycle s = .next u ∧ u.Inv := by
  rw [cpuCycle_eq]
  split
  · exact ⟨_, rfl, h.base.halt _⟩
  · exact h.exec_next hr _

/-- HOST_ALLOC in a phase that is not HALTED (R203). -/
theorem State.Inv.hostAlloc (h : s.Inv) (hh : s.phase ≠ .halted) (units : Word) :
    (hostAlloc units s).All (fun _ t => t.Inv) State.Inv False :=
  ((inv_heapKeeps hh).allocateMemory ⟨h, rfl⟩).bind fun _ _ hu => hu.1.setReplies _

/-- The record of HOST_CREATE appended: its pid is above every pid handed out (R204). -/
theorem State.Base.create (h : s.Base) (hn : s.nextPid ≠ pidLimit) (extStart extSize burst prio : Word) :
    ((s.setProcs (s.procs ++ [newProcess s.cfg (BitVec.ofNat 32 s.nextPid) extStart extSize burst prio])).setNextPid
      (s.nextPid + 1)).Base := by
  have hlt : s.nextPid < pidLimit := Nat.lt_of_le_of_ne h.nextPid_le hn
  have hpid : (BitVec.ofNat 32 s.nextPid).toNat = s.nextPid := by
    rw [BitVec.toNat_ofNat]
    exact Nat.mod_eq_of_lt hlt
  refine
    { h with
      pt_size := List.forall_mem_append.mpr ⟨h.pt_size, ?_⟩
      pt_frames := List.forall_mem_append.mpr ⟨h.pt_frames, ?_⟩
      pids_rise := List.pairwise_append.mpr ⟨h.pids_rise, List.pairwise_singleton _ _, fun p hp => ?_⟩
      pids_below := List.forall_mem_append.mpr ⟨fun p hp => Nat.lt_succ_of_lt (h.pids_below p hp), ?_⟩
      nextPid_le := hlt
      states_legal := List.forall_mem_append.mpr ⟨h.states_legal, ?_⟩ }
  · simp [newProcess, emptyPageTable]
  · intro p hp e he
    obtain rfl := List.mem_singleton.mp hp
    exact .inl (List.eq_of_mem_replicate he)
  · simpa [newProcess, hpid] using h.pids_below p hp
  · simp [newProcess, hpid]
  · simp [newProcess]

/-- HOST_CREATE in CONSTRUCT (R204). -/
theorem State.Inv.hostCreate (h : s.Inv) (hc : s.phase = .construct) (extStart extSize burst prio : Word) :
    (hostCreate extStart extSize burst prio s).All (fun _ t => t.Inv) State.Inv False := by
  obtain ⟨hlive, hnew⟩ := h.construct_new hc
  have hr0 : s.haltReason = 0 := h.reason_phase.mpr (by simp [hc])
  unfold Machine.hostCreate
  split
  · exact h.base.halt _
  · rename_i hn
    refine State.Inv.setReplies ((h.base.create hn extStart extSize burst prio).construct hc hr0 hlive ?_) _
    exact List.forall_mem_append.mpr ⟨hnew, by simp [newProcess]⟩

/-- START in CONSTRUCT: no process is Running before the first DISPATCH (R205). -/
theorem State.Inv.start (h : s.Inv) (hc : s.phase = .construct) :
    (start s).All (fun _ t => t.Inv) State.Inv False := by
  obtain ⟨-, hnew⟩ := h.construct_new hc
  have hr0 : s.haltReason = 0 := h.reason_phase.mpr (by simp [hc])
  unfold Machine.start
  split
  · exact h.base.halt _
  · rename_i hne
    have hb : (s.setPhase .run).Base := h.base.congr rfl rfl rfl rfl rfl rfl
    refine (hb.dispatchAll (List.length_pos_of_ne_nil hne) rfl hr0 fun q hq => ?_).mono (fun _ _ hu => hu.1) fun _ => id
    simp [hnew q hq]

/-- FRAME_ACQUIRE (R66). -/
theorem State.Inv.hostFrameAcquire (h : s.Inv) : (hostFrameAcquire s).Inv := by
  unfold Machine.hostFrameAcquire
  cases hp : s.pool with
  | nil => rw [acquireFrame_nil hp]; exact h.setReplies _
  | cons f rest =>
    rw [acquireFrame_cons hp]
    exact (h.of_base (h.base.popPool hp) rfl rfl rfl rfl rfl).setReplies _

/-- A frame base that POOL does not hold, pushed. -/
theorem State.Base.pushPool (h : s.Base) {f : Word} (hf : s.cfg.isFrame f) (hn : f ∉ s.pool) :
    (s.setPool (f :: s.pool)).Base :=
  { h with
    pool_nodup := List.nodup_cons.mpr ⟨hn, h.pool_nodup⟩
    pool_frames := List.forall_mem_cons.mpr ⟨hf, h.pool_frames⟩ }

/-- FRAME_RELEASE (R67). -/
theorem State.Inv.releaseFrame (h : s.Inv) (f : Word) :
    (releaseFrame f s).All (fun _ t => t.Inv) State.Inv False := by
  rcases releaseFrame_cases f s with ⟨-, e⟩ | ⟨hf, hn, e⟩
  · rw [e]; exact h.base.halt _
  · rw [e]; exact h.of_base (h.base.pushPool hf hn) rfl rfl rfl rfl rfl

/-- An admitted event has a next state, which meets the invariant, but for a HOST_WRITE outside RAM (R190, R202). -/
theorem State.Inv.event (h : s.Inv) {e : HostEvent} (ha : e.admitted s.phase = true) :
    (∃ u, eventEffect e s = .next u ∧ u.Inv) ∨
      ∃ pa v, e = .hostWrite pa v ∧ eventEffect e s = .refused (.hostWriteRange pa) := by
  cases e with
  | hostWrite pa v =>
    by_cases hlt : pa.toNat < s.cfg.ramWords
    · have heq : eventEffect (.hostWrite pa v) s = .next (s.setMem (s.mem.writeWord pa.toNat v)) := by
        simp only [eventEffect, hostWrite, if_pos hlt, memWrite_of_lt hlt, Ev.outcome_ok]
      exact .inl ⟨_, heq, h.writeWord v hlt⟩
    · exact .inr ⟨pa, v, rfl, if_neg hlt⟩
  | hostAlloc units =>
    have hc : s.phase = .construct := by simpa [HostEvent.admitted] using ha
    exact .inl (h.hostAlloc (by simp [hc]) units).exists_next
  | hostCreate extStart extSize burst prio =>
    have hc : s.phase = .construct := by simpa [HostEvent.admitted] using ha
    exact .inl (h.hostCreate hc extStart extSize burst prio).exists_next
  | start =>
    have hc : s.phase = .construct := by simpa [HostEvent.admitted] using ha
    exact .inl (h.start hc).exists_next
  | step =>
    have hr : s.phase = .run := by simpa [HostEvent.admitted] using ha
    exact .inl (h.cpuCycle_next hr)
  | timer =>
    have hr : s.phase = .run := by simpa [HostEvent.admitted] using ha
    exact .inl (h.vector_next hr .timer (by simp))
  | swi =>
    have hr : s.phase = .run := by simpa [HostEvent.admitted] using ha
    exact .inl (h.vector_next hr .software (by simp))
  | frameAcquire => exact .inl ⟨_, rfl, h.hostFrameAcquire⟩
  | frameRelease f => exact .inl (h.releaseFrame f).exists_next
  | observe => exact .inl ⟨_, rfl, h⟩

/-- Settles O50: the event taken off the sequence leaves the invariant, and the event itself keeps it. -/
theorem stepKeepsInvariant : Obligations.StepKeepsInvariant := by
  intro s t h ht
  obtain ⟨hadmitted, heffect⟩ := step_next ht
  have htaken : (s.setPending s.pending.tail).Inv := h.setPending _
  rcases htaken.event (e := s.nextEvent) hadmitted with ⟨u, hu, hinv⟩ | ⟨pa, v, -, hrefused⟩
  · rw [hu] at heffect
    cases heffect
    exact hinv
  · rw [hrefused] at heffect
    cases heffect

end Sys2Proof.Machine
end

section
/-! SUPPORT. The frames (spec 10_state.md R26, R27, R41; 20_memory.md R65 to R67): what a property of POOL, the page
tables and NEXT_PID must withstand for every step to keep it, said once (`TablesKeep`), and the statements that follow. -/

namespace Sys2Proof.Machine

variable {s t : State}

/-! ### The page tables as a list -/

/-- Each process's id with its page table, in the order of PROCS (R27, R30). -/
def tablesOf (procs : List Process) : List (Word × List Word) := procs.map fun p => (p.pid, p.pt)

/-- The tables after a write of one entry of the table of process `pid` (R65). -/
def setTable (tables : List (Word × List Word)) (pid : Option Word) (page : Nat) (f : Word) :
    List (Word × List Word) :=
  tables.map fun x => if pid = some x.1 then (x.1, x.2.set page f) else x

/-- The frames that the entries of the tables map, once for each entry. -/
def framesOf (tables : List (Word × List Word)) : List Word := tables.flatMap fun x => x.2.filter (· ≠ unmapped)

theorem setTable_cons (x : Word × List Word) (tables : List (Word × List Word)) (pid : Option Word) (page : Nat)
    (f : Word) :
    setTable (x :: tables) pid page f =
      (if pid = some x.1 then (x.1, x.2.set page f) else x) :: setTable tables pid page f := rfl

theorem framesOf_cons (x : Word × List Word) (tables : List (Word × List Word)) :
    framesOf (x :: tables) = x.2.filter (· ≠ unmapped) ++ framesOf tables := rfl

theorem mappedFrames_eq (s : State) : s.mappedFrames = framesOf (tablesOf s.procs) := by
  simp [State.mappedFrames, framesOf, tablesOf, List.flatMap_map]

/-- A list whose element at `i` is replaced by one of the same image has the same images. -/
theorem map_set_of_eq {α β : Type} {l : List α} {i : Nat} {a b : α} (f : α → β) (hi : l[i]? = some a)
    (hab : f b = f a) : (l.set i b).map f = l.map f := by
  obtain ⟨hlt, rfl⟩ := List.getElem?_eq_some_iff.mp hi
  rw [List.map_set, hab, ← List.getElem_map f (h := by simpa using hlt), List.set_getElem_self]

theorem tablesOf_set {procs : List Process} {i : Nat} {p q : Process} (hi : procs[i]? = some p)
    (hpid : q.pid = p.pid) (hpt : q.pt = p.pt) : tablesOf (procs.set i q) = tablesOf procs :=
  map_set_of_eq _ hi (by rw [hpid, hpt])

theorem tablesOf_eraseIdx (procs : List Process) (i : Nat) :
    tablesOf (procs.eraseIdx i) = (tablesOf procs).eraseIdx i := (List.eraseIdx_map ..).symm

theorem tablesOf_setLiveEntry (procs : List Process) (pid : Option Word) (page : Nat) (f : Word) :
    tablesOf (setLiveEntry procs pid page f) = setTable (tablesOf procs) pid page f := by
  simp only [tablesOf, setLiveEntry, setTable, List.map_map]
  refine List.map_congr_left fun p _ => ?_
  simp only [Function.comp]
  split <;> rfl

theorem tablesOf_create (procs : List Process) (c : Config) (pid extStart extSize burst prio : Word) :
    tablesOf (procs ++ [newProcess c pid extStart extSize burst prio]) =
      tablesOf procs ++ [(pid, emptyPageTable c)] := by
  simp [tablesOf, newProcess]

/-- What a property of POOL, the tables and NEXT_PID must withstand for every step but a release of a frame to keep it:
the tables change in the page-fault handler, RETIRE and HOST_CREATE alone (R65, R162, R172, R204). -/
structure TablesKeep (J : List Word → List (Word × List Word) → Nat → Prop) : Prop where
  pop : ∀ f pool tables n, J (f :: pool) tables n → J pool tables n
  map : ∀ f pool tables n pid page, J (f :: pool) tables n → f ≠ unmapped → J pool (setTable tables pid page f) n
  erase : ∀ pool tables n i, J pool tables n → J pool (tables.eraseIdx i) n
  create : ∀ pool tables n c, J pool tables n → n ≠ pidLimit →
    J pool (tables ++ [(BitVec.ofNat 32 n, emptyPageTable c)]) (n + 1)

theorem TablesKeep.hostKeeps {J : List Word → List (Word × List Word) → Nat → Prop} (k : TablesKeep J) :
    HostKeeps (fun t => J t.pool (tablesOf t.procs) t.nextPid) where
  halt := fun _ _ h => h
  mem := fun _ _ _ h _ => h
  rover := fun _ _ h => h
  serve := fun s page f rest g h _ hp hf _ => by
    rw [hp] at h
    rw [State.setProcs_procs, tablesOf_setLiveEntry]
    exact k.map f rest _ _ _ page h hf
  pop := fun s rest h hp => k.pop noFrame rest _ _ (hp ▸ h)
  ready := fun hB => absurd trivial hB
  ticks := fun _ _ h => h
  procRegs := fun s i p h hp => by
    rw [State.setProcs_procs, tablesOf_set (q := p.setRegs s.regs) hp rfl rfl]
    exact h
  procState := fun s i p st h hp => by
    rw [State.setProcs_procs, tablesOf_set (q := p.setState st) hp rfl rfl]
    exact h
  procPrio := fun s i p w h hp => by
    rw [State.setProcs_procs, tablesOf_set (q := p.setPrio w) hp rfl rfl]
    exact h
  retire := fun s i p h _ => by rw [State.setProcs_procs, tablesOf_eraseIdx]; exact k.erase _ _ _ i h
  dispatch := fun s i p h hp => by
    rw [State.dispatched_procs, tablesOf_set (q := p.setState .running) hp rfl rfl]
    exact h
  reg := fun _ _ _ h => h
  ip := fun _ _ h => h
  emit := fun _ _ h => h
  replies := fun _ _ h => h
  phase := fun _ h _ => h
  create := fun s _ _ _ _ h _ hn => by
    rw [State.setNextPid_procs, State.setProcs_procs, tablesOf_create]
    exact k.create _ _ _ s.cfg h hn
  acquire := fun s f rest h hp => k.pop f rest _ _ (hp ▸ h)

/-! ### Process ids -/

/-- The ids of the tables are distinct and below NEXT_PID, which is in its range (R29, R36). -/
structure PidsFresh (tables : List (Word × List Word)) (n : Nat) : Prop where
  distinct : (tables.map Prod.fst).Nodup
  below : ∀ x ∈ tables, x.1.toNat < n
  limit : n ≤ pidLimit

theorem State.Inv.pidsFresh (h : s.Inv) : PidsFresh (tablesOf s.procs) s.nextPid where
  distinct := by
    simp only [tablesOf, List.map_map]
    exact List.pairwise_map.mpr (h.pids_rise.imp fun hlt he => Nat.ne_of_lt hlt (congrArg BitVec.toNat he))
  below := List.forall_mem_map.mpr h.pids_below
  limit := h.nextPid_le

theorem setTable_map_fst (tables : List (Word × List Word)) (pid : Option Word) (page : Nat) (f : Word) :
    (setTable tables pid page f).map Prod.fst = tables.map Prod.fst := by
  rw [setTable, List.map_map]
  refine List.map_congr_left fun x _ => ?_
  simp only [Function.comp]
  split <;> rfl

theorem toNat_pid_of_lt {n : Nat} (h : n < pidLimit) : (BitVec.ofNat 32 n).toNat = n :=
  (BitVec.toNat_ofNat n 32).trans (Nat.mod_eq_of_lt h)

/-- No change of the tables breaks the order of the ids. -/
theorem pidsFresh_keep : TablesKeep fun _ tables n => PidsFresh tables n where
  pop := fun _ _ _ _ h => h
  map := fun f _ tables n pid page h _ =>
    { distinct := by rw [setTable_map_fst]; exact h.distinct
      below := fun x hx => by
        obtain ⟨y, hy, rfl⟩ := List.mem_map.mp hx
        split <;> exact h.below y hy
      limit := h.limit }
  erase := fun _ tables n i h =>
    { distinct := h.distinct.sublist ((List.eraseIdx_sublist tables i).map _)
      below := fun x hx => h.below x (List.mem_of_mem_eraseIdx hx)
      limit := h.limit }
  create := fun _ tables n c h hn => by
    have hlt : n < pidLimit := Nat.lt_of_le_of_ne h.limit hn
    refine
      { distinct := ?_
        below := List.forall_mem_append.mpr ⟨fun x hx => Nat.lt_succ_of_lt (h.below x hx), ?_⟩
        limit := hlt }
    · rw [List.map_append]
      refine List.nodup_append.mpr ⟨h.distinct, List.nodup_singleton _, ?_⟩
      rintro pid hpid fresh hfresh rfl
      obtain ⟨x, hx, rfl⟩ := List.mem_map.mp hpid
      have hxn : x.1 = BitVec.ofNat 32 n := by simpa using hfresh
      have := h.below x hx
      rw [hxn, toNat_pid_of_lt hlt] at this
      exact Nat.lt_irrefl _ this
    · simp [toNat_pid_of_lt hlt]

/-! ### No frame is held twice -/

/-- A list with one element overwritten holds no more than the list with the new element beside it. -/
theorem subperm_set {α : Type} (l : List α) (i : Nat) (a : α) : (l.set i a).Subperm (a :: l) := by
  by_cases hi : i < l.length
  · exact (List.set_perm_cons_eraseIdx hi a).subperm.trans ((List.eraseIdx_sublist l i).cons_cons a).subperm
  · rw [List.set_eq_of_length_le (by omega)]
    exact (List.sublist_cons_self a l).subperm

/-- An id that no table has leaves the tables. -/
theorem setTable_of_not_mem {tables : List (Word × List Word)} {pid : Word} (h : pid ∉ tables.map Prod.fst)
    (page : Nat) (f : Word) : setTable tables (some pid) page f = tables := by
  refine (List.map_congr_left fun x hx => if_neg fun he => h ?_).trans (List.map_id _)
  rw [Option.some.inj he]
  exact List.mem_map_of_mem hx

/-- A write of one entry adds at most the written frame to the mapped ones: the old frame is lost, none is doubled
(R65, R162). -/
theorem framesOf_setTable {tables : List (Word × List Word)} (h : (tables.map Prod.fst).Nodup) (pid : Option Word)
    (page : Nat) (f : Word) : (framesOf (setTable tables pid page f)).Subperm (f :: framesOf tables) := by
  cases pid with
  | none =>
    have hid : setTable tables none page f = tables := by simp [setTable]
    rw [hid]
    exact (List.sublist_cons_self _ _).subperm
  | some pid =>
    induction tables with
    | nil => exact List.nil_subperm
    | cons x tables ih =>
      obtain ⟨hx, htables⟩ := List.nodup_cons.mp h
      by_cases hpid : pid = x.1
      · subst hpid
        have hset : framesOf (setTable (x :: tables) (some x.1) page f) =
            (x.2.set page f).filter (· ≠ unmapped) ++ framesOf tables := by
          rw [setTable_cons, if_pos rfl, setTable_of_not_mem hx page f, framesOf_cons]
        rw [hset]
        have hfilter : ((x.2.set page f).filter (· ≠ unmapped)).Subperm (f :: x.2.filter (· ≠ unmapped)) := by
          refine ((subperm_set x.2 page f).filter _).trans ?_
          rw [List.filter_cons]
          split
          · exact .refl _
          · exact (List.sublist_cons_self _ _).subperm
        exact hfilter.append (.refl _)
      · have hset : framesOf (setTable (x :: tables) (some pid) page f) =
            x.2.filter (· ≠ unmapped) ++ framesOf (setTable tables (some pid) page f) := by
          rw [setTable_cons, if_neg fun he => hpid (Option.some.inj he), framesOf_cons]
        rw [hset]
        exact ((List.subperm_append_left _).mpr (ih htables)).trans List.perm_middle.subperm

theorem framesOf_create (tables : List (Word × List Word)) (pid : Word) (c : Config) :
    framesOf (tables ++ [(pid, emptyPageTable c)]) = framesOf tables := by
  simp [framesOf, emptyPageTable]

/-- Frames move from POOL to an entry one at a time, and only forward (R66, R162). -/
theorem framesHeldOnce_keep :
    TablesKeep fun pool tables n => (pool ++ framesOf tables).Nodup ∧ PidsFresh tables n where
  pop := fun f pool tables n h =>
    ⟨(List.nodup_cons.mp h.1).2, pidsFresh_keep.pop f pool tables n h.2⟩
  map := fun f pool tables n pid page h hf => by
    refine ⟨?_, pidsFresh_keep.map f pool tables n pid page h.2 hf⟩
    have hheld : (pool ++ f :: framesOf tables).Nodup := List.perm_middle.nodup_iff.mpr h.1
    have hsub := (List.subperm_append_left pool).mpr (framesOf_setTable h.2.distinct pid page f)
    obtain ⟨l, hperm, hl⟩ := hsub
    exact hperm.nodup_iff.mp (hheld.sublist hl)
  erase := fun pool tables n i h =>
    ⟨h.1.sublist (((List.eraseIdx_sublist tables i).flatMap _).append_left pool), pidsFresh_keep.erase pool _ _ i h.2⟩
  create := fun pool tables n c h hn =>
    ⟨by rw [framesOf_create]; exact h.1, pidsFresh_keep.create pool tables n c h.2 hn⟩

/-- Settles O51: each mapping takes its frame fresh from POOL, and a release puts back a frame that neither POOL nor an
entry holds. -/
theorem stepKeepsFramesHeldOnce : Obligations.StepKeepsFramesHeldOnce := by
  intro s t hinv hheld hduty ht
  have hstart : (s.pool ++ framesOf (tablesOf s.procs)).Nodup := mappedFrames_eq s ▸ hheld
  have hend := framesHeldOnce_keep.hostKeeps.step (s := s) ⟨hstart, hinv.pidsFresh⟩
    (fun f hf _ hpool => by
      have hmapped : f ∉ framesOf (tablesOf s.procs) := mappedFrames_eq s ▸ hduty f hf
      exact ⟨List.nodup_cons.mpr ⟨by simp [hpool, hmapped], hstart⟩, hinv.pidsFresh⟩) ht
  rw [State.framesHeldOnce, mappedFrames_eq]
  exact hend.1

/-! ### A mapped page stays mapped -/

/-- Every entry that `old` maps is mapped in the tables `new` too, where the process is still there. -/
def StaysMapped (old new : List (Word × List Word)) : Prop :=
  ∀ x ∈ old, ∀ y ∈ new, y.1 = x.1 → ∀ (k : Nat) (f : Word), x.2[k]? = some f → f ≠ unmapped →
    ∃ g, y.2[k]? = some g ∧ g ≠ unmapped

/-- No change of the tables unmaps an entry; a new process has a new id. -/
theorem staysMapped_keep {old : List (Word × List Word)} :
    TablesKeep fun _ new n => StaysMapped old new ∧ (∀ x ∈ old, x.1.toNat < n) ∧ n ≤ pidLimit where
  pop := fun _ _ _ _ h => h
  map := fun f pool new n pid page h hf => by
    refine ⟨fun x hx y hy hpid k g hk hg => ?_, h.2⟩
    obtain ⟨z, hz, rfl⟩ := List.mem_map.mp hy
    split at hpid
    · obtain ⟨e, he, hmapped⟩ := h.1 x hx z hz hpid k g hk hg
      rw [if_pos ‹_›, List.getElem?_set]
      split
      · exact ⟨f, if_pos (by subst k; exact (List.getElem?_eq_some_iff.mp he).1), hf⟩
      · exact ⟨e, he, hmapped⟩
    · rw [if_neg ‹_›]
      exact h.1 x hx z hz hpid k g hk hg
  erase := fun _ new n i h => ⟨fun x hx y hy => h.1 x hx y (List.mem_of_mem_eraseIdx hy), h.2⟩
  create := fun pool new n c h hn => by
    obtain ⟨hmapped, hbelow, hlimit⟩ := h
    have hlt : n < pidLimit := Nat.lt_of_le_of_ne hlimit hn
    refine ⟨fun x hx y hy => ?_, fun x hx => Nat.lt_succ_of_lt (hbelow x hx), hlt⟩
    rcases List.mem_append.mp hy with hy | hy
    · exact hmapped x hx y hy
    · intro hpid
      obtain rfl := List.mem_singleton.mp hy
      have := hbelow x hx
      rw [← hpid, toNat_pid_of_lt hlt] at this
      exact absurd this (Nat.lt_irrefl _)

/-- Settles O54: a process still there has its own table, in which no write put UNMAPPED. -/
theorem mappedPagesStayMapped : Obligations.MappedPagesStayMapped := by
  intro s t p q k f hinv ht hp hq hpid hk hf
  have hstart : StaysMapped (tablesOf s.procs) (tablesOf s.procs) := by
    intro x hx y hy he j g hj hg
    have hxy : y = x := List.inj_on_of_nodup_map hinv.pidsFresh.distinct hy hx he
    exact ⟨g, hxy ▸ hj, hg⟩
  have hend := staysMapped_keep.hostKeeps.step (s := s) ⟨hstart, hinv.pidsFresh.below, hinv.nextPid_le⟩
    (fun _ _ _ _ => ⟨hstart, hinv.pidsFresh.below, hinv.nextPid_le⟩) ht
  exact hend.1 (p.pid, p.pt) (List.mem_map_of_mem hp) (q.pid, q.pt) (List.mem_map_of_mem hq) hpid k f hk hf

/-! ### POOL -/

/-- POOL loses frames from its top alone (R66). -/
theorem poolSuffix_keep (old : List Word) : TablesKeep fun pool _ _ => pool <:+ old where
  pop := fun f pool _ _ h => (List.suffix_cons f pool).trans h
  map := fun f pool _ _ _ _ h _ => (List.suffix_cons f pool).trans h
  erase := fun _ _ _ _ h => h
  create := fun _ _ _ _ h _ => h

/-- Settles O56: no event but FRAME_RELEASE pushes. -/
theorem onlyReleaseGrowsPool : Obligations.OnlyReleaseGrowsPool := fun s _ hevent ht =>
  (poolSuffix_keep s.pool).hostKeeps.step (List.suffix_refl s.pool) (fun f hf => absurd hf (hevent f)) ht

theorem length_pushFrames (size n : Nat) : (pushFrames size n).length = n := by
  induction n with
  | zero => rfl
  | succ n ih => rw [pushFrames, List.length_cons, ih]

/-- Every frame base is one of those that reset pushes (R12, R68). -/
theorem mem_initialPool_of_isFrame {c : Config} (hc : c.wf) {f : Word} (hf : c.isFrame f) : f ∈ initialPool c := by
  obtain ⟨hbase, hlt⟩ := hf
  have hf_eq : f.toNat / c.pageSize * c.pageSize = f.toNat := Nat.div_mul_cancel (Nat.dvd_of_mod_eq_zero hbase)
  refine mem_pushFrames.mpr ⟨f.toNat / c.pageSize, ?_, by rw [hf_eq, BitVec.ofNat_toNat, BitVec.setWidth_eq]⟩
  rw [← Config.frameCount_mul_pageSize hc, ← hf_eq] at hlt
  exact Nat.lt_of_mul_lt_mul_right hlt

/-- Settles O57: POOL holds distinct frame bases, and there are FRAME_COUNT of them. -/
theorem poolNeverExceedsFrameCount : Obligations.PoolNeverExceedsFrameCount := by
  intro s h
  have hsubset : s.pool ⊆ initialPool s.cfg := fun f hf => mem_initialPool_of_isFrame h.cfg_wf (h.pool_frames f hf)
  calc s.pool.length ≤ (initialPool s.cfg).length := (List.subperm_of_subset h.pool_nodup hsubset).length_le
    _ = s.cfg.frameCount := length_pushFrames _ _

end Sys2Proof.Machine
end

section
/-! SUPPORT. The events around the instructions (spec 10_state.md R21, R23, R39, R41; 60_exceptions.md R193): the
reserved registers, the broken preconditions, HALTED, TRACE, and what the instructions but INT leave alone (R40, R43). -/

namespace Sys2Proof.Machine

variable {s t : State}

/-! ### The reserved registers -/

/-- What holds of every element and of the new one holds of every element after a replacement. -/
theorem forall_mem_set {α : Type} {P : α → Prop} {l : List α} (h : ∀ x ∈ l, P x) {a : α} (ha : P a) (i : Nat) :
    ∀ x ∈ l.set i a, P x := fun x hx => (List.mem_or_eq_of_mem_set hx).elim (h x) fun e => e ▸ ha

/-- No instruction and no handler writes `flags` or `sp` but by moving a whole register set (R21, R23). -/
theorem reservedZero_keep : HostKeeps State.reservedZero where
  halt := fun _ _ h => h
  mem := fun _ _ _ h _ => h
  rover := fun _ _ h => h
  serve := fun s page f rest g h _ _ _ _ => by
    refine ⟨h.1, fun q hq => ?_⟩
    obtain ⟨p, hp, rfl⟩ := List.mem_map.mp hq
    split <;> exact h.2 p hp
  pop := fun _ _ h _ => h
  ready := fun hB => absurd trivial hB
  ticks := fun _ _ h => h
  procRegs := fun s i p h _ => ⟨h.1, forall_mem_set h.2 h.1 i⟩
  procState := fun s i p st h hp => ⟨h.1, forall_mem_set h.2 (a := p.setState st) (h.2 p (List.mem_of_getElem? hp)) i⟩
  procPrio := fun s i p w h hp => ⟨h.1, forall_mem_set h.2 (a := p.setPrio w) (h.2 p (List.mem_of_getElem? hp)) i⟩
  retire := fun s i p h _ => ⟨h.1, fun q hq => h.2 q (List.mem_of_mem_eraseIdx hq)⟩
  dispatch := fun s i p h hp =>
    have hzero := h.2 p (List.mem_of_getElem? hp)
    ⟨hzero, forall_mem_set h.2 (a := p.setState .running) hzero i⟩
  reg := fun s x v h => ⟨⟨(Regs.set_flags s.regs x v).trans h.1.1, (Regs.set_sp s.regs x v).trans h.1.2⟩, h.2⟩
  ip := fun _ _ h => h
  emit := fun _ _ h => h
  replies := fun _ _ h => h
  phase := fun _ h _ => h
  create := fun s _ _ _ _ h _ _ =>
    ⟨h.1, List.forall_mem_append.mpr ⟨h.2, List.forall_mem_singleton.mpr ⟨rfl, rfl⟩⟩⟩
  acquire := fun _ _ _ h _ => h

/-- Settles O52: creation writes 0, and every other write of a register set copies one or leaves `flags` and `sp`. -/
theorem stepKeepsReservedRegistersZero : Obligations.StepKeepsReservedRegistersZero := fun _ _ h ht =>
  reservedZero_keep.step h (fun _ _ _ _ => h) ht

/-! ### Broken preconditions and HALTED -/

/-- Settles O53: an admitted event has a next state or is a refused HOST_WRITE, any other event is refused. -/
theorem invariantStatesNeverFault : Obligations.InvariantStatesNeverFault := by
  intro s f h hstep
  have htaken : (s.setPending s.pending.tail).Inv := h.setPending _
  change hostEvent s.nextEvent (s.setPending s.pending.tail) = .fault f at hstep
  cases ha : s.nextEvent.admitted (s.setPending s.pending.tail).phase with
  | false => rw [hostEvent_of_not_admitted ha] at hstep; cases hstep
  | true =>
    rw [hostEvent_of_admitted ha] at hstep
    rcases htaken.event ha with ⟨u, hu, -⟩ | ⟨pa, v, -, hu⟩
    · rw [hu] at hstep; cases hstep
    · rw [hu] at hstep; cases hstep

/-- Settles O10: OBSERVE alone is admitted in HALTED (R193). -/
theorem haltedIsFinal : Obligations.HaltedIsFinal := by
  intro s t hhalted ht
  obtain ⟨hadmitted, heffect⟩ := step_next ht
  rw [hhalted] at hadmitted
  cases he : s.nextEvent with
  | observe => rw [he] at heffect; cases heffect; rfl
  | _ => rw [he] at hadmitted; cases hadmitted

/-! ### TRACE -/

/-- No primitive change but that of an invalid opcode touches TRACE. -/
theorem trace_keep (tr : List TraceEvent) : HandlerKeeps (fun t => t.trace = tr) where
  halt := fun _ _ h => h
  mem := fun _ _ _ h _ => h
  rover := fun _ _ h => h
  serve := fun _ _ _ _ _ h _ _ _ _ => h
  pop := fun _ _ h _ => h
  ready := fun hB => absurd trivial hB
  ticks := fun _ _ h => h
  procRegs := fun _ _ _ h _ => h
  procState := fun _ _ _ _ h _ => h
  procPrio := fun _ _ _ _ h _ => h
  retire := fun _ _ _ h _ => h
  dispatch := fun _ _ _ h _ => h
  reg := fun _ _ _ h => h
  ip := fun _ _ h => h

/-- FRAME_ACQUIRE pops at most one frame and answers (R66). -/
theorem hostFrameAcquire_eq (s : State) : ∃ pool replies, hostFrameAcquire s = (s.setPool pool).setReplies replies := by
  unfold hostFrameAcquire
  cases hp : s.pool with
  | nil => exact ⟨s.pool, _, by rw [acquireFrame_nil hp]; rfl⟩
  | cons f rest => exact ⟨rest, _, by rw [acquireFrame_cons hp]; rfl⟩

/-- Every event but STEP leaves TRACE. -/
theorem eventEffect_trace {e : HostEvent} (he : e ≠ .step) (ht : eventEffect e s = .next t) : t.trace = s.trace := by
  have k := trace_keep s.trace
  cases e with
  | hostWrite pa v =>
    simp only [eventEffect, hostWrite] at ht
    split at ht
    · rename_i hlt
      rw [memWrite_of_lt hlt] at ht
      cases ht
      rfl
    · cases ht
  | hostAlloc units =>
    refine Ev.All.next (R := fun u => u.trace = s.trace) (B := True) ?_ ht
    exact (k.allocateMemory rfl).bind fun _ _ hu => hu
  | hostCreate a b c d =>
    simp only [eventEffect, hostCreate] at ht
    split at ht <;> (cases ht; rfl)
  | start =>
    simp only [eventEffect, start] at ht
    split at ht
    · cases ht; rfl
    · exact Ev.All.next (k.dispatchAll (s := s.setPhase .run) rfl) ht
  | step => exact absurd rfl he
  | timer => exact Ev.All.next (k.vector .timer none rfl) ht
  | swi => exact Ev.All.next (k.vector .software none rfl) ht
  | frameAcquire =>
    cases ht
    obtain ⟨pool, replies, e⟩ := hostFrameAcquire_eq s
    rw [e]
    rfl
  | frameRelease f =>
    rcases releaseFrame_cases f s with ⟨-, e⟩ | ⟨-, -, e⟩ <;> (simp only [eventEffect, e] at ht; cases ht; rfl)
  | observe => cases ht; rfl

/-- Two words decode to an invalid opcode only as that opcode (R97, R98). -/
theorem decode_eq_invalid {m : OpmapMode} {w0 w1 a b : Word} (h : decode m w0 w1 = .invalid a b) :
    decode m w0 w1 = .invalid w0 w1 := by
  cases hl : lookupOpcode m w0 with
  | none => exact decode_of_none hl
  | some op => rw [decode_of_some hl] at h; cases op <;> cases h

/-- Settles O55: of all events and instructions only the invalid opcode emits. -/
theorem onlyInvalidOpcodesTrace : Obligations.OnlyInvalidOpcodesTrace := by
  have hexec : ∀ (i : Instr) (s t : State), (∀ w0 w1, i ≠ .invalid w0 w1) → exec i s = .next t →
      t.trace = s.trace := fun i s t hi ht => (trace_keep s.trace).exec i hi rfl ht
  refine ⟨fun s t ht hne => ?_, hexec⟩
  obtain ⟨hadmitted, heffect⟩ := step_next ht
  have hevent : s.nextEvent = .step := by
    by_contra he
    exact hne (eventEffect_trace (s := s.setPending s.pending.tail) he heffect)
  have hrun : s.phase = .run := by simpa [hevent, HostEvent.admitted] using hadmitted
  rw [hevent] at heffect
  change cpuCycle (s.setPending s.pending.tail) = .next t at heffect
  rw [cpuCycle_eq] at heffect
  split at heffect
  · cases heffect
    exact absurd rfl hne
  · rename_i hfetch
    by_cases hvalid : ∃ a b, decode s.cfg.opmapMode (s.mem.readWord s.regs.ip.toNat)
        (s.mem.readWord (s.regs.ip.toNat + 1)) = .invalid a b
    · obtain ⟨a, b, hab⟩ := hvalid
      have hinvalid := decode_eq_invalid hab
      refine ⟨hrun, hevent, Nat.lt_of_not_le hfetch, hinvalid, ?_⟩
      simp only [State.setPending_cfg, State.setPending_mem, State.setPending_regs, hinvalid] at heffect
      cases heffect
      rfl
    · exact absurd (hexec _ _ t (fun a b he => hvalid ⟨a, b, he⟩) heffect) hne

/-! ### Loads and stores -/

/-- The register that the page-fault protocol writes gets its old value back (R136). -/
theorem State.setReg_restore (s : State) (x : GReg) (v : Word) : (s.setReg x v).setReg x (s.regs.get x) = s := by
  simp only [State.setReg, State.setRegs_regs, Regs.set_set_get]
  rfl

/-- Everything the page-fault protocol can do where the slot holds PF: a halt, or one frame into one entry (R136,
R162). -/
theorem raisePageFault_cases (hv : s.vec.pageFault = .pf) (x : GReg) (page : Nat) :
    (∃ r, (r = .ptRange ∨ r = .noFrame) ∧ raisePageFault x page s = haltEvent r s) ∨
      (∃ f rest, s.pool = f :: rest ∧ raisePageFault x page s = haltEvent .noFrame (s.setPool rest)) ∨
      (∃ f rest procs, s.pool = f :: rest ∧
        raisePageFault x page s = .ok () ((s.setPool rest).setProcs procs)) ∨
      ∃ k, raisePageFault x page s = .broken (.noLiveEntry k) := by
  have hraise : raisePageFault x page s = restoreReg x (s.regs.get x)
      (pfHandler (faultArg x (s.setReg x (BitVec.ofNat 32 page))) (s.setReg x (BitVec.ofNat 32 page))) := by
    simp [raisePageFault, raiseVector, Vectors.slot, State.setReg, hv, runHandler]
  have hrestore := State.setReg_restore s x (BitVec.ofNat 32 page)
  rw [hraise]
  generalize faultArg x (s.setReg x (BitVec.ofNat 32 page)) = arg
  generalize hu : s.setReg x (BitVec.ofNat 32 page) = u at hrestore ⊢
  have hpool : u.pool = s.pool := by rw [← hu]; rfl
  rcases pfHandler_cases arg u with ⟨-, e⟩ | ⟨-, -, e⟩ | ⟨rest, -, hp, e⟩ | ⟨f, rest, -, hp, -, e⟩
  · exact .inl ⟨.ptRange, .inl rfl, by rw [e]; exact congrArg (haltEvent .ptRange) hrestore⟩
  · exact .inl ⟨.noFrame, .inr rfl, by rw [e]; exact congrArg (haltEvent .noFrame) hrestore⟩
  · refine .inr (.inl ⟨noFrame, rest, hpool ▸ hp, ?_⟩)
    rw [e]
    exact congrArg (fun v => haltEvent .noFrame (State.setPool v rest)) hrestore
  · rw [e]
    cases hg : (u.setPool rest).liveEntry arg.toNat with
    | none => exact .inr (.inr (.inr ⟨arg.toNat, by rw [writeLiveEntry_of_none hg]; rfl⟩))
    | some g =>
      refine .inr (.inr (.inl ⟨f, rest, setLiveEntry u.procs u.livePt arg.toNat f, hpool ▸ hp, ?_⟩))
      rw [writeLiveEntry_of_some hg]
      exact congrArg (fun v => Ev.ok () ((State.setPool v rest).setProcs (setLiveEntry u.procs u.livePt arg.toNat f)))
        hrestore

/-- Everything a load or store can lead to where the slot holds PF (R135). -/
theorem access_next {kind : AccessKind} {x : GReg} {w1 : Word} (hv : s.vec.pageFault = .pf)
    (ht : (access kind x w1 s).outcome = .next t) :
    (∃ mem regs, t = (s.setMem mem).setRegs regs) ∨
      (∃ f rest procs, s.pool = f :: rest ∧ t = (s.setPool rest).setProcs procs) ∨
      (∃ r, (r = .noFrame ∨ r = .vaRange ∨ r = .ptRange) ∧ t = s.halt r) ∨
      ∃ f rest, s.pool = f :: rest ∧ t = (s.setPool rest).halt .noFrame := by
  unfold access at ht
  rcases translate_cases (addrOperand w1) s with ⟨-, e⟩ | ⟨f, -, -, e⟩ | ⟨f, -, -, e⟩ | ⟨-, e⟩ <;> rw [e] at ht
  · cases ht
    exact .inr (.inr (.inl ⟨.vaRange, by simp, rfl⟩))
  · rw [Ev.bind_ok] at ht
    rcases raisePageFault_cases hv x (s.pageOf (addrOperand w1)) with
      ⟨r, hr, e'⟩ | ⟨f', rest, hp, e'⟩ | ⟨f', rest, procs, hp, e'⟩ | ⟨k, e'⟩ <;> simp only [e'] at ht <;> cases ht
    · exact .inr (.inr (.inl ⟨r, hr.elim (fun h => .inr (.inr h)) .inl, rfl⟩))
    · exact .inr (.inr (.inr ⟨f', rest, hp, rfl⟩))
    · exact .inr (.inl ⟨f', rest, procs, hp, rfl⟩)
  · rw [Ev.bind_ok] at ht
    cases kind with
    | load =>
      simp only [accessHit, memRead] at ht
      split at ht <;> cases ht
      exact .inl ⟨s.mem, _, rfl⟩
    | store =>
      simp only [accessHit, memWrite] at ht
      split at ht <;> cases ht
      exact .inl ⟨_, _, rfl⟩
  · cases ht

/-- The control and status elements that no instruction but INT writes (R40, R43). -/
structure ControlKept (s t : State) : Prop where
  cfg : t.cfg = s.cfg
  vec : t.vec = s.vec
  livePt : t.livePt = s.livePt
  cur : t.cur = s.cur
  ticks : t.ticks = s.ticks
  nextPid : t.nextPid = s.nextPid
  rover : t.rover = s.rover
  pending : t.pending = s.pending
  replies : t.replies = s.replies

/-- A load or store takes at most the top frame of POOL and halts with one of three reasons; it writes no other control
element (R43, R60, R162). -/
theorem access_control {kind : AccessKind} {x : GReg} {w1 : Word} (hv : s.vec.pageFault = .pf)
    (ht : (access kind x w1 s).outcome = .next t) :
    ControlKept s t ∧ ((t.pool = s.pool ∧ t.procs = s.procs) ∨ ∃ f, s.pool = f :: t.pool) ∧
      ((t.phase = s.phase ∧ t.haltReason = s.haltReason) ∨
        t.phase = .halted ∧ (t.haltReason = 2 ∨ t.haltReason = 17 ∨ t.haltReason = 20)) := by
  rcases access_next hv ht with
    ⟨mem, regs, rfl⟩ | ⟨f, rest, procs, hp, rfl⟩ | ⟨r, hr, rfl⟩ | ⟨f, rest, hp, rfl⟩ <;>
    refine ⟨⟨rfl, rfl, rfl, rfl, rfl, rfl, rfl, rfl, rfl⟩, ?_, ?_⟩
  · exact .inl ⟨rfl, rfl⟩
  · exact .inl ⟨rfl, rfl⟩
  · exact .inr ⟨f, hp⟩
  · exact .inl ⟨rfl, rfl⟩
  · exact .inl ⟨rfl, rfl⟩
  · exact .inr ⟨rfl, by rcases hr with rfl | rfl | rfl <;> simp [HaltReason.code]⟩
  · exact .inr ⟨f, hp⟩
  · exact .inr ⟨rfl, .inl rfl⟩

/-- An instruction but INT is a load or store, or it writes registers and TRACE alone. -/
theorem exec_not_int {i : Instr} (hint : ∀ code, i ≠ .int code) (ht : exec i s = .next t) :
    (∃ kind x addr, i ∈ accessInstrs addr ∧ (access kind x addr s).outcome = .next t) ∨
      t = { s with regs := t.regs, trace := t.trace } := by
  cases i with
  | mova w => cases ht; exact .inr rfl
  | movb w => cases ht; exact .inr rfl
  | movc w => cases ht; exact .inr rfl
  | jmp w => cases ht; exact .inr rfl
  | int w => exact absurd rfl (hint w)
  | lda w => exact .inl ⟨.load, .a, w, by simp [accessInstrs], ht⟩
  | ldb w => exact .inl ⟨.load, .b, w, by simp [accessInstrs], ht⟩
  | ldc w => exact .inl ⟨.load, .c, w, by simp [accessInstrs], ht⟩
  | sta w => exact .inl ⟨.store, .a, w, by simp [accessInstrs], ht⟩
  | stb w => exact .inl ⟨.store, .b, w, by simp [accessInstrs], ht⟩
  | stc w => exact .inl ⟨.store, .c, w, by simp [accessInstrs], ht⟩
  | invalid w0 w1 => cases ht; exact .inr rfl

/-- Settles O20: a move, JMP or an invalid opcode writes registers and TRACE alone; a load or store may take one frame or
halt besides. -/
theorem onlyIntChangesControlState : Obligations.OnlyIntChangesControlState := by
  intro i s t hv hint ht
  rcases exec_not_int hint ht with ⟨kind, x, addr, hi, haccess⟩ | hquiet
  · obtain ⟨k, hpool, hphase⟩ := access_control hv haccess
    exact ⟨k.cfg, k.vec, k.livePt, k.cur, k.ticks, k.nextPid, k.rover, k.pending, k.replies,
      hpool.imp_right fun h => ⟨addr, hi, h⟩, hphase.imp_right fun h => ⟨addr, hi, h⟩⟩
  · rw [hquiet]
    exact ⟨rfl, rfl, rfl, rfl, rfl, rfl, rfl, rfl, rfl, .inl ⟨rfl, rfl⟩, .inl ⟨rfl, rfl⟩⟩

end Sys2Proof.Machine
end

section
/-! SUPPORT. Switching processes (spec 10_state.md R41; 60_exceptions.md R165 to R176): every handler that installs a page
table installs the registers saved for the same process, and the outgoing registers stand in their record. -/

namespace Sys2Proof.Machine

variable {s t : State} {live : Option Word} {saved : List (Word × Regs)} {E : State → Prop}

/-- Each process's id with its saved register set, in the order of PROCS (R29, R30). -/
def contextsOf (procs : List Process) : List (Word × Regs) := procs.map fun p => (p.pid, p.regs)

theorem contextsOf_set {procs : List Process} {i : Nat} {p q : Process} (hi : procs[i]? = some p)
    (hpid : q.pid = p.pid) (hregs : q.regs = p.regs) : contextsOf (procs.set i q) = contextsOf procs :=
  map_set_of_eq _ hi (by rw [hpid, hregs])

theorem contextsOf_setRegs (procs : List Process) (i : Nat) (p : Process) (r : Regs) :
    contextsOf (procs.set i (p.setRegs r)) = (contextsOf procs).set i (p.pid, r) := List.map_set

theorem contextsOf_eraseIdx (procs : List Process) (i : Nat) :
    contextsOf (procs.eraseIdx i) = (contextsOf procs).eraseIdx i := (List.eraseIdx_map ..).symm

theorem contextsOf_setLiveEntry (procs : List Process) (pid : Option Word) (page : Nat) (f : Word) :
    contextsOf (setLiveEntry procs pid page f) = contextsOf procs := by
  simp only [contextsOf, setLiveEntry, List.map_map]
  refine List.map_congr_left fun p _ => ?_
  simp only [Function.comp]
  split <;> rfl

/-- Before the DISPATCH of a handler: the live table is `live` and the saved contexts are `saved`. -/
def HoldsContexts (live : Option Word) (saved : List (Word × Regs)) (t : State) : Prop :=
  t.livePt = live ∧ contextsOf t.procs = saved

/-- After a handler: the live table is still `live`, or table and registers are those of one of the contexts `saved`,
which stand in PROCS (R171, R176). -/
def Switched (live : Option Word) (saved : List (Word × Regs)) (t : State) : Prop :=
  t.livePt = live ∨ contextsOf t.procs = saved ∧ ∃ x ∈ saved, t.livePt = some x.1 ∧ t.regs = x.2

/-! ### The handlers -/

/-- DISPATCH installs one process's table and registers together (R171). -/
theorem HoldsContexts.dispatch (h : HoldsContexts live saved s) (i : Nat) :
    (dispatch i s).All (fun _ t => Switched live saved t) E True := by
  cases hp : s.procs[i]? with
  | none => rw [dispatch_of_none hp]; trivial
  | some p =>
    rw [dispatch_of_some hp]
    refine .inr ⟨?_, (p.pid, p.regs), h.2 ▸ List.mem_map_of_mem (List.mem_of_getElem? hp), rfl, rfl⟩
    rw [State.dispatched_procs, contextsOf_set (q := p.setState .running) hp rfl rfl, h.2]

/-- The end of a retirement (R176). -/
theorem HoldsContexts.dispatchNext (h : HoldsContexts live saved s) (select : State → Nat) :
    (dispatchNext select s).All (fun _ t => Switched live saved t) (fun t => t.livePt = live) True := by
  by_cases hn : s.procs = []
  · rw [dispatchNext_nil _ hn]; exact h.1
  · rw [dispatchNext_ne _ hn]; exact h.dispatch _

/-- A change of a record that leaves its pid and saved registers. -/
theorem HoldsContexts.modifyProc (h : HoldsContexts live saved s) (i : Nat) {f : Process → Process}
    (hf : ∀ p, (f p).pid = p.pid ∧ (f p).regs = p.regs) :
    (modifyProc i f s).All (fun _ t => HoldsContexts live saved t) E True := by
  cases hp : s.procs[i]? with
  | none => rw [modifyProc_of_none _ hp]; trivial
  | some p =>
    rw [modifyProc_of_some _ hp]
    exact ⟨h.1, (contextsOf_set hp (hf p).1 (hf p).2).trans h.2⟩

/-- The retirements: the retired process's context is gone. -/
theorem HoldsContexts.retireThen (h : HoldsContexts live saved s) (i : Nat) (select : State → Nat) :
    ((retire i s).bind fun _ t => Machine.dispatchNext select t).All
      (fun _ t => Switched live (saved.eraseIdx i) t) (fun t => t.livePt = live) True := by
  cases hp : s.procs[i]? with
  | none => rw [retire_of_none hp]; trivial
  | some p =>
    rw [retire_of_some hp, Ev.bind_ok]
    have herased : HoldsContexts live (saved.eraseIdx i) (s.setProcs (s.procs.eraseIdx i)) :=
      ⟨h.1, by rw [State.setProcs_procs, contextsOf_eraseIdx, h.2]⟩
    exact herased.dispatchNext select

/-- The allocator and the page-fault handler write no context. -/
theorem holdsContexts_heapKeeps (live : Option Word) (saved : List (Word × Regs)) :
    HeapKeeps (HoldsContexts live saved) (fun t => t.livePt = live) True where
  halt := fun _ _ h => h.1
  mem := fun _ _ _ h _ => h
  rover := fun _ _ h => h
  serve := fun s page f _ _ h _ _ _ _ => ⟨h.1, (contextsOf_setLiveEntry s.procs s.livePt page f).trans h.2⟩
  pop := fun _ _ h _ => h.1
  ready := fun hB => absurd trivial hB

/-- Every handler of the software slot: one context is gone and another is installed, or the table stays (R165, R166,
R168, R170). -/
theorem State.Inv.raiseSoftware_switched (h : s.Inv) :
    (raiseSoftware s).All (fun _ t => Switched s.livePt ((contextsOf s.procs).eraseIdx s.cur) t)
      (fun t => t.livePt = s.livePt) True := by
  have hs : HoldsContexts s.livePt (contextsOf s.procs) s := ⟨rfl, rfl⟩
  unfold raiseSoftware raiseVector
  rw [h.vec_policy]
  cases s.cfg.policy with
  | fcfs => exact hs.retireThen s.cur _
  | sjf => exact hs.retireThen s.cur _
  | rr =>
    show (Machine.swiRr s).All _ _ _
    unfold Machine.swiRr
    cases hp : s.procs[s.cur]? with
    | none => simp only [procAt_of_none hp]; trivial
    | some p =>
      simp only [procAt_of_some hp, Ev.bind_ok]
      exact ((holdsContexts_heapKeeps _ _).freeExtent hs).bind fun _ t ht => ht.retireThen s.cur _
  | prio =>
    show (Machine.swiPrio s).All _ _ _
    unfold Machine.swiPrio
    split
    · exact hs.retireThen s.cur _
    · split
      · exact (hs.modifyProc s.cur (by simp)).mono (fun _ _ ht => .inl ht.1) fun _ => id
      · exact rfl

/-- SAVE puts the live registers into the record (R173). -/
theorem save_contexts {i : Nat} {p : Process} (hp : s.procs[i]? = some p) :
    (save i s).All (fun _ t => HoldsContexts s.livePt ((contextsOf s.procs).set i (p.pid, s.regs)) t) E True := by
  rw [save_of_some hp]
  exact ⟨rfl, contextsOf_setRegs s.procs i p s.regs⟩

/-- Every handler of the timer slot: the outgoing registers are saved and one context is installed, or the table stays
(R167, R169). -/
theorem State.Inv.raiseTimer_switched (h : s.Inv) {p : Process} (hp : s.procs[s.cur]? = some p) :
    (raiseTimer s).All (fun _ t => Switched s.livePt ((contextsOf s.procs).set s.cur (p.pid, s.regs)) t)
      (fun t => t.livePt = s.livePt) True := by
  unfold raiseTimer raiseVector
  rw [h.vec_policy]
  cases s.cfg.policy with
  | fcfs => exact .inl rfl
  | sjf => exact .inl rfl
  | rr =>
    show (Machine.tmrRr s).All _ _ _
    unfold Machine.tmrRr
    dsimp only
    split
    · refine (save_contexts (s := s.setTicks (s.ticks + 1)) hp).bind fun _ t ht => ?_
      exact (ht.modifyProc s.cur (by simp)).bind fun _ t ht => ht.dispatch _
    · exact .inl rfl
  | prio =>
    show (Machine.tmrPrio s).All _ _ _
    unfold Machine.tmrPrio
    dsimp only
    split
    · refine (save_contexts (s := s.setTicks (s.ticks + 1)) hp).bind fun _ t ht => ?_
      refine (ht.modifyProc s.cur (by simp)).bind fun _ t ht => ?_
      refine (ht.modifyProc s.cur (by simp)).bind fun _ t ht => ?_
      exact (ht.modifyProc (top t) (by simp)).bind fun _ t ht => ht.dispatch _
    · exact .inl rfl

/-! ### The events -/

/-- The end of an event whose handler switches. -/
theorem Switched.of_next {x : Ev Unit} (h : x.All (fun _ t => Switched live saved t) (fun t => t.livePt = live) True)
    (ht : x.outcome = .next t) : Switched live saved t :=
  Ev.All.next (B := True) (h.mono (fun _ _ => id) fun _ he => .inl he) ht

/-- A TIMER event in RUN. -/
theorem State.Inv.timer_switched (h : s.Inv) {p : Process} (hp : s.procs[s.cur]? = some p)
    (hevent : s.nextEvent = .timer) (ht : step s = .next t) :
    Switched s.livePt ((contextsOf s.procs).set s.cur (p.pid, s.regs)) t := by
  have heffect := (step_next ht).2
  rw [hevent] at heffect
  have htaken : (s.setPending s.pending.tail).Inv := h.setPending _
  exact Switched.of_next (htaken.raiseTimer_switched hp) heffect

/-- Settles O34: SAVE precedes the DISPATCH, which leaves the contexts. -/
theorem preemptionSavesRegisters : Obligations.PreemptionSavesRegisters := by
  intro s t h hrun hevent ht hlive
  obtain ⟨p, hp, hpid, -, -⟩ := h.live hrun
  obtain ⟨hcontexts, -⟩ := (h.timer_switched hp hevent ht).resolve_left hlive
  have hcur : s.cur < (contextsOf s.procs).length := by
    simpa [contextsOf] using (List.getElem?_eq_some_iff.mp hp).1
  have hsaved : (p.pid, s.regs) ∈ contextsOf t.procs := hcontexts ▸ List.mem_set hcur _
  obtain ⟨q, hq, he⟩ := List.mem_map.mp hsaved
  obtain ⟨hqp, hregs⟩ := Prod.mk.inj he
  exact ⟨q, hq, hqp ▸ hpid, hregs⟩

/-- An instruction leaves the live table, or it is an INT that installed a saved context with its table. -/
theorem State.Inv.exec_switched (h : s.Inv) {i : Instr} (ht : exec i s = .next t) :
    Switched s.livePt ((contextsOf s.procs).eraseIdx s.cur) t := by
  by_cases hint : ∀ code, i ≠ .int code
  · have hv : s.vec.pageFault = .pf := by rw [h.vec_policy]; cases s.cfg.policy <;> rfl
    obtain ⟨-, -, hlive, -⟩ := onlyIntChangesControlState i s t hv hint ht
    exact .inl hlive
  · obtain ⟨code, rfl⟩ : ∃ code, i = .int code := by simpa using hint
    change execInt code s = .next t at ht
    unfold execInt at ht
    split at ht
    · split at ht
      · have hadvanced : s.advance.Inv := h.setRegs _
        exact Switched.of_next hadvanced.raiseSoftware_switched ht
      · exact Switched.of_next h.raiseSoftware_switched ht
    · cases ht
      exact .inl rfl

/-- A context of PROCS is a process's pid and saved registers. -/
theorem Switched.installs (h : Switched s.livePt saved t) (hne : t.livePt ≠ s.livePt)
    (hsaved : ∀ x ∈ saved, x ∈ contextsOf s.procs ∨ s.livePt = some x.1) :
    ∃ p ∈ s.procs, t.livePt = some p.pid ∧ t.regs = p.regs := by
  obtain ⟨-, x, hx, hpt, hregs⟩ := h.resolve_left hne
  rcases hsaved x hx with hx | hlive
  · obtain ⟨p, hp, rfl⟩ := List.mem_map.mp hx
    exact ⟨p, hp, hpt, hregs⟩
  · exact absurd (hpt.trans hlive.symm) hne

/-- Settles O35: of the events of RUN, STEP, SWI and TIMER switch, each to a process whose context stands in PROCS. -/
theorem switchInstallsRegistersAndTable : Obligations.SwitchInstallsRegistersAndTable := by
  intro s t h hrun ht hlive
  obtain ⟨hadmitted, heffect⟩ := step_next ht
  have htaken : (s.setPending s.pending.tail).Inv := h.setPending _
  have herased : ∀ x ∈ (contextsOf s.procs).eraseIdx s.cur, x ∈ contextsOf s.procs ∨ s.livePt = some x.1 :=
    fun x hx => .inl (List.mem_of_mem_eraseIdx hx)
  rw [hrun] at hadmitted
  cases he : s.nextEvent with
  | step =>
    rw [he] at heffect
    rcases cpuCycle_next heffect with rfl | ⟨i, hi⟩
    · exact absurd rfl hlive
    · exact Switched.installs (htaken.exec_switched hi) hlive herased
  | timer =>
    obtain ⟨p, hp, hpid, -, -⟩ := h.live hrun
    refine (h.timer_switched hp he ht).installs hlive fun x hx => ?_
    rcases List.mem_or_eq_of_mem_set hx with hx | rfl
    · exact .inl hx
    · exact .inr hpid
  | swi =>
    rw [he] at heffect
    exact (Switched.of_next htaken.raiseSoftware_switched heffect).installs hlive herased
  | frameAcquire =>
    rw [he] at heffect
    cases heffect
    obtain ⟨pool, replies, e⟩ := hostFrameAcquire_eq (s.setPending s.pending.tail)
    rw [e] at hlive
    exact absurd rfl hlive
  | frameRelease f =>
    rw [he] at heffect
    rcases releaseFrame_cases f (s.setPending s.pending.tail) with ⟨-, e⟩ | ⟨-, -, e⟩ <;>
      (simp only [eventEffect, e] at heffect; cases heffect; exact absurd rfl hlive)
  | observe => rw [he] at heffect; cases heffect; exact absurd rfl hlive
  | _ => rw [he] at hadmitted; cases hadmitted

end Sys2Proof.Machine
end

section
/-! SUPPORT. The next-fit scan (spec 20_memory.md R70, R73, R76): the ring of free blocks as the scan walks it, what a
well-kept heap says of each block, and the one statement that allocation is next-fit. -/

namespace Sys2Proof.Machine

variable {s : State} {m : Memory}

/-! ### The extents of the managed range -/

theorem tiles_le {lo hi : Nat} {all : List (Nat × Nat)} (h : tiles lo hi all) : lo ≤ hi := by
  induction all generalizing lo with
  | nil => exact Nat.le_of_eq h
  | cons x all ih =>
    obtain ⟨-, -, htail⟩ := h
    exact Nat.le_trans (Nat.le_add_right lo x.2) (ih htail)

/-- An extent lies in the range it helps to tile. -/
theorem tiles_bounds {lo hi : Nat} {all : List (Nat × Nat)} (h : tiles lo hi all) :
    ∀ x ∈ all, lo ≤ x.1 ∧ x.1 + x.2 ≤ hi := by
  induction all generalizing lo with
  | nil => simp
  | cons x all ih =>
    obtain ⟨hx, -, htail⟩ := h
    intro y hy
    rcases List.mem_cons.mp hy with rfl | hy
    · exact ⟨Nat.le_of_eq hx.symm, hx ▸ tiles_le htail⟩
    · have := ih htail y hy
      omega

/-- The sizes of the extents add up to the range. -/
theorem tiles_sum {lo hi : Nat} {all : List (Nat × Nat)} (h : tiles lo hi all) :
    lo + (all.map Prod.snd).sum = hi := by
  induction all generalizing lo with
  | nil => exact h
  | cons x all ih =>
    obtain ⟨-, -, htail⟩ := h
    rw [List.map_cons, List.sum_cons, ← ih htail, Nat.add_assoc]

/-- Blocks of two words at least fill at least twice their number. -/
theorem two_mul_length_le_sum {l : List (Nat × Nat)} (h : ∀ x ∈ l, 2 ≤ x.2) :
    2 * l.length ≤ (l.map Prod.snd).sum := by
  induction l with
  | nil => simp
  | cons x l ih =>
    obtain ⟨hx, hl⟩ := List.forall_mem_cons.mp h
    have := ih hl
    simp only [List.length_cons, List.map_cons, List.sum_cons]
    omega

/-- There are no more free blocks than a scan may pass (R73). -/
theorem State.heapTiled.length_le {free live : List (Nat × Nat)} (h : s.heapTiled free live) :
    free.length ≤ s.scanBound := by
  obtain ⟨all, hperm, htiles⟩ := h.tiled
  have hsum := tiles_sum htiles
  rw [(hperm.map Prod.snd).sum_eq, List.map_append, List.sum_append] at hsum
  have := two_mul_length_le_sum h.header_fits
  unfold Config.heapEnd at hsum
  unfold State.scanBound
  omega

/-! ### The ring of free blocks -/

/-- The address of a list's first block, or `z` where there is none. -/
def headAddr (l : List (Nat × Nat)) (z : Nat) : Nat := (l.head?.map Prod.fst).getD z

@[simp] theorem headAddr_nil (z : Nat) : headAddr [] z = z := rfl
@[simp] theorem headAddr_cons (x : Nat × Nat) (l : List (Nat × Nat)) (z : Nat) : headAddr (x :: l) z = x.1 := rfl

/-- A block's header holds the next block's address, or `z` after the last, and its own size (R70). -/
theorem headersFrom_cons (m : Memory) (z : Nat) (x : Nat × Nat) (l : List (Nat × Nat)) :
    headersFrom m z (x :: l) ↔
      (m.readWord x.1 = BitVec.ofNat 32 (headAddr l z) ∧ m.readWord (x.1 + 1) = BitVec.ofNat 32 x.2) ∧
        headersFrom m z l := by
  cases l with
  | nil => simp [headersFrom]
  | cons y l => exact Iff.rfl

theorem headersFrom_append (m : Memory) (z : Nat) (l₁ l₂ : List (Nat × Nat)) :
    headersFrom m z (l₁ ++ l₂) ↔ headersFrom m (headAddr l₂ z) l₁ ∧ headersFrom m z l₂ := by
  induction l₁ with
  | nil => simp [headersFrom]
  | cons x l₁ ih =>
    have hnext : headAddr (l₁ ++ l₂) z = headAddr l₁ (headAddr l₂ z) := by cases l₁ <;> rfl
    rw [List.cons_append, headersFrom_cons, headersFrom_cons, ih, hnext]
    exact and_assoc.symm

/-- A free list whose last block leads to its first one (R70). -/
def Ring (m : Memory) (l : List (Nat × Nat)) : Prop := headersFrom m (headAddr l 0) l

/-- A ring read from another of its blocks. -/
theorem Ring.rotate {l₁ l₂ : List (Nat × Nat)} (h : Ring m (l₁ ++ l₂)) : Ring m (l₂ ++ l₁) := by
  cases l₁ with
  | nil => simpa using h
  | cons x l₁ =>
    cases l₂ with
    | nil => simpa using h
    | cons y l₂ =>
      have h' := (headersFrom_append m _ _ _).mp h
      exact (headersFrom_append m _ _ _).mpr ⟨h'.2, h'.1⟩

/-! ### The scan -/

/-- What a well-kept heap says of a free block: it lies in the managed range, and its header holds its size. -/
structure State.FreeBlock (s : State) (x : Nat × Nat) : Prop where
  base_le : s.cfg.heapBase.toNat ≤ x.1
  le_end : x.1 + x.2 ≤ s.cfg.heapEnd
  header_fits : 2 ≤ x.2
  size : (s.mem.readWord (x.1 + 1)).toNat = x.2

/-- The range ends below the last word address (R6). -/
theorem Config.heapEnd_lt {c : Config} (hc : c.wf) : c.heapEnd < 2 ^ 32 := by
  obtain ⟨h1, -, -, h4, -, h6, -⟩ := hc
  omega

theorem toNat_ofNat_of_lt_heapEnd {c : Config} (hc : c.wf) {a : Nat} (h : a ≤ c.heapEnd) :
    (BitVec.ofNat 32 a).toNat = a :=
  (BitVec.toNat_ofNat a 32).trans (Nat.mod_eq_of_lt (Nat.lt_of_le_of_lt h (Config.heapEnd_lt hc)))

theorem State.heapTiled.freeBlock {free live : List (Nat × Nat)} (h : s.heapTiled free live) (hc : s.cfg.wf)
    {x : Nat × Nat} (hx : x ∈ free) : s.FreeBlock x := by
  obtain ⟨all, hperm, htiles⟩ := h.tiled
  obtain ⟨hbase, hend⟩ := tiles_bounds htiles x (hperm.mem_iff.mpr (List.mem_append_left live hx))
  refine ⟨hbase, hend, h.header_fits x hx, ?_⟩
  obtain ⟨l₁, l₂, rfl⟩ := List.append_of_mem hx
  have hlinks := ((headersFrom_append s.mem _ l₁ (x :: l₂)).mp h.headers).2
  obtain ⟨⟨-, hsize⟩, -⟩ := (headersFrom_cons s.mem _ x l₂).mp hlinks
  rw [hsize, toNat_ofNat_of_lt_heapEnd hc (by omega)]

/-- One block of the scan: its check passes and its size is read (R73). -/
theorem allocScan_eq (hc : s.cfg.wf) (hp : s.heapPhysical) {x : Nat × Nat} (hx : s.FreeBlock x) (n fuel prev : Nat) :
    allocScan n fuel prev x.1 s =
      if n ≤ x.2 then allocTake n prev x.1 x.2 s
      else if x.1 = s.rover.toNat then .ok none s
      else match fuel with
        | 0 => haltEvent .heapFault s
        | fuel + 1 => allocScan n fuel x.1 (s.mem.readWord x.1).toNat s := by
  obtain ⟨hbase, hend, hfits, hsize⟩ := hx
  have hcheck : checkBlock x.1 s = .ok () s :=
    checkBlock_physical hc hp hbase (by rw [hsize]; exact hfits) (by rw [hsize]; exact hend)
  have hread : aRead (x.1 + 1) s = .ok x.2 s := by
    rw [aRead_physical hc hp ⟨by omega, by omega⟩, hsize]
  have hnext : aRead x.1 s = .ok (s.mem.readWord x.1).toNat s := aRead_physical hc hp ⟨hbase, by omega⟩
  cases fuel with
  | zero => rw [allocScan, hcheck, Ev.bind_ok, hread, Ev.bind_ok]
  | succ fuel => rw [allocScan, hcheck, Ev.bind_ok, hread, Ev.bind_ok]; simp only [hnext, Ev.bind_ok]

/-- The scan passes the blocks that do not fit and are not ROVER's, along their links (R73). -/
theorem allocScan_skips (hc : s.cfg.wf) (hp : s.heapPhysical) {n z : Nat} (hz : z ≤ s.cfg.heapEnd)
    (skipped : List (Nat × Nat)) :
    ∀ fuel prev, headersFrom s.mem z skipped → (∀ x ∈ skipped, s.FreeBlock x) →
      (∀ x ∈ skipped, x.2 < n ∧ x.1 ≠ s.rover.toNat) → skipped.length ≤ fuel →
      allocScan n fuel prev.1 (headAddr skipped z) s =
        allocScan n (fuel - skipped.length) ((prev :: skipped).getLast (by simp)).1 z s := by
  induction skipped with
  | nil => exact fun fuel prev _ _ _ _ => rfl
  | cons x skipped ih =>
    intro fuel prev hlinks hblocks hpass hfuel
    obtain ⟨⟨hnext, -⟩, hlinks⟩ := (headersFrom_cons s.mem z x skipped).mp hlinks
    obtain ⟨hx, hblocks⟩ := List.forall_mem_cons.mp hblocks
    obtain ⟨⟨hsmall, hrover⟩, hpass⟩ := List.forall_mem_cons.mp hpass
    have haddr : headAddr skipped z ≤ s.cfg.heapEnd := by
      cases skipped with
      | nil => exact hz
      | cons y l => exact Nat.le_trans (Nat.le_add_right _ _) (hblocks y (by simp)).le_end
    obtain ⟨fuel, rfl⟩ : ∃ k, fuel = k + 1 := ⟨fuel - 1, by simp only [List.length_cons] at hfuel; omega⟩
    rw [headAddr_cons, allocScan_eq hc hp hx, if_neg (by omega), if_neg hrover]
    simp only [hnext, toNat_ofNat_of_lt_heapEnd hc haddr]
    rw [ih fuel x hlinks hblocks hpass (by simpa using hfuel)]
    simp

/-! ### Taking the block -/

/-- A fitting block is taken with the request where a tail stays, else whole, and ROVER goes to the block before it, or,
where that is the block itself, to the tail or to NIL (R73). -/
theorem allocTake_physical (hc : s.cfg.wf) (hp : s.heapPhysical) {n prev p size : Nat}
    (hbase : s.cfg.heapBase.toNat ≤ p) (hend : p + size ≤ s.cfg.heapEnd) (hn : n ≤ size) (hsize : 2 ≤ size)
    (hprev : s.inHeap prev) :
    ∃ t, allocTake n prev p size s = .ok (some (p, if 2 < size - n then n else size)) t ∧
      t.rover =
        if p = prev then (if 2 < size - n then BitVec.ofNat 32 (p + n) else nil) else BitVec.ofNat 32 prev := by
  have hlimit := Config.heapEnd_lt hc
  have hinHeap : s.inHeap p := ⟨hbase, by omega⟩
  have hread : ∀ m : Memory, aRead p (s.setMem m) = .ok (m.readWord p).toNat (s.setMem m) := fun m =>
    aRead_physical (s := s.setMem m) hc hp hinHeap
  have hwrite : ∀ (m : Memory) (x v : Nat), s.inHeap x → v < 2 ^ 32 →
      aWrite x v (s.setMem m) = .ok () (s.setMem (m.writeWord x (BitVec.ofNat 32 v))) := fun m x v hx hv =>
    aWrite_physical (s := s.setMem m) hc hp hx hv
  change ∃ t, allocTake n prev p size (s.setMem s.mem) = _ ∧ _
  unfold allocTake
  by_cases hsplit : 2 < size - n
  · simp only [if_pos hsplit]
    rw [hwrite _ _ _ ⟨by omega, by omega⟩ (by omega), Ev.bind_ok]
    by_cases hself : p = prev
    · rw [if_pos hself, if_pos hself, hwrite _ _ _ ⟨by omega, by omega⟩ (by omega), Ev.bind_ok]
      exact ⟨_, rfl, rfl⟩
    · rw [if_neg hself, if_neg hself, hread, Ev.bind_ok, hwrite _ _ _ ⟨by omega, by omega⟩ (BitVec.isLt _), Ev.bind_ok,
        hwrite _ _ _ hprev (by omega), Ev.bind_ok]
      exact ⟨_, rfl, rfl⟩
  · simp only [if_neg hsplit]
    by_cases hself : p = prev
    · rw [if_pos hself, if_pos hself]
      exact ⟨_, rfl, rfl⟩
    · rw [if_neg hself, if_neg hself, hread, Ev.bind_ok, hwrite _ _ _ hprev (BitVec.isLt _), Ev.bind_ok]
      exact ⟨_, rfl, rfl⟩

/-! ### The allocation -/

/-- A well-kept heap as the scan walks it: ROVER's block `r`, and the blocks `others` after it in circular order. -/
structure State.ScanRing (s : State) (r : Nat × Nat) (others : List (Nat × Nat)) : Prop where
  ring : Ring s.mem (others ++ [r])
  blocks : ∀ x ∈ others ++ [r], s.FreeBlock x
  distinct : ((others ++ [r]).map Prod.fst).Nodup
  few : others.length ≤ s.scanBound
  rover : s.rover = BitVec.ofNat 32 r.1

theorem State.heapTiled.scanRing {pre post live : List (Nat × Nat)} {r : Nat × Nat} (hc : s.cfg.wf)
    (h : s.heapTiled (pre ++ r :: post) live) (hrover : s.rover = BitVec.ofNat 32 r.1) :
    s.ScanRing r (post ++ pre) := by
  have hperm : (post ++ pre ++ [r]).Perm (pre ++ r :: post) := by
    rw [List.append_assoc, List.append_cons pre r post]
    exact List.perm_append_comm
  have hring : Ring s.mem ((pre ++ [r]) ++ post) := by
    rw [← List.append_cons]
    exact h.headers
  refine ⟨by rw [List.append_assoc]; exact hring.rotate, fun x hx => h.freeBlock hc (hperm.mem_iff.mp hx), ?_, ?_, hrover⟩
  · refine (hperm.map Prod.fst).nodup_iff.mpr (List.pairwise_map.mpr (h.ascending.imp fun hlt => Nat.ne_of_lt hlt))
  · have hlen := h.length_le
    have := hperm.length_eq
    simp only [List.length_append, List.length_cons, List.length_nil] at hlen this ⊢
    omega

variable {r : Nat × Nat} {others : List (Nat × Nat)}

theorem State.ScanRing.rover_toNat (h : s.ScanRing r others) (hc : s.cfg.wf) : s.rover.toNat = r.1 := by
  have hr := h.blocks r (by simp)
  rw [h.rover, toNat_ofNat_of_lt_heapEnd hc (Nat.le_trans (Nat.le_add_right _ _) hr.le_end)]

/-- A legal request reads ROVER's link and scans from there (R73). -/
theorem State.ScanRing.allocateMemory_eq (h : s.ScanRing r others) (hc : s.cfg.wf) (hp : s.heapPhysical)
    {units : Word} (hpos : 0 < units.toNat) (hle : units.toNat ≤ s.cfg.heapWords.toNat) :
    allocateMemory units s =
      allocScan (max units.toNat 2) s.scanBound r.1 (headAddr (others ++ [r]) 0) s := by
  have hr := h.blocks r (by simp)
  have hrover := h.rover_toNat hc
  have hend := Config.heapEnd_lt hc
  have hnil : s.rover ≠ nil := by
    intro he
    rw [he] at hrover
    have hsentinel : nil.toNat = 2 ^ 32 - 1 := rfl
    have := hr.le_end
    have := hr.header_fits
    omega
  obtain ⟨⟨hlink, -⟩, -⟩ := (headersFrom_cons s.mem _ r []).mp ((headersFrom_append s.mem _ others [r]).mp h.ring).2
  have hhead : headAddr (others ++ [r]) 0 ≤ s.cfg.heapEnd := by
    cases others with
    | nil => exact Nat.le_trans (Nat.le_add_right _ _) hr.le_end
    | cons y l => exact Nat.le_trans (Nat.le_add_right _ _) (h.blocks y (by simp)).le_end
  have hread : aRead r.1 s = .ok (headAddr (others ++ [r]) 0) s := by
    have := hr.le_end
    have := hr.header_fits
    rw [aRead_physical hc hp ⟨hr.base_le, by omega⟩, hlink, headAddr_nil, toNat_ofNat_of_lt_heapEnd hc hhead]
  unfold allocateMemory
  rw [if_neg (by omega), if_neg hnil, hrover, hread, Ev.bind_ok, hrover]

/-- The blocks before `b` in the ring's order are no `b` and no ROVER's block. -/
theorem State.ScanRing.skipped_ne (h : s.ScanRing r others) {skipped rest : List (Nat × Nat)} {b : Nat × Nat}
    (hsplit : others ++ [r] = skipped ++ b :: rest) : ∀ x ∈ skipped, x.1 ≠ b.1 ∧ x.1 ≠ r.1 := by
  have hdistinct := h.distinct
  rw [hsplit, List.map_append, List.nodup_append] at hdistinct
  have hlast : r ∈ b :: rest := by
    have hl := congrArg List.getLast? hsplit
    rw [List.getLast?_concat, List.getLast?_append_cons] at hl
    exact List.mem_of_getLast? hl.symm
  intro x hx
  have hne := hdistinct.2.2 x.1 (List.mem_map_of_mem hx)
  exact ⟨hne b.1 (List.mem_map_of_mem (by simp)), hne r.1 (List.mem_map_of_mem hlast)⟩

/-- The scan reaches the block `b` with all the blocks before it too small. -/
theorem State.ScanRing.scan_to (h : s.ScanRing r others) (hc : s.cfg.wf) (hp : s.heapPhysical)
    {skipped rest : List (Nat × Nat)} {b : Nat × Nat} {n : Nat} (hsplit : others ++ [r] = skipped ++ b :: rest)
    (hsmall : ∀ x ∈ skipped, x.2 < n) :
    allocScan n s.scanBound r.1 (headAddr (others ++ [r]) 0) s =
      allocScan n (s.scanBound - skipped.length) ((r :: skipped).getLast (by simp)).1 b.1 s := by
  have hblocks := h.blocks
  have hring : headersFrom s.mem _ (others ++ [r]) := h.ring
  rw [hsplit] at hblocks hring ⊢
  have hhead : headAddr (skipped ++ b :: rest) 0 = headAddr skipped b.1 := by cases skipped <;> rfl
  have hlen := congrArg List.length hsplit
  simp only [List.length_append, List.length_cons, List.length_nil] at hlen
  rw [hhead]
  refine allocScan_skips hc hp (Nat.le_trans (Nat.le_add_right _ _) (hblocks b (by simp)).le_end) skipped _ r
    ((headersFrom_append s.mem _ skipped (b :: rest)).mp hring).1 (fun x hx => hblocks x (by simp [hx]))
    (fun x hx => ⟨hsmall x hx, ?_⟩) (by have := h.few; omega)
  rw [h.rover_toNat hc]
  exact (h.skipped_ne hsplit x hx).2

/-- The block before `b` in the ring is `b` itself exactly where there is no other block. -/
theorem State.ScanRing.eq_prev_iff (h : s.ScanRing r others) {skipped rest : List (Nat × Nat)} {b : Nat × Nat}
    (hsplit : others ++ [r] = skipped ++ b :: rest) :
    b.1 = ((r :: skipped).getLast (by simp)).1 ↔ others = [] := by
  cases skipped with
  | nil =>
    cases others with
    | nil =>
      have hb : r = b := (List.cons.inj hsplit).1
      simp [hb]
    | cons y others =>
      have hb : y = b := (List.cons.inj hsplit).1
      have hdistinct := h.distinct
      rw [List.cons_append, List.map_cons, List.nodup_cons] at hdistinct
      have hne : b.1 ≠ r.1 := fun he => hdistinct.1 (by rw [hb, he]; exact List.mem_map_of_mem (by simp))
      simpa using hne
  | cons x skipped =>
    have hprev := (h.skipped_ne hsplit _ (List.getLast_mem (List.cons_ne_nil x skipped))).1
    rw [List.getLast_cons (List.cons_ne_nil x skipped)]
    refine ⟨fun he => absurd he.symm hprev, fun he => ?_⟩
    have hlen := congrArg List.length hsplit
    rw [he] at hlen
    simp at hlen

/-- Settles O59: the scan walks the ring from the block after ROVER's to the first that fits, or to ROVER's own. -/
theorem allocationIsNextFit : Obligations.AllocationIsNextFit := by
  rintro s units n pre post live r hc hlive htiled hrover hpos hle rfl
  have hp : s.heapPhysical := .inr hlive
  have hring := htiled.scanRing hc hrover
  have hstart := hring.allocateMemory_eq hc hp hpos hle
  refine ⟨fun skipped rest b hsplit hsmall hfit => ?_, fun hnone => ?_⟩
  · have hb : s.FreeBlock b := hring.blocks b (by rw [hsplit]; simp)
    have hprev : s.FreeBlock ((r :: skipped).getLast (by simp)) := by
      refine hring.blocks _ ?_
      rcases List.mem_cons.mp (List.getLast_mem (l := r :: skipped) (by simp)) with he | hm
      · rw [he]; simp
      · rw [hsplit]; exact List.mem_append_left _ hm
    have hinHeap : s.inHeap ((r :: skipped).getLast (by simp)).1 := by
      have := hprev.base_le
      have := hprev.le_end
      have := hprev.header_fits
      exact ⟨by omega, by omega⟩
    rw [hstart, hring.scan_to hc hp hsplit hsmall, allocScan_eq hc hp hb, if_pos hfit]
    have htake := allocTake_physical hc hp hb.base_le hb.le_end hfit hb.header_fits hinHeap
    simp only [hring.eq_prev_iff hsplit] at htake
    exact htake
  · have hall : ∀ x ∈ post ++ pre, x.2 < max units.toNat 2 := fun x hx =>
      hnone x (by rcases List.mem_append.mp hx with h | h <;> simp [h])
    rw [hstart, hring.scan_to hc hp (b := r) (rest := []) rfl hall,
      allocScan_eq hc hp (hring.blocks r (by simp)), if_neg (Nat.not_le.mpr (hnone r (by simp))),
      if_pos (hring.rover_toNat hc).symm]

end Sys2Proof.Machine
end

section
/-! SUPPORT. The memory accesses from outside (spec 20_memory.md R60 to R67; 43_load_store.md R135 to R142;
60_exceptions.md R162, R190): what a load or store does on a hit, on a miss and outside the page table, the two frame
ports, and the image file's words. -/

namespace Sys2Proof.Machine

variable {s : State} {addr : Word}

/-! ### One access -/

/-- A load or store is one access; LDA and STA name register `a` (R137 to R142). -/
theorem exec_of_mem_accessInstrs {i : Instr} {addr : Word} (hi : i ∈ accessInstrs addr) :
    ∃ kind x, (i = .lda addr ∨ i = .sta addr → x = .a) ∧ ∀ s, exec i s = (access kind x addr s).outcome := by
  simp only [accessInstrs, List.mem_cons, List.not_mem_nil, or_false] at hi
  rcases hi with rfl | rfl | rfl | rfl | rfl | rfl
  · exact ⟨.load, .a, fun _ => rfl, fun _ => rfl⟩
  · exact ⟨.load, .b, by simp, fun _ => rfl⟩
  · exact ⟨.load, .c, by simp, fun _ => rfl⟩
  · exact ⟨.store, .a, fun _ => rfl, fun _ => rfl⟩
  · exact ⟨.store, .b, by simp, fun _ => rfl⟩
  · exact ⟨.store, .c, by simp, fun _ => rfl⟩

/-- An access of a page outside the table (R60). -/
theorem access_of_ge (h : s.cfg.ptEntries ≤ s.pageOf addr.toNat) (kind : AccessKind) (x : GReg) :
    access kind x addr s = haltEvent .vaRange s := by
  rw [access, addrOperand, translate_out_of_range h, Ev.bind_halt]

/-- An access of a mapped page (R61, R135). -/
theorem access_of_mapped {f : Word} (h : s.entryIs (s.pageOf addr.toNat) f) (hf : f ≠ unmapped) (kind : AccessKind)
    (x : GReg) : access kind x addr s = accessHit kind x (f.toNat + s.offsetOf addr.toNat) s := by
  rw [access, addrOperand, translate_of_entry h, if_neg hf, Ev.bind_ok]

/-- An access of an unmapped page (R61, R135). -/
theorem access_of_unmapped (h : s.entryIs (s.pageOf addr.toNat) unmapped) (kind : AccessKind) (x : GReg) :
    access kind x addr s = raisePageFault x (s.pageOf addr.toNat) s := by
  rw [access, addrOperand, translate_of_entry h, if_pos rfl, Ev.bind_ok]

theorem accessHit_load {pa : Nat} (h : pa < s.cfg.ramWords) (x : GReg) :
    accessHit .load x pa s = .ok () (s.setReg x (s.mem.readWord pa)).advance := by
  rw [accessHit, memRead_of_lt h, Ev.bind_ok]

theorem accessHit_store {pa : Nat} (h : pa < s.cfg.ramWords) (x : GReg) :
    accessHit .store x pa s = .ok () (s.setMem (s.mem.writeWord pa (s.regs.get x))).advance := by
  rw [accessHit, memWrite_of_lt h, Ev.bind_ok]

/-- Settles O21: the three loads are one access that hits, each with its own register. -/
theorem loadHitReadsWord : Obligations.LoadHitReadsWord := by
  intro s addr f hpage hentry hf hram
  have hload : ∀ x, access .load x addr s =
      .ok () (s.setReg x (s.mem.readWord (f.toNat + addr.toNat % s.cfg.pageSize))).advance := fun x =>
    (access_of_mapped ⟨hpage, hentry⟩ hf .load x).trans (accessHit_load hram x)
  exact ⟨congrArg Ev.outcome (hload .a), congrArg Ev.outcome (hload .b), congrArg Ev.outcome (hload .c)⟩

/-- What a store that hits leaves: its word written and `ip` advanced (R135, R83). -/
theorem store_of_mapped {f : Word} (hwf : s.mem.wf) (h : s.entryIs (s.pageOf addr.toNat) f) (hf : f ≠ unmapped)
    (hram : f.toNat + s.offsetOf addr.toNat < s.cfg.ramWords) (x : GReg) :
    ∃ t, (access .store x addr s).outcome = .next t ∧
      t = { s with mem := t.mem, regs := { s.regs with ip := s.regs.ip + 2 } } ∧ t.mem.wf ∧
      t.mem.readWord (f.toNat + s.offsetOf addr.toNat) = s.regs.get x ∧
      ∀ a, a < 4 * (f.toNat + s.offsetOf addr.toNat) ∨ 4 * (f.toNat + s.offsetOf addr.toNat) + 4 ≤ a →
        t.mem.read a = s.mem.read a := by
  rw [access_of_mapped h hf, accessHit_store hram]
  exact ⟨_, rfl, rfl, Memory.writeWord_wf hwf _ _, Memory.readWord_writeWord_same hwf _ _,
    fun a ha => Memory.read_writeWord_outside _ _ a _ ha⟩

/-- Settles O22: the three stores are one access that hits, each with its own register. -/
theorem storeHitWritesOneWord : Obligations.StoreHitWritesOneWord := by
  intro s addr f hwf hpage hentry hf hram x hx
  have hstore := store_of_mapped hwf ⟨hpage, hentry⟩ hf hram
  simp only [List.mem_cons, List.not_mem_nil, or_false] at hx
  rcases hx with rfl | rfl | rfl
  · exact hstore .a
  · exact hstore .b
  · exact hstore .c

/-- Settles O23: the translation ends the event before any register or word is touched. -/
theorem accessOutsidePageTableHalts : Obligations.AccessOutsidePageTableHalts := by
  intro s addr hpage i hi
  obtain ⟨kind, x, -, hexec⟩ := exec_of_mem_accessInstrs hi
  rw [hexec, access_of_ge hpage]
  rfl

/-! ### The page-fault protocol -/

/-- The handler's argument is the page, where it comes from the register the protocol wrote (R136). -/
theorem faultArg_eq_page {x : GReg} (h : s.cfg.faultArgReg = .instrReg ∨ x = .a) (w : Word) :
    faultArg x (s.setReg x w) = w := by
  unfold faultArg
  split
  · exact Regs.get_set s.regs x w
  · rename_i hreg
    obtain rfl := h.resolve_left fun hinstr => by rw [State.setReg_cfg, hinstr] at hreg; cases hreg
    exact Regs.get_set s.regs .a w

/-- The page-fault protocol whose argument is the page runs PF on it and restores the register (R136, R162). -/
theorem raisePageFault_eq (hv : s.vec.pageFault = .pf) {x : GReg} (harg : s.cfg.faultArgReg = .instrReg ∨ x = .a)
    (page : Nat) :
    raisePageFault x page s =
      restoreReg x (s.regs.get x) (pfHandler (BitVec.ofNat 32 page) (s.setReg x (BitVec.ofNat 32 page))) := by
  have hslot : (s.setReg x (BitVec.ofNat 32 page)).vec.slot .pageFault = .pf := hv
  simp only [raisePageFault, raiseVector, hslot, runHandler, faultArg_eq_page harg]

/-- A page index fits a word. -/
theorem toNat_pageOf (s : State) (addr : Word) : (BitVec.ofNat 32 (s.pageOf addr.toNat)).toNat = s.pageOf addr.toNat :=
  (BitVec.toNat_ofNat _ 32).trans (Nat.mod_eq_of_lt (Nat.lt_of_le_of_lt (Nat.div_le_self _ _) addr.isLt))

/-- A miss with a frame in the pool maps it and leaves the registers (R136, R162). -/
theorem access_miss_maps {f : Word} {rest : List Word} (hv : s.vec.pageFault = .pf)
    (h : s.entryIs (s.pageOf addr.toNat) unmapped) (hpool : s.pool = f :: rest) (hf : f ≠ noFrame) {x : GReg}
    (harg : s.cfg.faultArgReg = .instrReg ∨ x = .a) (kind : AccessKind) :
    access kind x addr s =
      .ok () ((s.setPool rest).setProcs (setLiveEntry s.procs s.livePt (s.pageOf addr.toNat) f)) := by
  rw [access_of_unmapped h, raisePageFault_eq hv harg]
  generalize hw : BitVec.ofNat 32 (s.pageOf addr.toNat) = w
  have hpage : w.toNat = s.pageOf addr.toNat := hw ▸ toNat_pageOf s addr
  have hlt : ¬ (s.setReg x w).cfg.ptEntries ≤ w.toNat := by rw [hpage]; exact Nat.not_le.mpr h.1
  have hentry : ((s.setReg x w).setPool rest).liveEntry w.toNat = some unmapped := by rw [hpage]; exact h.2
  rw [pfHandler, if_neg hlt, acquireFrame_cons (s := s.setReg x w) hpool]
  simp only [if_neg hf]
  rw [writeLiveEntry_of_some hentry, hpage]
  exact congrArg (fun u => Ev.ok () ((State.setPool u rest).setProcs
    (setLiveEntry s.procs s.livePt (s.pageOf addr.toNat) f))) (State.setReg_restore s x w)

/-- A miss with an empty pool halts and leaves the registers (R136, R152). -/
theorem access_miss_halts (hv : s.vec.pageFault = .pf) (h : s.entryIs (s.pageOf addr.toNat) unmapped)
    (hpool : s.pool = []) {x : GReg} (harg : s.cfg.faultArgReg = .instrReg ∨ x = .a) (kind : AccessKind) :
    access kind x addr s = haltEvent .noFrame s := by
  rw [access_of_unmapped h, raisePageFault_eq hv harg]
  have hlt : ¬ (s.setReg x (BitVec.ofNat 32 (s.pageOf addr.toNat))).cfg.ptEntries ≤
      (BitVec.ofNat 32 (s.pageOf addr.toNat)).toNat := by rw [toNat_pageOf]; exact Nat.not_le.mpr h.1
  rw [pfHandler, if_neg hlt, acquireFrame_nil (s := s.setReg x _) hpool]
  exact congrArg (haltEvent .noFrame) (State.setReg_restore s x _)

/-- Settles O24: under these forms the handler's argument is the page, and the stash restores the register. -/
theorem pageFaultMapsTopFrame : Obligations.PageFaultMapsTopFrame := by
  intro s addr f rest hv hpage hentry hpool hf i hi hform
  obtain ⟨kind, x, hx, hexec⟩ := exec_of_mem_accessInstrs hi
  rw [hexec, access_miss_maps hv ⟨hpage, hentry⟩ hpool hf (hform.imp_right hx)]
  rfl

/-- Settles O25: AcquireFrame answers NO_FRAME, and the stash restores the register after the halt too. -/
theorem pageFaultWithoutFrameHalts : Obligations.PageFaultWithoutFrameHalts := by
  intro s addr hv hpage hentry hpool i hi hform
  obtain ⟨kind, x, hx, hexec⟩ := exec_of_mem_accessInstrs hi
  rw [hexec, access_miss_halts hv ⟨hpage, hentry⟩ hpool (hform.imp_right hx)]
  rfl

/-! ### The frame ports -/

/-- A step whose next event is admitted is that event's effect (R190, R191). -/
theorem step_of_admitted {e : HostEvent} (he : s.nextEvent = e) (ha : e.admitted s.phase = true) :
    step s = eventEffect e s.tookEvent := by
  subst he
  exact hostEvent_of_admitted (s := s.tookEvent) ha

/-- A step whose next event is not admitted is refused (R190). -/
theorem step_of_not_admitted {e : HostEvent} (he : s.nextEvent = e) (ha : e.admitted s.phase = false) :
    step s = .refused (.eventNotAdmitted e s.phase) := by
  subst he
  exact hostEvent_of_not_admitted (s := s.tookEvent) ha

/-- Settles O41: the port is AcquireFrame with its answer appended. -/
theorem frameAcquirePopsTop : Obligations.FrameAcquirePopsTop := by
  intro s hphase he
  have hstep : step s = .next (hostFrameAcquire s.tookEvent) :=
    step_of_admitted he (by simp [HostEvent.admitted, hphase])
  refine ⟨fun hpool => ?_, fun f rest hpool => ?_⟩
  · rw [hstep, hostFrameAcquire, acquireFrame_nil (s := s.tookEvent) hpool]
    rfl
  · rw [hstep, hostFrameAcquire, acquireFrame_cons (s := s.tookEvent) hpool]
    rfl

/-- Settles O42: the port is ReleaseFrame with its check. -/
theorem frameReleaseChecksOwnership : Obligations.FrameReleaseChecksOwnership := by
  intro s f hphase he
  have hstep : step s = (releaseFrame f s.tookEvent).outcome :=
    step_of_admitted he (by simp [HostEvent.admitted, hphase])
  refine ⟨fun hbad => hstep.trans (congrArg Ev.outcome (if_pos hbad)), fun hbase hram hfree =>
    hstep.trans (congrArg Ev.outcome (if_neg ?_))⟩
  rintro (hoffset | hrange | hpool)
  · exact hoffset hbase
  · exact Nat.not_lt.mpr hrange hram
  · exact hfree hpool

/-! ### The image file -/

/-- A word's four bytes, the first the least significant, are read back as the word (R103). -/
theorem imageWords_flatMap_bytes (ws : List Word) :
    imageWords (ws.flatMap fun w =>
      [w.extractLsb' 0 8, w.extractLsb' 8 8, w.extractLsb' 16 8, w.extractLsb' 24 8]) = some ws := by
  induction ws with
  | nil => rfl
  | cons w ws ih =>
    have hword : wordOfBytes (w.extractLsb' 0 8) (w.extractLsb' 8 8) (w.extractLsb' 16 8) (w.extractLsb' 24 8) = w :=
      wordOfBytes_wordByte w
    simp only [List.flatMap_cons, List.cons_append, List.nil_append, imageWords, ih, hword, Option.map_some]

/-- A byte count that is no multiple of four is rejected, and no other (R103). -/
theorem imageWords_eq_none_iff (bytes : List Byte) : imageWords bytes = none ↔ bytes.length % 4 ≠ 0 := by
  induction bytes using imageWords.induct with
  | case1 => simp [imageWords]
  | case2 b0 b1 b2 b3 rest ih =>
    rw [imageWords, Option.map_eq_none_iff, ih]
    simp only [List.length_cons]
    omega
  | case3 bytes hnil hfour =>
    match bytes with
    | [] => exact absurd rfl hnil
    | [_] => simp [imageWords]
    | [_, _] => simp [imageWords]
    | [_, _, _] => simp [imageWords]
    | b0 :: b1 :: b2 :: b3 :: rest => exact absurd rfl (hfour b0 b1 b2 b3 rest)

/-- Settles O49, word by word and four bytes at a time. -/
theorem imageBytesAreLittleEndianWords : Obligations.ImageBytesAreLittleEndianWords :=
  ⟨imageWords_flatMap_bytes, imageWords_eq_none_iff⟩

end Sys2Proof.Machine
end

section
/-! SUPPORT. What the allocator answers and what it leaves alone (spec 20_memory.md R70, R72, R73; 70_reset_and_hazards.md
R203): the size and place of an extent, the failed request, the bytes outside the managed range, and HOST_ALLOC. -/

namespace Sys2Proof.Machine

variable {s t u : State} {units : Word} {α β : Type}

/-! ### The answers -/

/-- Settles O43: the two guards before the scan. -/
theorem degenerateRequestAnswersNoFit : Obligations.DegenerateRequestAnswersNoFit := by
  intro s units h
  unfold allocateMemory
  rcases or_assoc.mpr h with hunits | hrover
  · rw [if_pos hunits]
  · by_cases hunits : units.toNat = 0 ∨ s.cfg.heapWords.toNat < units.toNat
    · rw [if_pos hunits]
    · rw [if_neg hunits, if_pos hrover]

/-- A physical allocation that answers takes a checked block of the requested size, or answers NO_FIT and changes nothing
(R73). -/
theorem allocateMemory_physical {r : Option (Nat × Nat)} (hp : s.heapPhysical)
    (h : allocateMemory units s = .ok r t) :
    (r = none ∧ t = s) ∨
      ∃ b size prev, s.cfg.heapBase.toNat ≤ b ∧ 2 ≤ size ∧ b + size ≤ s.cfg.heapEnd ∧ max units.toNat 2 ≤ size ∧
        allocTake (max units.toNat 2) prev b size s = .ok r t := by
  by_cases hdegenerate : units.toNat = 0 ∨ s.cfg.heapWords.toNat < units.toNat ∨ s.rover = nil
  · rw [degenerateRequestAnswersNoFit s units hdegenerate] at h
    cases h
    exact .inl ⟨rfl, rfl⟩
  obtain ⟨hunits, hrover⟩ := not_or.mp fun hd => hdegenerate (or_assoc.mp hd)
  unfold allocateMemory at h
  rw [if_neg hunits, if_neg hrover] at h
  have hread := aRead_physical_all hp s.rover.toNat
  cases hfirst : aRead s.rover.toNat s with
  | ended v => rw [hfirst] at h; cases h
  | broken f => rw [hfirst] at h; cases h
  | ok p v =>
    rw [hfirst] at hread h
    obtain ⟨-, rfl, -⟩ := hread
    rw [Ev.bind_ok] at h
    rcases allocScan_physical (n := max units.toNat 2) (fuel := v.scanBound) (prev := v.rover.toNat) (p := p) hp with
      ⟨b, size, hbase, hsize, hend, hfit, prev, htake⟩ | hnone
    · exact .inr ⟨b, size, prev, hbase, hsize, hend, hfit, htake ▸ h⟩
    · rw [h] at hnone
      exact .inl hnone

/-- The answer of a block that is taken. -/
theorem allocTake_answer {n prev b size : Nat} {r : Option (Nat × Nat)} (h : allocTake n prev b size s = .ok r t) :
    r = some (b, if 2 < size - n then n else size) := by
  have hall := allocTake_all n prev b size s
  rw [h] at hall
  rcases hall with ⟨hsplit, hr⟩ | ⟨hwhole, hr⟩
  · rw [hr, if_pos hsplit]
  · rw [hr, if_neg hwhole]

/-- Settles O44: the block passed its check, and it is at least as large as the request and a header. -/
theorem allocationReservesEnough : Obligations.AllocationReservesEnough := by
  intro s t units a n hlive h
  rcases allocateMemory_physical (.inr hlive) h with ⟨hr, -⟩ | ⟨b, size, prev, hbase, hsize, hend, hfit, htake⟩
  · cases hr
  · have hanswer := allocTake_answer htake
    split at hanswer <;> cases hanswer <;> omega

/-- A failed allocation leaves the state (R73). -/
theorem allocateMemory_none (hp : s.heapPhysical) (h : allocateMemory units s = .ok none t) : t = s := by
  rcases allocateMemory_physical hp h with ⟨-, ht⟩ | ⟨b, size, prev, -, -, -, -, htake⟩
  · exact ht
  · cases allocTake_answer htake

/-! ### HOST_ALLOC -/

/-- HOST_ALLOC in CONSTRUCT is the allocation with its answer appended (R203). -/
theorem step_hostAlloc (he : s.nextEvent = .hostAlloc units) (hphase : s.phase = .construct) :
    step s = ((allocateMemory units s.tookEvent).bind fun r t => .ok () (t.reply (extentReply r))).outcome :=
  step_of_admitted he (by simp [HostEvent.admitted, hphase])

/-- Settles O45: the scan writes nothing before it takes a block. -/
theorem failedAllocationChangesNothing : Obligations.FailedAllocationChangesNothing := by
  refine ⟨fun s t units hlive h => allocateMemory_none (.inr hlive) h, fun s t units hlive hphase he h => ?_⟩
  obtain rfl := allocateMemory_none (s := s.tookEvent) (.inr hlive) h
  rw [step_hostAlloc he hphase, h]
  rfl

/-- Settles O60: the event adds only the answer to what the allocation leads to. -/
theorem hostAllocAnswersTheAllocation : Obligations.HostAllocAnswersTheAllocation := by
  intro s units he
  refine ⟨fun hphase => step_of_not_admitted he (by simp [HostEvent.admitted, hphase]), fun hphase => ?_⟩
  rw [step_hostAlloc he hphase]
  refine ⟨fun t a n h => ?_, fun t h => ?_, fun t h => ?_⟩ <;> rw [h] <;> rfl

/-! ### What the allocator leaves alone -/

/-- `t` differs from `s` at most in the managed range's bytes, ROVER, PHASE and HALT_REASON (R70, R72). -/
structure HeapFrame (s t : State) : Prop where
  others : t = { s with mem := t.mem, rover := t.rover, phase := t.phase, haltReason := t.haltReason }
  outside : ∀ a, a < 4 * s.cfg.heapBase.toNat ∨ 4 * s.cfg.heapEnd ≤ a → t.mem.read a = s.mem.read a

theorem HeapFrame.refl (s : State) : HeapFrame s s := ⟨rfl, fun _ _ => rfl⟩

theorem HeapFrame.cfg (h : HeapFrame s t) : t.cfg = s.cfg := by rw [h.others]

theorem HeapFrame.heapPhysical (h : HeapFrame s t) (hp : s.heapPhysical) : t.heapPhysical := by
  rw [h.others]
  exact hp

theorem HeapFrame.halt (h : HeapFrame s t) (r : HaltReason) : HeapFrame s (t.halt r) :=
  ⟨by rw [h.others]; rfl, h.outside⟩

theorem HeapFrame.setRover (h : HeapFrame s t) (w : Word) : HeapFrame s (t.setRover w) :=
  ⟨by rw [h.others]; rfl, h.outside⟩

/-- A word write at an address of the managed range. -/
theorem HeapFrame.writeWord (h : HeapFrame s t) {x : Nat} (hx : t.inHeap x) (v : Word) :
    HeapFrame s (t.setMem (t.mem.writeWord x v)) := by
  obtain ⟨hbase, hend⟩ := hx
  rw [h.cfg] at hbase hend
  refine ⟨by rw [h.others]; rfl, fun a ha => ?_⟩
  rw [State.setMem_mem, Memory.read_writeWord_outside _ _ _ _ (by omega)]
  exact h.outside a ha

/-- A part of an event that leads, or halts, only to states that differ from `s` as `HeapFrame` says. -/
abbrev Ev.Frames (s : State) (x : Ev α) : Prop := x.All (fun _ t => HeapFrame s t) (HeapFrame s) True

theorem Ev.Frames.bind {x : Ev α} {f : α → State → Ev β} (hx : x.Frames s)
    (hf : ∀ a t, HeapFrame s t → (f a t).Frames s) : (x.bind f).Frames s :=
  Ev.All.bind hx hf

section
variable (hp : s.heapPhysical) (h : HeapFrame s u)

include h in
theorem heapCheck_frames (x : Nat) : (heapCheck x u).Frames s := by
  rcases heapCheck_cases x u with e | ⟨-, e⟩ <;> rw [e]
  · exact h.halt _
  · exact h

include hp h

theorem aRead_frames (x : Nat) : (aRead x u).Frames s := by
  refine (heapCheck_frames h x).bind fun _ t ht => ?_
  rw [phys_physical (ht.heapPhysical hp), Ev.bind_ok, memRead]
  split
  · exact ht
  · trivial

/-- A write passes the range check first, so it is in the managed range (R72). -/
theorem aWrite_frames (x v : Nat) : (aWrite x v u).Frames s := by
  unfold aWrite
  rcases heapCheck_cases x u with e | ⟨hx, e⟩ <;> rw [e]
  · exact h.halt _
  · rw [Ev.bind_ok, phys_physical (h.heapPhysical hp), Ev.bind_ok, memWrite]
    split
    · exact h.writeWord hx _
    · trivial

theorem checkBlock_frames (p : Nat) : (checkBlock p u).Frames s := by
  refine (heapCheck_frames h p).bind fun _ t ht => (heapCheck_frames ht _).bind fun _ t ht => ?_
  refine (aRead_frames hp ht _).bind fun size t ht => ?_
  split
  · exact ht.halt _
  · exact ht

theorem allocTake_frames (n prev p size : Nat) : (allocTake n prev p size u).Frames s := by
  unfold allocTake
  split
  · refine (aWrite_frames hp h _ _).bind fun _ t ht => ?_
    split
    · exact (aWrite_frames hp ht _ _).bind fun _ t ht => ht.setRover _
    · exact (aRead_frames hp ht _).bind fun _ t ht => (aWrite_frames hp ht _ _).bind fun _ t ht =>
        (aWrite_frames hp ht _ _).bind fun _ t ht => ht.setRover _
  · split
    · exact h.setRover _
    · exact (aRead_frames hp h _).bind fun _ t ht => (aWrite_frames hp ht _ _).bind fun _ t ht => ht.setRover _

theorem allocScan_frames (n fuel prev p : Nat) : (allocScan n fuel prev p u).Frames s := by
  induction fuel generalizing prev p u with
  | zero =>
    refine (checkBlock_frames hp h p).bind fun _ t ht => (aRead_frames hp ht _).bind fun size t ht => ?_
    split
    · exact allocTake_frames hp ht _ _ _ _
    · split
      · exact ht
      · exact ht.halt _
  | succ fuel ih =>
    refine (checkBlock_frames hp h p).bind fun _ t ht => (aRead_frames hp ht _).bind fun size t ht => ?_
    split
    · exact allocTake_frames hp ht _ _ _ _
    · split
      · exact ht
      · exact (aRead_frames hp ht _).bind fun next t ht => ih ht _ _

theorem allocateMemory_frames (units : Word) : (allocateMemory units u).Frames s := by
  unfold allocateMemory
  split
  · exact h
  · split
    · exact h
    · exact (aRead_frames hp h _).bind fun p t ht => allocScan_frames hp ht _ _ _ _

theorem freeScan_frames (bp fuel p : Nat) : (freeScan bp fuel p u).Frames s := by
  induction fuel generalizing p u with
  | zero =>
    refine (checkBlock_frames hp h p).bind fun _ t ht => (aRead_frames hp ht _).bind fun q t ht => ?_
    split
    · exact ht
    · exact ht.halt _
  | succ fuel ih =>
    refine (checkBlock_frames hp h p).bind fun _ t ht => (aRead_frames hp ht _).bind fun q t ht => ?_
    split
    · exact ht
    · exact ih ht _

theorem freeLinkLower_frames (bp p sizeP : Nat) : (freeLinkLower bp p sizeP u).Frames s := by
  unfold freeLinkLower
  split
  · exact (aRead_frames hp h _).bind fun _ t ht => (aWrite_frames hp ht _ _).bind fun _ t ht =>
      (aRead_frames hp ht _).bind fun _ t ht => (aWrite_frames hp ht _ _).bind fun _ t ht => ht.setRover _
  · exact (aWrite_frames hp h _ _).bind fun _ t ht => ht.setRover _

theorem freeBetween_frames (bp n p q : Nat) : (freeBetween bp n p q u).Frames s := by
  refine (aRead_frames hp h _).bind fun sizeP t ht => ?_
  split
  · exact ht.halt _
  split
  · exact ht.halt _
  split
  · refine (aRead_frames hp ht _).bind fun sizeQ t ht => ?_
    split
    · exact (aWrite_frames hp ht _ _).bind fun _ t ht => (aWrite_frames hp ht _ _).bind fun _ t ht => ht.setRover _
    · exact (aWrite_frames hp ht _ _).bind fun _ t ht => (aRead_frames hp ht _).bind fun _ t ht =>
        (aWrite_frames hp ht _ _).bind fun _ t ht => freeLinkLower_frames hp ht _ _ _
  · exact (aWrite_frames hp ht _ _).bind fun _ t ht => (aWrite_frames hp ht _ _).bind fun _ t ht =>
      freeLinkLower_frames hp ht _ _ _

theorem freeExtent_frames (bp n : Nat) : (freeExtent bp n u).Frames s := by
  unfold freeExtent
  split
  · exact h.halt _
  split
  · exact (aWrite_frames hp h _ _).bind fun _ t ht => (aWrite_frames hp ht _ _).bind fun _ t ht => ht.setRover _
  · exact (freeScan_frames hp h _ _ _).bind fun pq t ht => freeBetween_frames hp ht _ _ _ _

end

/-- Settles O48: every write of the allocator passes the range check, and ROVER and a halt are all else it changes. -/
theorem allocatorWritesOnlyTheHeap : Obligations.AllocatorWritesOnlyTheHeap := by
  intro s t units bp n hp h
  have halloc := allocateMemory_frames hp (HeapFrame.refl s) units
  have hfree := freeExtent_frames hp (HeapFrame.refl s) bp n
  suffices hframe : HeapFrame s t from ⟨hframe.others, hframe.outside⟩
  rcases h with ⟨r, h⟩ | h | h | h
  · rw [h] at halloc; exact halloc
  · rw [h] at halloc; exact halloc
  · rw [h] at hfree; exact hfree
  · rw [h] at hfree; exact hfree

end Sys2Proof.Machine
end

section
/-! SUPPORT. The well-kept heap under allocation and freeing (spec 20_memory.md R70, R73, R74, R76): extents that tile a range
are split and merged, headers are written, linked and resized, and the free list keeps its ring, its order and its gaps. -/

namespace Sys2Proof.Machine

variable {s : State} {m : Memory} {lo hi : Nat} {l l' : List (Nat × Nat)} {x y : Nat × Nat}

/-! ### Extents that tile a range -/

/-- The extents, in some order, tile the range (R76). -/
def Tiled (lo hi : Nat) (l : List (Nat × Nat)) : Prop := ∃ all : List (Nat × Nat), all.Perm l ∧ tiles lo hi all

theorem Tiled.perm (h : Tiled lo hi l) (hp : l.Perm l') : Tiled lo hi l' :=
  let ⟨all, hall, ht⟩ := h
  ⟨all, hall.trans hp, ht⟩

theorem Tiled.bounds (h : Tiled lo hi l) : ∀ x ∈ l, lo ≤ x.1 ∧ x.1 + x.2 ≤ hi :=
  let ⟨_, hall, ht⟩ := h
  fun x hx => tiles_bounds ht x (hall.mem_iff.mpr hx)

theorem tiles_append (l₁ l₂ : List (Nat × Nat)) :
    tiles lo hi (l₁ ++ l₂) ↔ ∃ mid, tiles lo mid l₁ ∧ tiles mid hi l₂ := by
  induction l₁ generalizing lo with
  | nil => simp [tiles]
  | cons x l₁ ih =>
    simp only [List.cons_append, tiles, ih]
    exact ⟨fun ⟨h1, h2, mid, h3, h4⟩ => ⟨mid, ⟨h1, h2, h3⟩, h4⟩, fun ⟨mid, ⟨h1, h2, h3⟩, h4⟩ => ⟨h1, h2, mid, h3, h4⟩⟩

/-- One extent of a tiling, with what tiles the range below it and above it. -/
theorem tiled_cons_iff : Tiled lo hi (x :: l) ↔
    ∃ below above, (below ++ above).Perm l ∧ tiles lo x.1 below ∧ 0 < x.2 ∧ tiles (x.1 + x.2) hi above := by
  constructor
  · rintro ⟨all, hall, ht⟩
    obtain ⟨below, above, rfl⟩ := List.append_of_mem (hall.mem_iff.mpr List.mem_cons_self)
    obtain ⟨mid, hbelow, hx, hpos, habove⟩ := (tiles_append below (x :: above)).mp ht
    subst hx
    exact ⟨below, above, (List.perm_cons x).mp (List.perm_middle.symm.trans hall), hbelow, hpos, habove⟩
  · rintro ⟨below, above, hperm, hbelow, hpos, habove⟩
    exact ⟨below ++ x :: above, List.perm_middle.trans (hperm.cons x),
      (tiles_append below (x :: above)).mpr ⟨x.1, hbelow, rfl, hpos, habove⟩⟩

/-- An extent cut in two. -/
theorem Tiled.split {a k n : Nat} (h : Tiled lo hi ((a, k) :: l)) (hn : 0 < n) (hk : n < k) :
    Tiled lo hi ((a, n) :: (a + n, k - n) :: l) := by
  obtain ⟨below, above, hperm, hbelow, -, habove⟩ := tiled_cons_iff.mp h
  refine tiled_cons_iff.mpr ⟨below, (a + n, k - n) :: above, List.perm_middle.trans (hperm.cons _), hbelow, hn, rfl,
    Nat.sub_pos_of_lt hk, ?_⟩
  rw [Nat.add_assoc, Nat.add_sub_cancel' (Nat.le_of_lt hk)]
  exact habove

/-- Two extents that touch, made one. -/
theorem Tiled.merge (h : Tiled lo hi (x :: y :: l)) (hxy : x.1 + x.2 = y.1) :
    Tiled lo hi ((x.1, x.2 + y.2) :: l) := by
  obtain ⟨below, above, hperm, hbelow, hpos, habove⟩ := tiled_cons_iff.mp h
  have hy : y ∈ above := by
    rcases List.mem_append.mp (hperm.mem_iff.mpr List.mem_cons_self) with hy | hy
    · have := (tiles_bounds hbelow y hy).2
      omega
    · exact hy
  cases above with
  | nil => cases hy
  | cons z above =>
    obtain ⟨hz, hzpos, habove⟩ := habove
    have hzy : y = z := by
      rcases List.mem_cons.mp hy with hy | hy
      · exact hy
      · have := (tiles_bounds habove y hy).1
        omega
    subst hzy
    refine tiled_cons_iff.mpr ⟨below, above, (List.perm_cons y).mp (List.perm_middle.symm.trans hperm), hbelow,
      Nat.add_pos_left hpos _, ?_⟩
    rw [← Nat.add_assoc]
    exact habove

/-- Two extents that do not overlap. -/
def Apart (x y : Nat × Nat) : Prop := x.1 + x.2 ≤ y.1 ∨ y.1 + y.2 ≤ x.1

theorem Apart.symm (h : Apart x y) : Apart y x := Or.symm h

theorem tiles_pairwise (h : tiles lo hi l) : l.Pairwise fun x y => x.1 + x.2 ≤ y.1 := by
  induction l generalizing lo with
  | nil => exact List.Pairwise.nil
  | cons x l ih =>
    obtain ⟨rfl, -, htail⟩ := h
    exact List.pairwise_cons.mpr ⟨fun y hy => (tiles_bounds htail y hy).1, ih htail⟩

theorem Tiled.apart (h : Tiled lo hi l) : l.Pairwise Apart :=
  let ⟨_, hall, ht⟩ := h
  (hall.pairwise_iff fun hxy => Apart.symm hxy).mp ((tiles_pairwise ht).imp Or.inl)

/-! ### Headers under writes -/

/-- Blocks whose two-word headers share no word (R70). -/
abbrev HeadersApart (l : List (Nat × Nat)) : Prop := l.Pairwise fun x y => x.1 + 2 ≤ y.1 ∨ y.1 + 2 ≤ x.1

theorem Tiled.headersApart (h : Tiled lo hi (l ++ l')) (hfits : ∀ x ∈ l, 2 ≤ x.2) : HeadersApart l := by
  refine List.Pairwise.imp_of_mem (fun {x y} hx hy hxy => ?_) (List.pairwise_append.mp h.apart).1
  have := hfits x hx
  have := hfits y hy
  rcases hxy with hxy | hxy <;> omega

/-- A write outside the headers. -/
theorem headersFrom_writeWord {z a : Nat} (h : headersFrom m z l) (ha : ∀ x ∈ l, a ≠ x.1 ∧ a ≠ x.1 + 1) (w : Word) :
    headersFrom (m.writeWord a w) z l := by
  induction l with
  | nil => trivial
  | cons x l ih =>
    obtain ⟨⟨hnext, hsize⟩, htail⟩ := (headersFrom_cons m z x l).mp h
    obtain ⟨⟨hx, hx'⟩, ha⟩ := List.forall_mem_cons.mp ha
    rw [headersFrom_cons, Memory.readWord_writeWord_ne _ _ _ _ hx.symm, Memory.readWord_writeWord_ne _ _ _ _ hx'.symm]
    exact ⟨⟨hnext, hsize⟩, ih htail ha⟩

/-- A header written before the first block: its size, then its link. -/
theorem headersFrom_push (hm : m.wf) {z a k : Nat} (h : headersFrom m z l) (hapart : HeadersApart ((a, k) :: l)) :
    headersFrom ((m.writeWord (a + 1) (BitVec.ofNat 32 k)).writeWord a (BitVec.ofNat 32 (headAddr l z))) z
      ((a, k) :: l) := by
  have ha := (List.pairwise_cons.mp hapart).1
  refine (headersFrom_cons _ z (a, k) l).mpr ⟨⟨?_, ?_⟩, ?_⟩
  · exact Memory.readWord_writeWord_same (Memory.writeWord_wf hm _ _) a _
  · rw [Memory.readWord_writeWord_ne _ _ _ _ (Nat.succ_ne_self a), Memory.readWord_writeWord_same hm]
  · refine headersFrom_writeWord (headersFrom_writeWord h (fun x hx => ?_) _) (fun x hx => ?_) _ <;>
      · have := ha x hx
        simp only at this
        omega

/-- The last block linked elsewhere. -/
theorem headersFrom_relink (hm : m.wf) {z : Nat} (h : headersFrom m z (l ++ [x])) (hapart : HeadersApart (l ++ [x]))
    (z' : Nat) : headersFrom (m.writeWord x.1 (BitVec.ofNat 32 z')) z' (l ++ [x]) := by
  obtain ⟨hl, hx⟩ := (headersFrom_append m z l [x]).mp h
  obtain ⟨⟨-, hsize⟩, -⟩ := (headersFrom_cons m z x []).mp hx
  refine (headersFrom_append _ z' l [x]).mpr ⟨headersFrom_writeWord hl (fun y hy => ?_) _, ?_⟩
  · have := (List.pairwise_append.mp hapart).2.2 y hy x List.mem_cons_self
    omega
  · refine (headersFrom_cons _ z' x []).mpr ⟨⟨Memory.readWord_writeWord_same hm _ _, ?_⟩, trivial⟩
    rw [Memory.readWord_writeWord_ne _ _ _ _ (Nat.succ_ne_self x.1), hsize]

/-- The last block's size written. -/
theorem headersFrom_resize (hm : m.wf) {z : Nat} (h : headersFrom m z (l ++ [x])) (hapart : HeadersApart (l ++ [x]))
    (k : Nat) : headersFrom (m.writeWord (x.1 + 1) (BitVec.ofNat 32 k)) z (l ++ [(x.1, k)]) := by
  obtain ⟨hl, hx⟩ := (headersFrom_append m z l [x]).mp h
  obtain ⟨⟨hnext, -⟩, -⟩ := (headersFrom_cons m z x []).mp hx
  refine (headersFrom_append _ z l [(x.1, k)]).mpr ⟨headersFrom_writeWord hl (fun y hy => ?_) _, ?_⟩
  · have := (List.pairwise_append.mp hapart).2.2 y hy x List.mem_cons_self
    omega
  · refine (headersFrom_cons _ z (x.1, k) []).mpr ⟨⟨?_, Memory.readWord_writeWord_same hm _ _⟩, trivial⟩
    rw [Memory.readWord_writeWord_ne _ _ _ _ (Nat.ne_of_lt (Nat.lt_succ_self x.1)), hnext]

/-! ### The well-kept heap -/

/-- Blocks in ascending address order, no two of them adjacent (R70, R76). -/
abbrev Spread (l : List (Nat × Nat)) : Prop := l.Pairwise fun x y => x.1 + x.2 < y.1

theorem spread_middle {l₁ l₂ : List (Nat × Nat)} :
    Spread (l₁ ++ x :: l₂) ↔ Spread (l₁ ++ l₂) ∧ (∀ y ∈ l₁, y.1 + y.2 < x.1) ∧ ∀ y ∈ l₂, x.1 + x.2 < y.1 := by
  simp only [Spread, List.pairwise_append, List.pairwise_cons, List.forall_mem_cons]
  exact ⟨fun ⟨h1, ⟨h2, h3⟩, h4⟩ => ⟨⟨h1, h3, fun y hy => (h4 y hy).2⟩, fun y hy => (h4 y hy).1, h2⟩,
    fun ⟨⟨h1, h3, h4⟩, h5, h2⟩ => ⟨h1, ⟨h2, h3⟩, fun y hy => ⟨h5 y hy, h4 y hy⟩⟩⟩

/-- A well-kept heap with no two free blocks adjacent: order and gaps in one, and the tiling up to order (R70, R76). -/
structure State.WellKept (s : State) (free live : List (Nat × Nat)) : Prop where
  spread : Spread free
  header_fits : ∀ b ∈ free, 2 ≤ b.2
  ring : Ring s.mem free
  rover : (free = [] ∧ s.rover = nil) ∨ (∃ b ∈ free, s.rover = BitVec.ofNat 32 b.1)
  tiled : Tiled s.cfg.heapBase.toNat s.cfg.heapEnd (free ++ live)

variable {free live : List (Nat × Nat)}

theorem noneAdjacent_of_spread (h : Spread l) (hfits : ∀ b ∈ l, 2 ≤ b.2) : noneAdjacent l := by
  induction l with
  | nil => simp [noneAdjacent]
  | cons b l ih =>
    obtain ⟨hb, hl⟩ := List.pairwise_cons.mp h
    obtain ⟨hbfits, hfits⟩ := List.forall_mem_cons.mp hfits
    intro x hx y hy
    rcases List.mem_cons.mp hx with rfl | hxl <;> rcases List.mem_cons.mp hy with rfl | hyl
    · omega
    · exact Nat.ne_of_lt (hb y hyl)
    · have := hb x hxl
      omega
    · exact ih hl hfits x hxl y hyl

theorem State.wellKept_iff : s.WellKept free live ↔ s.heapTiled free live ∧ noneAdjacent free := by
  constructor
  · intro h
    exact ⟨⟨h.spread.imp fun hxy => by omega, h.header_fits, h.ring, h.rover, h.tiled⟩,
      noneAdjacent_of_spread h.spread h.header_fits⟩
  · rintro ⟨h, hgaps⟩
    have htiled : Tiled s.cfg.heapBase.toNat s.cfg.heapEnd (free ++ live) := h.tiled
    refine ⟨?_, h.header_fits, h.headers, h.rover, htiled⟩
    refine List.Pairwise.imp_of_mem (fun {x y} hx hy hxy => ?_)
      (h.ascending.and (List.pairwise_append.mp htiled.apart).1)
    obtain ⟨hasc, hapart⟩ := hxy
    have := hgaps x hx y hy
    rcases hapart with hapart | hapart <;> omega

theorem State.WellKept.freeBlock (h : s.WellKept free live) (hc : s.cfg.wf) (hx : x ∈ free) : s.FreeBlock x :=
  (State.wellKept_iff.mp h).1.freeBlock hc hx

theorem State.FreeBlock.inHeap (h : s.FreeBlock x) : s.inHeap x.1 := by
  obtain ⟨hbase, hend, hfits, -⟩ := h
  exact ⟨hbase, by omega⟩

/-! ### Accesses after a write -/

theorem aRead_setMem (hc : s.cfg.wf) (hp : s.heapPhysical) {a : Nat} (ha : s.inHeap a) (m : Memory) :
    aRead a (s.setMem m) = .ok (m.readWord a).toNat (s.setMem m) :=
  aRead_physical (s := s.setMem m) hc hp ha

theorem aWrite_setMem (hc : s.cfg.wf) (hp : s.heapPhysical) {a v : Nat} (ha : s.inHeap a) (hv : v < 2 ^ 32)
    (m : Memory) : aWrite a v (s.setMem m) = .ok () (s.setMem (m.writeWord a (BitVec.ofNat 32 v))) :=
  aWrite_physical (s := s.setMem m) hc hp ha hv

end Sys2Proof.Machine
end

section
/-! SUPPORT. Allocation keeps the tiling (spec 20_memory.md R70, R73, R76): the state each way of taking a block leads to, and
the free list it leaves, cut or unlinked at the block that was taken. -/

namespace Sys2Proof.Machine

variable {s : State} {pre post live : List (Nat × Nat)} {b w : Nat × Nat} {n : Nat}

/-! ### The state a taken block leaves -/

section
variable (hc : s.cfg.wf) (hp : s.heapPhysical) (hb : s.FreeBlock b)
include hc hp hb

/-- The only free block cut: its tail becomes the ring (R73). -/
theorem allocTake_split_alone (hsplit : 2 < b.2 - n) :
    allocTake n b.1 b.1 b.2 s =
      .ok (some (b.1, n))
        ((s.setMem ((s.mem.writeWord (b.1 + n + 1) (BitVec.ofNat 32 (b.2 - n))).writeWord (b.1 + n)
          (BitVec.ofNat 32 (b.1 + n)))).roverTo (b.1 + n)) := by
  obtain ⟨hbase, hend, -, -⟩ := hb
  have hlimit := Config.heapEnd_lt hc
  rw [allocTake, if_pos hsplit, aWrite_physical hc hp ⟨by omega, by omega⟩ (by omega), Ev.bind_ok, if_pos rfl,
    aWrite_setMem hc hp ⟨by omega, by omega⟩ (by omega), Ev.bind_ok]

/-- A block cut: its tail takes its link, and the block before it is linked to the tail (R73). -/
theorem allocTake_split {z : Nat} (hsplit : 2 < b.2 - n) (hw : s.inHeap w.1) (hne : b.1 ≠ w.1)
    (hlink : s.mem.readWord b.1 = BitVec.ofNat 32 z) :
    allocTake n w.1 b.1 b.2 s =
      .ok (some (b.1, n))
        ((s.setMem (((s.mem.writeWord (b.1 + n + 1) (BitVec.ofNat 32 (b.2 - n))).writeWord (b.1 + n)
          (BitVec.ofNat 32 z)).writeWord w.1 (BitVec.ofNat 32 (b.1 + n)))).roverTo w.1) := by
  have hinHeap := hb.inHeap
  obtain ⟨hbase, hend, -, -⟩ := hb
  have hlimit := Config.heapEnd_lt hc
  rw [allocTake, if_pos hsplit, aWrite_physical hc hp ⟨by omega, by omega⟩ (by omega), Ev.bind_ok, if_neg hne,
    aRead_setMem hc hp hinHeap, Ev.bind_ok, Memory.readWord_writeWord_ne _ _ _ _ (by omega), hlink,
    aWrite_setMem hc hp ⟨by omega, by omega⟩ (BitVec.isLt _), Ev.bind_ok, BitVec.ofNat_toNat, BitVec.setWidth_eq,
    aWrite_setMem hc hp hw (by omega), Ev.bind_ok]

/-- A whole block unlinked: the block before it takes its link (R73). -/
theorem allocTake_whole {z : Nat} (hwhole : ¬ 2 < b.2 - n) (hw : s.inHeap w.1) (hne : b.1 ≠ w.1)
    (hlink : s.mem.readWord b.1 = BitVec.ofNat 32 z) :
    allocTake n w.1 b.1 b.2 s =
      .ok (some (b.1, b.2)) ((s.setMem (s.mem.writeWord w.1 (BitVec.ofNat 32 z))).roverTo w.1) := by
  rw [allocTake, if_neg hwhole, if_neg hne, aRead_physical hc hp hb.inHeap, Ev.bind_ok, hlink,
    aWrite_physical hc hp hw (BitVec.isLt _), Ev.bind_ok, BitVec.ofNat_toNat, BitVec.setWidth_eq]

end

/-! ### The free list a taken block leaves -/

theorem State.WellKept.ring_at (h : s.WellKept (pre ++ b :: post) live) : Ring s.mem (b :: (post ++ pre)) :=
  h.ring.rotate

theorem State.WellKept.tiled_at (h : s.WellKept (pre ++ b :: post) live) :
    Tiled s.cfg.heapBase.toNat s.cfg.heapEnd (b :: (post ++ pre ++ live)) :=
  h.tiled.perm ((List.perm_append_comm (l₁ := pre) (l₂ := b :: post)).append_right live)

/-- The block taken and the block before it: the only one, or the last of those after it in the ring. -/
theorem getLast?_ring (h : (b :: (post ++ pre)).getLast? = some w) :
    (post ++ pre = [] ∧ w = b) ∨ ∃ mid, post ++ pre = mid ++ [w] := by
  rcases List.eq_nil_or_concat (post ++ pre) with hnil | ⟨mid, w', hmid⟩
  · rw [hnil] at h
    exact .inl ⟨hnil, by simpa using h.symm⟩
  · rw [hmid, List.concat_eq_append, ← List.cons_append, List.getLast?_concat] at h
    exact .inr ⟨mid, by rw [hmid, List.concat_eq_append, Option.some.inj h]⟩

/-- What taking a block needs of a well-kept heap where there is another block. -/
theorem State.WellKept.prev (h : s.WellKept (pre ++ b :: post) live) (hc : s.cfg.wf) {mid : List (Nat × Nat)}
    (hmid : post ++ pre = mid ++ [w]) : w ∈ pre ++ post ∧ s.inHeap w.1 ∧ b.1 ≠ w.1 := by
  have hw : w ∈ post ++ pre := by rw [hmid]; simp
  have hw' : w ∈ pre ++ post := List.mem_append.mpr (List.mem_append.mp hw).symm
  obtain ⟨-, hpre, hpost⟩ := spread_middle.mp h.spread
  refine ⟨hw', (h.freeBlock hc (x := w) ?_).inHeap, ?_⟩
  · rcases List.mem_append.mp hw' with hw | hw <;> simp [hw]
  · rcases List.mem_append.mp hw' with hw | hw
    · have := hpre w hw
      omega
    · have := hpost w hw
      omega

/-- A block cut to the request leaves its tail in its place (R73, R76). -/
theorem State.WellKept.take_split (h : s.WellKept (pre ++ b :: post) live) (hc : s.cfg.wf) (hwf : s.mem.wf)
    (hp : s.heapPhysical) (hn : 2 ≤ n) (hsplit : 2 < b.2 - n) (hw : (b :: (post ++ pre)).getLast? = some w) :
    ∃ t, allocTake n w.1 b.1 b.2 s = .ok (some (b.1, n)) t ∧
      t.WellKept (pre ++ (b.1 + n, b.2 - n) :: post) ((b.1, n) :: live) := by
  have hb : s.FreeBlock b := h.freeBlock hc (by simp)
  obtain ⟨hspread, hpre, hpost⟩ := spread_middle.mp h.spread
  have hspread' : Spread (pre ++ (b.1 + n, b.2 - n) :: post) :=
    spread_middle.mpr ⟨hspread, fun y hy => by have := hpre y hy; simp only; omega,
      fun y hy => by have := hpost y hy; simp only; omega⟩
  have hfits : ∀ x ∈ (b.1 + n, b.2 - n) :: (post ++ pre), 2 ≤ x.2 :=
    List.forall_mem_cons.mpr ⟨Nat.le_of_lt hsplit, fun x hx => h.header_fits x (by
      rcases List.mem_append.mp hx with hx | hx <;> simp [hx])⟩
  have htiled : Tiled s.cfg.heapBase.toNat s.cfg.heapEnd
      ((b.1 + n, b.2 - n) :: (post ++ pre) ++ (b.1, n) :: live) :=
    (Tiled.split (a := b.1) h.tiled_at (by omega) (by omega)).perm
      ((List.Perm.swap _ _ _).trans (List.perm_middle.symm.cons _))
  have hperm : ((b.1 + n, b.2 - n) :: (post ++ pre)).Perm (pre ++ (b.1 + n, b.2 - n) :: post) :=
    List.perm_append_comm (l₁ := (b.1 + n, b.2 - n) :: post)
  have hkept : ∀ m r, Ring m ((b.1 + n, b.2 - n) :: (post ++ pre)) → r ∈ (b.1 + n, b.2 - n) :: (post ++ pre) →
      ((s.setMem m).roverTo r.1).WellKept (pre ++ (b.1 + n, b.2 - n) :: post) ((b.1, n) :: live) := fun m r hring hr =>
    ⟨hspread', fun x hx => hfits x (hperm.mem_iff.mpr hx), hring.rotate (l₁ := (b.1 + n, b.2 - n) :: post),
      .inr ⟨r, hperm.mem_iff.mp hr, rfl⟩, htiled.perm (hperm.append_right _)⟩
  have hapart := htiled.headersApart hfits
  rcases getLast?_ring hw with ⟨hnil, rfl⟩ | ⟨mid, hmid⟩
  · refine ⟨_, allocTake_split_alone hc hp hb hsplit, hkept _ (w.1 + n, w.2 - n) ?_ List.mem_cons_self⟩
    rw [hnil] at hapart ⊢
    exact headersFrom_push (l := []) (z := w.1 + n) hwf trivial hapart
  · obtain ⟨hmem, hinHeap, hne⟩ := h.prev hc hmid
    have hring := h.ring_at
    rw [hmid] at hapart hring
    obtain ⟨⟨hlink, -⟩, hlinks⟩ := (headersFrom_cons _ _ _ _).mp hring
    refine ⟨_, allocTake_split hc hp hb hsplit hinHeap hne hlink, hkept _ w ?_ (by rw [hmid]; simp)⟩
    rw [hmid]
    have hpush := headersFrom_push hwf hlinks hapart
    exact headersFrom_relink (l := (b.1 + n, b.2 - n) :: mid)
      (Memory.writeWord_wf (Memory.writeWord_wf hwf _ _) _ _) hpush hapart (b.1 + n)

/-- A block taken whole leaves the ring without it (R73, R76). -/
theorem State.WellKept.take_whole (h : s.WellKept (pre ++ b :: post) live) (hc : s.cfg.wf) (hwf : s.mem.wf)
    (hp : s.heapPhysical) (hwhole : ¬ 2 < b.2 - n) (hw : (b :: (post ++ pre)).getLast? = some w) :
    ∃ t, allocTake n w.1 b.1 b.2 s = .ok (some (b.1, b.2)) t ∧ t.WellKept (pre ++ post) (b :: live) := by
  have hb : s.FreeBlock b := h.freeBlock hc (by simp)
  have hspread := (spread_middle.mp h.spread).1
  have hperm : (post ++ pre).Perm (pre ++ post) := List.perm_append_comm
  have hfits : ∀ x ∈ pre ++ post, 2 ≤ x.2 := fun x hx => h.header_fits x (by
    rcases List.mem_append.mp hx with hx | hx <;> simp [hx])
  have htiled : Tiled s.cfg.heapBase.toNat s.cfg.heapEnd (post ++ pre ++ b :: live) :=
    h.tiled_at.perm List.perm_middle.symm
  have htiled' := htiled.perm (hperm.append_right _)
  rcases getLast?_ring hw with ⟨hnil, rfl⟩ | ⟨mid, hmid⟩
  · refine ⟨s.setRover nil, by rw [allocTake, if_neg hwhole, if_pos rfl], hspread, hfits, ?_, .inl ⟨?_, rfl⟩, htiled'⟩
    · refine Ring.rotate (l₁ := post) ?_
      rw [hnil]
      trivial
    · exact List.perm_nil.mp (hnil ▸ hperm.symm)
  · obtain ⟨hmem, hinHeap, hne⟩ := h.prev hc hmid
    have hring := h.ring_at
    have hapart : HeadersApart (post ++ pre) := htiled.headersApart fun x hx => hfits x (hperm.mem_iff.mp hx)
    rw [hmid] at hapart hring
    obtain ⟨⟨hlink, -⟩, hlinks⟩ := (headersFrom_cons _ _ _ _).mp hring
    refine ⟨_, allocTake_whole hc hp hb hwhole hinHeap hne hlink, hspread, hfits, ?_, .inr ⟨w, hmem, rfl⟩, htiled'⟩
    refine Ring.rotate (l₁ := post) ?_
    rw [hmid]
    have hhead : headAddr (mid ++ [w]) b.1 = headAddr (mid ++ [w]) 0 := by cases mid <;> rfl
    exact hhead ▸ headersFrom_relink hwf hlinks hapart _

/-! ### The allocation -/

/-- A ring cut anywhere is the free list cut at the same block. -/
theorem rotation_split {l₁ l₂ skipped rest : List (Nat × Nat)} (h : l₁ ++ l₂ = skipped ++ b :: rest) :
    ∃ pre post, l₂ ++ l₁ = pre ++ b :: post ∧ rest ++ skipped = post ++ pre := by
  rcases List.append_eq_append_iff.mp h with ⟨c, rfl, rfl⟩ | ⟨c, rfl, hc⟩
  · exact ⟨c, rest ++ l₁, by simp, by simp⟩
  · cases c with
    | nil =>
      obtain rfl : b :: rest = l₂ := hc
      exact ⟨[], rest ++ skipped, by simp, by simp⟩
    | cons y c =>
      obtain ⟨rfl, rfl⟩ := List.cons.inj hc
      exact ⟨l₂ ++ skipped, c, by simp, by simp⟩

/-- The block before `b` as the scan walks from ROVER's block `r`. -/
theorem getLast?_scan {others skipped rest : List (Nat × Nat)} {r : Nat × Nat}
    (h : others ++ [r] = skipped ++ b :: rest) : (b :: (rest ++ skipped)).getLast? = (r :: skipped).getLast? := by
  cases skipped with
  | nil =>
    have hlast := congrArg List.getLast? h
    rw [List.getLast?_concat] at hlast
    rw [List.append_nil]
    exact hlast.symm
  | cons x skipped => rw [← List.cons_append, List.getLast?_append_cons, List.getLast?_cons_cons]

/-- A list holds a first element that fits, or none that does. -/
theorem exists_first_fit (l : List (Nat × Nat)) (n : Nat) :
    (∀ x ∈ l, x.2 < n) ∨ ∃ skipped b rest, l = skipped ++ b :: rest ∧ (∀ x ∈ skipped, x.2 < n) ∧ n ≤ b.2 := by
  induction l with
  | nil => exact .inl (by simp)
  | cons x l ih =>
    by_cases hx : n ≤ x.2
    · exact .inr ⟨[], x, l, rfl, by simp, hx⟩
    · have hlt := Nat.lt_of_not_le hx
      rcases ih with hall | ⟨skipped, b, rest, rfl, hsmall, hfit⟩
      · exact .inl (List.forall_mem_cons.mpr ⟨hlt, hall⟩)
      · exact .inr ⟨x :: skipped, b, rest, rfl, List.forall_mem_cons.mpr ⟨hlt, hsmall⟩, hfit⟩

/-- A successful allocation in a well-kept heap takes a block of the free list, from the block before it in the ring
(R73). -/
theorem State.WellKept.allocateMemory_take {free : List (Nat × Nat)} (h : s.WellKept free live) (hc : s.cfg.wf)
    (hlive : s.livePt = none) {units : Word} {r : Nat × Nat} {t : State}
    (halloc : allocateMemory units s = .ok (some r) t) :
    ∃ pre post b w, free = pre ++ b :: post ∧ (b :: (post ++ pre)).getLast? = some w ∧
      allocTake (max units.toNat 2) w.1 b.1 b.2 s = .ok (some r) t := by
  have hp : s.heapPhysical := .inr hlive
  have hlegal : ¬ (units.toNat = 0 ∨ s.cfg.heapWords.toNat < units.toNat ∨ s.rover = nil) := fun hd => by
    rw [degenerateRequestAnswersNoFit s units hd] at halloc
    cases halloc
  rw [not_or, not_or] at hlegal
  obtain ⟨hpos, hle, hnil⟩ := hlegal
  rcases h.rover with ⟨-, hrover⟩ | ⟨rb, hrb, hrover⟩
  · exact absurd hrover hnil
  obtain ⟨pre, post, rfl⟩ := List.append_of_mem hrb
  have htiled := (State.wellKept_iff.mp h).1
  have hring := htiled.scanRing hc hrover
  rcases exists_first_fit (post ++ pre ++ [rb]) (max units.toNat 2) with
    hnone | ⟨skipped, b, rest, hsplit, hsmall, hfit⟩
  · have hfail := (allocationIsNextFit s units _ pre post live rb hc hlive htiled hrover (by omega) (by omega) rfl).2
      fun x hx => hnone x (by
        rcases List.mem_append.mp hx with hx | hx
        · simp [hx]
        · rcases List.mem_cons.mp hx with hx | hx <;> simp [hx])
    rw [hfail] at halloc
    cases halloc
  · have hb : s.FreeBlock b := hring.blocks b (by rw [hsplit]; simp)
    rw [hring.allocateMemory_eq hc hp (by omega) (by omega), hring.scan_to hc hp hsplit hsmall,
      allocScan_eq hc hp hb, if_pos hfit] at halloc
    have hcut : post ++ (pre ++ [rb]) = skipped ++ b :: rest := by rw [← List.append_assoc, hsplit]
    obtain ⟨pre', post', hfree, hrest⟩ := rotation_split hcut
    refine ⟨pre', post', b, _, by rw [← hfree]; simp, ?_, halloc⟩
    rw [← hrest, getLast?_scan hsplit]
    exact List.getLast?_eq_some_getLast _

/-- Settles O46: the block that is taken leaves its tail in the free list or leaves it whole. -/
theorem allocationKeepsTiling : Obligations.AllocationKeepsTiling := by
  intro s t units free live a n hc hwf hlive htiled hgaps halloc
  have hkept : s.WellKept free live := State.wellKept_iff.mpr ⟨htiled, hgaps⟩
  suffices hnew : ∃ free', t.WellKept free' ((a, n) :: live) from hnew.imp fun _ h => State.wellKept_iff.mp h
  obtain ⟨pre, post, b, w, rfl, hw, htake⟩ := hkept.allocateMemory_take hc hlive halloc
  by_cases hsplit : 2 < b.2 - max units.toNat 2
  · obtain ⟨t', heq, hnew⟩ := hkept.take_split hc hwf (.inr hlive) (by omega) hsplit hw
    cases heq.symm.trans htake
    exact ⟨_, hnew⟩
  · obtain ⟨t', heq, hnew⟩ := hkept.take_whole hc hwf (.inr hlive) hsplit hw
    cases heq.symm.trans htake
    exact ⟨_, hnew⟩

end Sys2Proof.Machine
end

section
/-! SUPPORT. Freeing keeps the tiling and coalesces (spec 20_memory.md R70, R74, R76): the free blocks below and above the
freed extent, the scan for the pair around it, and the two joins. -/

namespace Sys2Proof.Machine

variable {s t : State} {m : Memory} {c : Config} {lows highs live mid l l' : List (Nat × Nat)} {x p q : Nat × Nat}

/-! ### The freed extent between its neighbours -/

/-- An extent `x` on its way into the free list: the free blocks `lows` lie below it and `highs` above it. -/
structure Freeing (c : Config) (lows highs live : List (Nat × Nat)) (x : Nat × Nat) : Prop where
  spread : Spread (lows ++ highs)
  header_fits : ∀ y ∈ x :: (highs ++ lows), 2 ≤ y.2
  below : ∀ y ∈ lows, y.1 + y.2 ≤ x.1
  above : ∀ y ∈ highs, x.1 + x.2 ≤ y.1
  tiled : Tiled c.heapBase.toNat c.heapEnd (x :: (highs ++ lows) ++ live)

theorem Freeing.size (h : Freeing c lows highs live x) : 2 ≤ x.2 := h.header_fits x List.mem_cons_self

theorem Freeing.bounds (h : Freeing c lows highs live x) : c.heapBase.toNat ≤ x.1 ∧ x.1 + x.2 ≤ c.heapEnd :=
  h.tiled.bounds x List.mem_cons_self

theorem Freeing.headersApart (h : Freeing c lows highs live x) : HeadersApart (x :: (highs ++ lows)) :=
  h.tiled.headersApart h.header_fits

/-- A free block lies below the freed extent or above it. -/
theorem Freeing.sides (h : Freeing c lows highs live x) (hp : p ∈ highs ++ lows) :
    p.1 + p.2 ≤ x.1 ∨ x.1 + x.2 ≤ p.1 :=
  (List.mem_append.mp hp).elim (fun hp => .inr (h.above p hp)) fun hp => .inl (h.below p hp)

/-- A spread list that is apart from an extent has a part below it and a part above it. -/
theorem exists_sides (hspread : Spread l) (hapart : ∀ y ∈ l, Apart x y) :
    ∃ lows highs, l = lows ++ highs ∧ (∀ y ∈ lows, y.1 + y.2 ≤ x.1) ∧ ∀ y ∈ highs, x.1 + x.2 ≤ y.1 := by
  induction l with
  | nil => exact ⟨[], [], rfl, by simp, by simp⟩
  | cons y l ih =>
    obtain ⟨hy, hl⟩ := List.pairwise_cons.mp hspread
    obtain ⟨hxy, hapart⟩ := List.forall_mem_cons.mp hapart
    rcases hxy with habove | hbelow
    · refine ⟨[], y :: l, rfl, by simp, List.forall_mem_cons.mpr ⟨habove, fun z hz => ?_⟩⟩
      have := hy z hz
      omega
    · obtain ⟨lows, highs, rfl, hlows, hhighs⟩ := ih hl hapart
      exact ⟨y :: lows, highs, rfl, List.forall_mem_cons.mpr ⟨hbelow, hlows⟩, hhighs⟩

/-- An extent of a well-kept heap on its way into the free list. -/
theorem State.WellKept.freeing {free : List (Nat × Nat)} (h : s.WellKept free (x :: live)) (hx : 2 ≤ x.2) :
    ∃ lows highs, free = lows ++ highs ∧ Freeing s.cfg lows highs live x := by
  have htiled : Tiled s.cfg.heapBase.toNat s.cfg.heapEnd (x :: (free ++ live)) := h.tiled.perm List.perm_middle
  have hapart : ∀ y ∈ free, Apart x y := fun y hy =>
    (List.pairwise_cons.mp htiled.apart).1 y (List.mem_append_left live hy)
  obtain ⟨lows, highs, rfl, hlows, hhighs⟩ := exists_sides h.spread hapart
  have hperm : (lows ++ highs).Perm (highs ++ lows) := List.perm_append_comm
  exact ⟨lows, highs, rfl, h.spread,
    List.forall_mem_cons.mpr ⟨hx, fun y hy => h.header_fits y (hperm.mem_iff.mpr hy)⟩, hlows, hhighs,
    htiled.perm ((hperm.append_right live).cons x)⟩

/-- The block above joined to the freed extent. -/
theorem Freeing.mergeHigh (h : Freeing c lows (q :: highs) live x) (hq : x.1 + x.2 = q.1) :
    Freeing c lows highs live (x.1, x.2 + q.2) ∧ ∀ y ∈ highs, x.1 + (x.2 + q.2) < y.1 := by
  obtain ⟨hspread, -, habove⟩ := spread_middle.mp h.spread
  have hstrict : ∀ y ∈ highs, x.1 + (x.2 + q.2) < y.1 := fun y hy => by
    have := habove y hy
    omega
  obtain ⟨hx, hfits⟩ := List.forall_mem_cons.mp h.header_fits
  exact ⟨⟨hspread, List.forall_mem_cons.mpr ⟨Nat.le_add_right_of_le hx, (List.forall_mem_cons.mp hfits).2⟩, h.below,
    fun y hy => Nat.le_of_lt (hstrict y hy), Tiled.merge (y := q) h.tiled hq⟩, hstrict⟩

/-- The freed extent joined to the block below. -/
theorem Freeing.mergeLow (h : Freeing c (lows ++ [p]) highs live x) (hp : p.1 + p.2 = x.1) :
    Freeing c lows highs live (p.1, p.2 + x.2) ∧ ∀ y ∈ lows, y.1 + y.2 < p.1 := by
  obtain ⟨hspread, hbelow, -⟩ := spread_middle.mp (List.append_assoc lows [p] highs ▸ h.spread)
  have hperm : (highs ++ (lows ++ [p])).Perm (p :: (highs ++ lows)) := by
    rw [← List.append_assoc]
    exact List.perm_append_singleton p (highs ++ lows)
  obtain ⟨hx, hfits⟩ := List.forall_mem_cons.mp h.header_fits
  refine ⟨⟨hspread, List.forall_mem_cons.mpr ⟨Nat.le_add_left_of_le hx, fun y hy => hfits y ?_⟩,
    fun y hy => Nat.le_of_lt (hbelow y hy), fun y hy => ?_, Tiled.merge (x := p) (y := x) (h.tiled.perm ?_) hp⟩, hbelow⟩
  · exact hperm.mem_iff.mpr (List.mem_cons_of_mem p hy)
  · have := h.above y hy
    simp only
    omega
  · exact ((hperm.append_right live).cons x).trans (List.Perm.swap p x _)

/-- Where the next block above does not touch the freed extent, none does. -/
theorem Freeing.above_strict (h : Freeing c lows highs live x) (hne : x.1 + x.2 ≠ headAddr (highs ++ lows) 0) :
    ∀ y ∈ highs, x.1 + x.2 < y.1 := by
  cases highs with
  | nil => simp
  | cons q highs =>
    obtain ⟨-, -, habove⟩ := spread_middle.mp h.spread
    have hq : x.1 + x.2 < q.1 := Nat.lt_of_le_of_ne (h.above q List.mem_cons_self) hne
    refine List.forall_mem_cons.mpr ⟨hq, fun y hy => ?_⟩
    have := habove y hy
    omega

/-- The last of the free blocks in the ring's order from above the extent: below it, or the highest of all. -/
theorem Freeing.last (h : Freeing c lows highs live x) (hmid : highs ++ lows = mid ++ [p]) :
    (∃ lows', lows = lows' ++ [p] ∧ mid = highs ++ lows') ∨ (lows = [] ∧ x.1 + x.2 ≤ p.1) := by
  rcases List.eq_nil_or_concat lows with rfl | ⟨lows', w, rfl⟩
  · exact .inr ⟨rfl, h.above p (by rw [List.append_nil] at hmid; simp [hmid])⟩
  · rw [List.concat_eq_append, ← List.append_assoc] at hmid
    obtain ⟨hlows, hw⟩ := List.append_inj' hmid rfl
    obtain rfl : w = p := by simpa using hw
    exact .inl ⟨lows', List.concat_eq_append, hlows.symm⟩

/-- Where the block below does not touch the freed extent, none does. -/
theorem Freeing.below_strict (h : Freeing c lows highs live x) (hmid : highs ++ lows = mid ++ [p])
    (hne : p.1 + p.2 ≠ x.1) : ∀ y ∈ lows, y.1 + y.2 < x.1 := by
  rcases h.last hmid with ⟨lows', rfl, -⟩ | ⟨rfl, -⟩
  · obtain ⟨-, hbelow, -⟩ := spread_middle.mp (List.append_assoc lows' [p] highs ▸ h.spread)
    have hp : p.1 + p.2 < x.1 := Nat.lt_of_le_of_ne (h.below p (by simp)) hne
    intro y hy
    rcases List.mem_append.mp hy with hy | hy
    · have := hbelow y hy
      omega
    · rw [List.mem_singleton.mp hy]
      exact hp
  · simp

/-- The extent in the free list, where it touches no other block and the ring is closed around it. -/
theorem Freeing.wellKept (h : Freeing t.cfg lows highs live x) (hbelow : ∀ y ∈ lows, y.1 + y.2 < x.1)
    (habove : ∀ y ∈ highs, x.1 + x.2 < y.1) (hring : Ring t.mem (x :: (highs ++ lows)))
    (hrover : ∃ y ∈ x :: (highs ++ lows), t.rover = BitVec.ofNat 32 y.1) : t.WellKept (lows ++ x :: highs) live := by
  have hperm : (x :: (highs ++ lows)).Perm (lows ++ x :: highs) := List.perm_append_comm (l₁ := x :: highs)
  obtain ⟨y, hy, hrover⟩ := hrover
  exact ⟨spread_middle.mpr ⟨h.spread, hbelow, habove⟩, fun z hz => h.header_fits z (hperm.mem_iff.mpr hz),
    hring.rotate (l₁ := x :: highs), .inr ⟨y, hperm.mem_iff.mp hy, hrover⟩, h.tiled.perm (hperm.append_right live)⟩

/-! ### The scan -/

section
variable (hc : s.cfg.wf) (hp : s.heapPhysical)
include hc hp

/-- One block of the scan: its check passes and its link is read (R74). -/
theorem freeScan_eq (hx : s.FreeBlock x) (bp fuel : Nat) :
    freeScan bp fuel x.1 s =
      if brackets bp x.1 (s.mem.readWord x.1).toNat then .ok (x.1, (s.mem.readWord x.1).toNat) s
      else match fuel with
        | 0 => haltEvent .heapFault s
        | fuel + 1 => freeScan bp fuel (s.mem.readWord x.1).toNat s := by
  have hcheck : checkBlock x.1 s = .ok () s :=
    checkBlock_physical hc hp hx.base_le (by rw [hx.size]; exact hx.header_fits) (by rw [hx.size]; exact hx.le_end)
  cases fuel <;> rw [freeScan, hcheck, Ev.bind_ok, aRead_physical hc hp hx.inHeap, Ev.bind_ok]

/-- The scan passes the blocks that do not bracket the address with their successors, and ends at the one that does. -/
theorem freeScan_reaches {bp z : Nat} (hz : z ≤ s.cfg.heapEnd) (hfound : brackets bp p.1 z = true)
    (mid : List (Nat × Nat)) : ∀ fuel, headersFrom s.mem z (mid ++ [p]) → (∀ y ∈ mid ++ [p], s.FreeBlock y) →
      (mid ++ [p]).Pairwise (fun y y' => brackets bp y.1 y'.1 = false) → mid.length ≤ fuel →
      freeScan bp fuel (headAddr (mid ++ [p]) z) s = .ok (p.1, z) s := by
  induction mid with
  | nil =>
    intro fuel hlinks hblocks _ _
    obtain ⟨⟨hnext, -⟩, -⟩ := (headersFrom_cons _ _ _ _).mp hlinks
    have hlink : (s.mem.readWord p.1).toNat = z := by rw [hnext, headAddr_nil, toNat_ofNat_of_lt_heapEnd hc hz]
    rw [List.nil_append, headAddr_cons, freeScan_eq hc hp (hblocks p (by simp)), hlink, if_pos hfound]
  | cons y mid ih =>
    intro fuel hlinks hblocks hpass hfuel
    rw [List.cons_append] at hlinks hblocks hpass ⊢
    obtain ⟨⟨hnext, -⟩, hlinks⟩ := (headersFrom_cons _ _ _ _).mp hlinks
    obtain ⟨hy, hblocks⟩ := List.forall_mem_cons.mp hblocks
    obtain ⟨hskip, hpass⟩ := List.pairwise_cons.mp hpass
    obtain ⟨y', hy', hhead⟩ : ∃ y' ∈ mid ++ [p], headAddr (mid ++ [p]) z = y'.1 := by
      cases mid with
      | nil => exact ⟨p, by simp, rfl⟩
      | cons y' mid => exact ⟨y', by simp, rfl⟩
    have hlink : (s.mem.readWord y.1).toNat = headAddr (mid ++ [p]) z := by
      have := (hblocks y' hy').le_end
      rw [hnext, toNat_ofNat_of_lt_heapEnd hc (by omega)]
    obtain ⟨fuel, rfl⟩ : ∃ k, fuel = k + 1 := ⟨fuel - 1, by simp only [List.length_cons] at hfuel; omega⟩
    have hno : brackets bp y.1 (headAddr (mid ++ [p]) z) = false := hhead ▸ hskip y' hy'
    rw [headAddr_cons, freeScan_eq hc hp hy, hlink, hno]
    exact ih fuel hlinks hblocks hpass (by simpa using hfuel)

end

theorem headAddr_headAddr (l : List (Nat × Nat)) (z : Nat) : headAddr l (headAddr l z) = headAddr l z := by
  cases l <;> rfl

theorem headAddr_le_of_spread (h : Spread l) (hp : p ∈ l) (z : Nat) : headAddr l z ≤ p.1 := by
  cases l with
  | nil => cases hp
  | cons q l =>
    rcases List.mem_cons.mp hp with rfl | hp
    · exact Nat.le_refl _
    · have := (List.pairwise_cons.mp h).1 p hp
      rw [headAddr_cons]
      omega

theorem brackets_iff (bp a z : Nat) : brackets bp a z = true ↔ (a < bp ∧ bp < z) ∨ (z ≤ a ∧ (a < bp ∨ bp < z)) := by
  simp [brackets]

/-- In the ring's order from above the extent, no block but the last brackets it with a later one. -/
theorem Freeing.brackets_false (h : Freeing c lows highs live x) :
    (highs ++ lows).Pairwise fun y y' => brackets x.1 y.1 y'.1 = false := by
  have hx := h.size
  obtain ⟨hlows, hhighs, -⟩ := List.pairwise_append.mp h.spread
  have hno : ∀ y y' : Nat × Nat, ¬ brackets x.1 y.1 y'.1 = true → brackets x.1 y.1 y'.1 = false := fun y y' =>
    Bool.eq_false_iff.mpr
  refine List.pairwise_append.mpr ⟨hhighs.imp_of_mem fun {y y'} hy hy' hlt => hno y y' ?_,
    hlows.imp_of_mem fun {y y'} hy hy' hlt => hno y y' ?_, fun y hy y' hy' => hno y y' ?_⟩ <;> rw [brackets_iff]
  · have := h.above y hy
    omega
  · have := h.below y' hy'
    omega
  · have := h.above y hy
    have := h.below y' hy'
    omega

/-- The last block in that order brackets the extent with the first. -/
theorem Freeing.brackets_last (h : Freeing c lows highs live x) (hmid : highs ++ lows = mid ++ [p]) :
    brackets x.1 p.1 (headAddr (highs ++ lows) 0) = true := by
  have hx := h.size
  obtain ⟨hlows, hhighs, -⟩ := List.pairwise_append.mp h.spread
  have hp : p ∈ highs ++ lows := by rw [hmid]; simp
  rw [brackets_iff]
  cases highs with
  | nil =>
    have := h.below p hp
    have hle : headAddr ([] ++ lows) 0 ≤ p.1 := headAddr_le_of_spread hlows hp 0
    have := h.header_fits p (List.mem_cons_of_mem x hp)
    exact .inr ⟨hle, by omega⟩
  | cons q highs =>
    have hq := h.above q List.mem_cons_self
    rw [List.cons_append, headAddr_cons]
    rcases List.mem_append.mp hp with hp | hp
    · have := headAddr_le_of_spread hhighs hp 0
      exact .inr ⟨this, by omega⟩
    · have := h.below p hp
      have := h.header_fits p (by simp [hp])
      omega

/-- The scan from any block of a well-kept free list finds the pair around the freed extent (R74). -/
theorem Freeing.freeScan (h : Freeing s.cfg lows highs live x) (hc : s.cfg.wf) (hp : s.heapPhysical)
    (hring : Ring s.mem (highs ++ lows)) (hblocks : ∀ y ∈ highs ++ lows, s.FreeBlock y) {r : Nat × Nat} {fuel : Nat}
    (hr : r ∈ highs ++ lows) (hfuel : (highs ++ lows).length ≤ fuel) :
    ∃ mid p, highs ++ lows = mid ++ [p] ∧
      Machine.freeScan x.1 fuel r.1 s = .ok (p.1, headAddr (highs ++ lows) 0) s := by
  obtain ⟨before, after, hcut⟩ := List.append_of_mem hr
  obtain ⟨mid, p, hlast⟩ : ∃ mid p, r :: after = mid ++ [p] :=
    ((List.eq_nil_or_concat (r :: after)).resolve_left (List.cons_ne_nil _ _)).imp fun mid ⟨p, hp⟩ =>
      ⟨p, hp.trans List.concat_eq_append⟩
  rw [hlast] at hcut
  have hmid : highs ++ lows = (before ++ mid) ++ [p] := hcut.trans (List.append_assoc _ _ _).symm
  refine ⟨before ++ mid, p, hmid, ?_⟩
  have hsub : ∀ y ∈ mid ++ [p], y ∈ highs ++ lows := fun y hy => by rw [hcut]; exact List.mem_append_right _ hy
  have hfound := h.brackets_last hmid
  have hz : headAddr (highs ++ lows) 0 ≤ s.cfg.heapEnd := by
    cases hl : highs ++ lows with
    | nil => exact Nat.zero_le _
    | cons y l => exact Nat.le_trans (Nat.le_add_right _ _) (hblocks y (by rw [hl]; simp)).le_end
  have hlinks : headersFrom s.mem (headAddr (highs ++ lows) 0) (before ++ (mid ++ [p])) := hcut ▸ hring
  have hpass := h.brackets_false
  rw [hcut] at hpass
  have hlen : mid.length ≤ fuel := by
    rw [hmid] at hfuel
    simp only [List.length_append, List.length_cons, List.length_nil] at hfuel
    omega
  have hscan := freeScan_reaches hc hp hz hfound mid fuel ((headersFrom_append _ _ _ _).mp hlinks).2
    (fun y hy => hblocks y (hsub y hy)) (List.pairwise_append.mp hpass).2.1 hlen
  rw [← hlast, headAddr_cons] at hscan
  exact hscan

/-! ### The lower half -/

section
variable (hc : s.cfg.wf) (hp : s.heapPhysical) (h : Freeing s.cfg lows highs live x)
include hc hp h

/-- The freed extent joined to the block below it (R74). -/
theorem Freeing.freeLinkLower_join (hpb : s.FreeBlock p) (hjoin : p.1 + p.2 = x.1) {z : Nat}
    (hlink : m.readWord x.1 = BitVec.ofNat 32 z) (hsize : m.readWord (x.1 + 1) = BitVec.ofNat 32 x.2) :
    freeLinkLower x.1 p.1 p.2 (s.setMem m) =
      .ok () ((s.setMem ((m.writeWord (p.1 + 1) (BitVec.ofNat 32 (p.2 + x.2))).writeWord p.1
        (BitVec.ofNat 32 z))).roverTo p.1) := by
  have hlimit := Config.heapEnd_lt hc
  have hx := h.size
  obtain ⟨hbase, hend⟩ := h.bounds
  obtain ⟨hpbase, hpend, hpfits, -⟩ := hpb
  rw [freeLinkLower, if_pos hjoin, aRead_setMem hc hp ⟨by omega, by omega⟩, Ev.bind_ok, hsize,
    toNat_ofNat_of_lt_heapEnd hc (by omega), aWrite_setMem hc hp ⟨by omega, by omega⟩ (by omega), Ev.bind_ok,
    aRead_setMem hc hp ⟨by omega, by omega⟩, Ev.bind_ok, Memory.readWord_writeWord_ne _ _ _ _ (by omega), hlink,
    aWrite_setMem hc hp ⟨by omega, by omega⟩ (BitVec.isLt _), Ev.bind_ok, BitVec.ofNat_toNat, BitVec.setWidth_eq]

/-- The freed extent linked after the block before it (R74). -/
theorem Freeing.freeLinkLower_link (hpb : s.FreeBlock p) (hne : p.1 + p.2 ≠ x.1) :
    freeLinkLower x.1 p.1 p.2 (s.setMem m) =
      .ok () ((s.setMem (m.writeWord p.1 (BitVec.ofNat 32 x.1))).roverTo p.1) := by
  have hlimit := Config.heapEnd_lt hc
  obtain ⟨hbase, hend⟩ := h.bounds
  rw [freeLinkLower, if_neg hne, aWrite_setMem hc hp hpb.inHeap (by omega), Ev.bind_ok]

/-- The lower half closes the ring around the freed extent, whose header is written and leads to the block above it
(R74, R76). -/
theorem Freeing.lower (habove : ∀ y ∈ highs, x.1 + x.2 < y.1) (hmid : highs ++ lows = mid ++ [p])
    (hpb : s.FreeBlock p) (hm : m.wf) {z : Nat} (hlinks : headersFrom m z (x :: (highs ++ lows))) :
    ∃ t free', freeLinkLower x.1 p.1 p.2 (s.setMem m) = .ok () t ∧ t.WellKept free' live := by
  have hx := h.size
  have hpmem : p ∈ highs ++ lows := by rw [hmid]; simp
  have hapart := h.headersApart
  rw [hmid] at hapart hlinks
  obtain ⟨⟨hlink, hsize⟩, htail⟩ := (headersFrom_cons _ _ _ _).mp hlinks
  by_cases hjoin : p.1 + p.2 = x.1
  · rcases h.last hmid with ⟨lows', rfl, rfl⟩ | ⟨-, hp⟩
    · obtain ⟨hmerged, hbelow⟩ := h.mergeLow hjoin
      refine ⟨_, _, h.freeLinkLower_join hc hp hpb hjoin hlink hsize, Freeing.wellKept
        (t := (s.setMem _).roverTo p.1) hmerged hbelow (fun y hy => ?_) ?_ ⟨_, List.mem_cons_self, rfl⟩⟩
      · have := habove y hy
        simp only
        omega
      · have hresized := headersFrom_resize hm htail (List.pairwise_cons.mp hapart).2 (p.2 + x.2)
        have hperm : ((p.1, p.2 + x.2) :: (highs ++ lows')).Perm (highs ++ lows' ++ [(p.1, p.2 + x.2)]) :=
          (List.perm_append_singleton _ _).symm
        have hapart' : HeadersApart (highs ++ lows' ++ [(p.1, p.2 + x.2)]) :=
          (hperm.pairwise_iff fun hxy => Or.symm hxy).mp hmerged.headersApart
        have hhead : headAddr (highs ++ lows' ++ [p]) z = headAddr (highs ++ lows' ++ [(p.1, p.2 + x.2)]) 0 := by
          cases highs ++ lows' <;> rfl
        rw [hhead]
        exact Ring.rotate (l₂ := [(p.1, p.2 + x.2)])
          (headersFrom_relink (Memory.writeWord_wf hm _ _) hresized hapart' _)
    · omega
  · refine ⟨_, _, h.freeLinkLower_link hc hp hpb hjoin, Freeing.wellKept (t := (s.setMem _).roverTo p.1) h
      (h.below_strict hmid hjoin) habove ?_ ⟨p, List.mem_cons_of_mem x hpmem, rfl⟩⟩
    rw [hmid]
    exact headersFrom_relink (l := x :: mid) hm hlinks hapart x.1

/-! ### The upper half -/

/-- The freed extent linked before the block above it (R74). -/
theorem Freeing.freeBetween_link (hpb : s.FreeBlock p) (hpmem : p ∈ highs ++ lows) {z : Nat} (hz : z < 2 ^ 32)
    (hover : ¬ (x.1 < z ∧ z < x.1 + x.2)) (hne : x.1 + x.2 ≠ z) :
    freeBetween x.1 x.2 p.1 z s =
      freeLinkLower x.1 p.1 p.2
        (s.setMem ((s.mem.writeWord (x.1 + 1) (BitVec.ofNat 32 x.2)).writeWord x.1 (BitVec.ofNat 32 z))) := by
  have hlimit := Config.heapEnd_lt hc
  have hx := h.size
  have hsides := h.sides hpmem
  obtain ⟨hbase, hend⟩ := h.bounds
  obtain ⟨hpbase, hpend, hpfits, hpsize⟩ := hpb
  rw [freeBetween, aRead_physical hc hp ⟨by omega, by omega⟩, Ev.bind_ok, hpsize, if_neg (by omega), if_neg hover,
    if_neg hne, aWrite_physical hc hp ⟨by omega, by omega⟩ (by omega), Ev.bind_ok,
    aWrite_setMem hc hp ⟨by omega, by omega⟩ hz, Ev.bind_ok]

/-- The block above joined to the freed extent, where it is not the block below too (R74). -/
theorem Freeing.freeBetween_join (hpb : s.FreeBlock p) (hpmem : p ∈ highs ++ lows) (hqb : s.FreeBlock q)
    (hjoin : x.1 + x.2 = q.1) (hne : q.1 ≠ p.1) {z : Nat} (hlink : s.mem.readWord q.1 = BitVec.ofNat 32 z) :
    freeBetween x.1 x.2 p.1 q.1 s =
      freeLinkLower x.1 p.1 p.2
        (s.setMem ((s.mem.writeWord (x.1 + 1) (BitVec.ofNat 32 (x.2 + q.2))).writeWord x.1 (BitVec.ofNat 32 z))) := by
  have hlimit := Config.heapEnd_lt hc
  have hx := h.size
  have hsides := h.sides hpmem
  obtain ⟨hbase, hend⟩ := h.bounds
  obtain ⟨hpbase, hpend, hpfits, hpsize⟩ := hpb
  obtain ⟨hqbase, hqend, hqfits, hqsize⟩ := hqb
  rw [freeBetween, aRead_physical hc hp ⟨by omega, by omega⟩, Ev.bind_ok, hpsize, if_neg (by omega), if_neg (by omega),
    if_pos hjoin, aRead_physical hc hp ⟨by omega, by omega⟩, Ev.bind_ok, hqsize, if_neg hne,
    aWrite_physical hc hp ⟨by omega, by omega⟩ (by omega), Ev.bind_ok, aRead_setMem hc hp ⟨by omega, by omega⟩,
    Ev.bind_ok, Memory.readWord_writeWord_ne _ _ _ _ (by omega), hlink,
    aWrite_setMem hc hp ⟨by omega, by omega⟩ (BitVec.isLt _), Ev.bind_ok, BitVec.ofNat_toNat, BitVec.setWidth_eq]

/-- The only free block, above the freed extent, joined to it (R74). -/
theorem Freeing.freeBetween_join_alone (hqb : s.FreeBlock q) (hjoin : x.1 + x.2 = q.1) :
    freeBetween x.1 x.2 q.1 q.1 s =
      .ok () ((s.setMem ((s.mem.writeWord (x.1 + 1) (BitVec.ofNat 32 (x.2 + q.2))).writeWord x.1
        (BitVec.ofNat 32 x.1))).roverTo x.1) := by
  have hlimit := Config.heapEnd_lt hc
  have hx := h.size
  obtain ⟨hbase, hend⟩ := h.bounds
  obtain ⟨hqbase, hqend, hqfits, hqsize⟩ := hqb
  rw [freeBetween, aRead_physical hc hp ⟨by omega, by omega⟩, Ev.bind_ok, hqsize, if_neg (by omega), if_neg (by omega),
    if_pos hjoin, aRead_physical hc hp ⟨by omega, by omega⟩, Ev.bind_ok, hqsize, if_pos rfl,
    aWrite_physical hc hp ⟨by omega, by omega⟩ (by omega), Ev.bind_ok,
    aWrite_setMem hc hp ⟨by omega, by omega⟩ (by omega), Ev.bind_ok]

/-- FreeExtent between the pair that the scan found (R74, R76). -/
theorem Freeing.freeBetween (hwf : s.mem.wf) (hring : Ring s.mem (highs ++ lows))
    (hblocks : ∀ y ∈ highs ++ lows, s.FreeBlock y) (hmid : highs ++ lows = mid ++ [p]) :
    ∃ t free', Machine.freeBetween x.1 x.2 p.1 (headAddr (highs ++ lows) 0) s = .ok () t ∧ t.WellKept free' live := by
  have hx := h.size
  have hlimit := Config.heapEnd_lt hc
  have hpmem : p ∈ highs ++ lows := by rw [hmid]; simp
  have hpb := hblocks p hpmem
  have hhead : ∃ y ∈ highs ++ lows, headAddr (highs ++ lows) 0 = y.1 := by
    cases hl : highs ++ lows with
    | nil => rw [hl] at hpmem; cases hpmem
    | cons y l => exact ⟨y, List.mem_cons_self, rfl⟩
  obtain ⟨y, hy, hyhead⟩ := hhead
  have hysides := h.sides hy
  have hyend := (hblocks y hy).le_end
  by_cases hjoin : x.1 + x.2 = headAddr (highs ++ lows) 0
  · cases highs with
    | nil =>
      have := h.below y hy
      omega
    | cons q highs =>
      rw [List.cons_append, headAddr_cons] at hjoin ⊢
      have hqb := hblocks q (by simp)
      obtain ⟨hmerged, habove⟩ := h.mergeHigh hjoin
      obtain ⟨⟨hlink, -⟩, hlinks⟩ := (headersFrom_cons _ _ _ _).mp hring
      have hpush := headersFrom_push hwf hlinks hmerged.headersApart
      rcases List.eq_nil_or_concat (highs ++ lows) with hnil | ⟨mid', w, hmid'⟩
      · obtain ⟨rfl, rfl⟩ := List.append_eq_nil_iff.mp hnil
        obtain rfl : q = p := (List.mem_singleton.mp hpmem).symm
        exact ⟨_, _, h.freeBetween_join_alone hc hp hqb hjoin,
          Freeing.wellKept (t := (s.setMem _).roverTo x.1) hmerged (by simp) habove
            (headersFrom_push (l := []) hwf trivial hmerged.headersApart) ⟨_, List.mem_cons_self, rfl⟩⟩
      · rw [List.concat_eq_append] at hmid'
        rw [List.cons_append, hmid', ← List.cons_append] at hmid
        obtain rfl : w = p := by simpa using (List.append_inj' hmid rfl).2
        have hwsides := hmerged.sides (p := w) (by rw [hmid']; simp)
        have hne : q.1 ≠ w.1 := by
          have := hqb.header_fits
          have := hpb.header_fits
          simp only at hwsides
          omega
        rw [h.freeBetween_join hc hp hpb hpmem hqb hjoin hne hlink]
        exact Freeing.lower (x := (x.1, x.2 + q.2)) hc hp hmerged habove hmid' hpb
          (Memory.writeWord_wf (Memory.writeWord_wf hwf _ _) _ _) hpush
  · rw [h.freeBetween_link hc hp hpb hpmem (by omega) (by omega) hjoin]
    have hpush := headersFrom_push (z := headAddr (highs ++ lows) 0) hwf hring h.headersApart
    rw [headAddr_headAddr] at hpush
    exact h.lower hc hp (h.above_strict hjoin) hmid hpb (Memory.writeWord_wf (Memory.writeWord_wf hwf _ _) _ _) hpush

end

/-! ### Freeing -/

/-- An extent freed where there is no free block becomes the ring (R74). -/
theorem State.WellKept.freeExtent_nil (h : s.WellKept [] (x :: live)) (hc : s.cfg.wf) (hwf : s.mem.wf)
    (hp : s.heapPhysical) (hx : 2 ≤ x.2) (hrover : s.rover = nil) :
    ∃ t, freeExtent x.1 x.2 s = .ok () t ∧ t.WellKept [x] live := by
  have hlimit := Config.heapEnd_lt hc
  obtain ⟨hbase, hend⟩ := h.tiled.bounds x List.mem_cons_self
  rw [freeExtent, if_neg (by omega), if_pos hrover, aWrite_physical hc hp ⟨hbase, by omega⟩ (by omega), Ev.bind_ok,
    aWrite_setMem hc hp ⟨by omega, by omega⟩ (by omega), Ev.bind_ok]
  refine ⟨_, rfl, List.pairwise_singleton _ x, by simpa using hx, ⟨?_, ?_⟩, .inr ⟨x, by simp, rfl⟩, h.tiled⟩
  · change ((s.mem.writeWord x.1 _).writeWord (x.1 + 1) _).readWord x.1 = _
    rw [Memory.readWord_writeWord_ne _ _ _ _ (Nat.ne_of_lt (Nat.lt_succ_self x.1)),
      Memory.readWord_writeWord_same hwf]
    rfl
  · exact Memory.readWord_writeWord_same (Memory.writeWord_wf hwf _ _) _ _

/-- Freeing a live extent of a well-kept heap (R74, R76). -/
theorem State.WellKept.freeExtent {free : List (Nat × Nat)} (h : s.WellKept free (x :: live)) (hc : s.cfg.wf)
    (hwf : s.mem.wf) (hp : s.heapPhysical) (hx : 2 ≤ x.2) :
    ∃ t free', Machine.freeExtent x.1 x.2 s = .ok () t ∧ t.WellKept free' live := by
  rcases h.rover with ⟨rfl, hrover⟩ | ⟨r, hr, hrover⟩
  · obtain ⟨t, ht, hnew⟩ := h.freeExtent_nil hc hwf hp hx hrover
    exact ⟨t, [x], ht, hnew⟩
  obtain ⟨lows, highs, rfl, hfreeing⟩ := h.freeing hx
  have hperm : (lows ++ highs).Perm (highs ++ lows) := List.perm_append_comm
  have hblocks : ∀ y ∈ highs ++ lows, s.FreeBlock y := fun y hy => h.freeBlock hc (hperm.mem_iff.mpr hy)
  have hring : Ring s.mem (highs ++ lows) := h.ring.rotate
  have hfuel : (highs ++ lows).length ≤ s.scanBound :=
    hperm.length_eq ▸ (State.wellKept_iff.mp h).1.length_le
  have hrb := hblocks r (hperm.mem_iff.mp hr)
  have hrend := hrb.le_end
  have hlimit := Config.heapEnd_lt hc
  have hrnat : s.rover.toNat = r.1 := by rw [hrover, toNat_ofNat_of_lt_heapEnd hc (by omega)]
  have hnil : s.rover ≠ nil := fun he => by
    have hsentinel : nil.toNat = 2 ^ 32 - 1 := rfl
    have := hrb.header_fits
    rw [he] at hrnat
    omega
  obtain ⟨hbase, hend⟩ := hfreeing.bounds
  obtain ⟨mid, p, hmid, hscan⟩ := hfreeing.freeScan hc hp hring hblocks (hperm.mem_iff.mp hr) hfuel
  rw [Machine.freeExtent, if_neg (by omega), if_neg hnil, hrnat, hscan, Ev.bind_ok]
  exact hfreeing.freeBetween (p := p) hc hp hwf hring hblocks hmid

/-- Settles O47: the scan finds the pair around the extent, which is joined to what it touches and linked otherwise. -/
theorem freeKeepsTilingAndCoalesces : Obligations.FreeKeepsTilingAndCoalesces := by
  intro s free live bp n hc hwf hxlate htiled hgaps hn
  have hkept : s.WellKept free ((bp, n) :: live) := State.wellKept_iff.mpr ⟨htiled, hgaps⟩
  obtain ⟨t, free', ht, hnew⟩ := hkept.freeExtent hc hwf (.inl hxlate) hn
  exact ⟨t, free', ht, State.wellKept_iff.mp hnew⟩

end Sys2Proof.Machine
end

section
/-! SUPPORT. The encoding (spec 30_encoding.md R90 to R99) and what rests on it: which row a word selects in each map,
the two round trips between words and instructions, and a STEP, JMP and the invalid path (40_cpu_cycle.md R110 to R116;
42_control.md R125). -/

namespace Sys2Proof

variable {m : OpmapMode} {w w0 w1 : Word} {op : Mnemonic}

/-! ### The rows of a map -/

/-- The words of a row: its value, then the operand (R90, R92). -/
theorem encode_instr (m : OpmapMode) (w : Word) (op : Mnemonic) : encode m (op.instr w) = (opcodeValue m op, w) := by
  cases op <;> rfl

/-- An instruction is a row of the table with its operand, or an unrecognised word (R98). -/
theorem Instr.eq_instr_or_invalid (i : Instr) :
    (∃ (op : Mnemonic) (w : Word), i = op.instr w) ∨ ∃ w0 w1, i = .invalid w0 w1 := by
  cases i with
  | mova w => exact .inl ⟨.mova, w, rfl⟩
  | movb w => exact .inl ⟨.movb, w, rfl⟩
  | movc w => exact .inl ⟨.movc, w, rfl⟩
  | jmp w => exact .inl ⟨.jmp, w, rfl⟩
  | int w => exact .inl ⟨.int, w, rfl⟩
  | lda w => exact .inl ⟨.lda, w, rfl⟩
  | ldb w => exact .inl ⟨.ldb, w, rfl⟩
  | ldc w => exact .inl ⟨.ldc, w, rfl⟩
  | sta w => exact .inl ⟨.sta, w, rfl⟩
  | stb w => exact .inl ⟨.stb, w, rfl⟩
  | stc w => exact .inl ⟨.stc, w, rfl⟩
  | invalid w0 w1 => exact .inr ⟨w0, w1, rfl⟩

/-- The well-formed rows are those that their own value selects: under PRECEDENCE the values of LDA and STA select JMP
and INT (R95, R99). -/
theorem Mnemonic.wf_instr_iff : (op.instr w).wf m = true ↔ lookupOpcode m (opcodeValue m op) = some op := by
  cases op with
  | lda | sta =>
    cases m with
    | precedence => exact iff_of_false Bool.false_ne_true (by decide)
    | disjoint => exact iff_of_true rfl rfl
  | _ => cases m <;> exact iff_of_true rfl rfl

/-- A row that PRECEDENCE can select keeps its value in DISJOINT (R96). -/
theorem Mnemonic.opcodeValue_disjoint (h : (op.instr w).wf .precedence = true) :
    opcodeValue .disjoint op = opcodeValue .precedence op := by
  cases op with
  | lda | sta => cases h
  | _ => rfl

/-- DISJOINT can express every row (R96). -/
theorem Mnemonic.wf_instr_disjoint (op : Mnemonic) (w : Word) : (op.instr w).wf .disjoint = true := by
  cases op <;> rfl

/-- The lists of R95 and R96 hold the values of the rows and no other; under PRECEDENCE two rows repeat a value. -/
theorem mem_tableValues_iff : w ∈ Machine.tableValues m ↔ ∃ op, opcodeValue m op = w := by
  have hrows : w ∈ Machine.tableValues m ↔ w ∈ opcodeOrder.map (opcodeValue m) := by
    cases m with
    | precedence =>
      simp only [Machine.tableValues, opcodeOrder, List.map, opcodeValue, List.mem_cons]
      tauto
    | disjoint => exact Iff.rfl
  simp [hrows, mem_opcodeOrder]

/-! ### The two round trips -/

/-- Settles O1: a well-formed row is the one its value selects, and a well-formed invalid word selects none. -/
theorem decodeInvertsEncode : Obligations.DecodeInvertsEncode := by
  intro m i h
  rcases i.eq_instr_or_invalid with ⟨op, w, rfl⟩ | ⟨w0, w1, rfl⟩
  · rw [encode_instr]
    exact decode_of_some (Mnemonic.wf_instr_iff.mp h)
  · exact decode_of_none (Option.isNone_iff_eq_none.mp h)

/-- Settles O2: a word that selects a row is that row's value. -/
theorem encodeInvertsDecode : Obligations.EncodeInvertsDecode := by
  intro m w0 w1
  cases h : lookupOpcode m w0 with
  | none =>
    rw [decode_of_none h]
    exact ⟨Option.isNone_iff_eq_none.mpr h, rfl⟩
  | some op =>
    obtain rfl := lookupOpcode_some h
    rw [decode_of_some h, encode_instr]
    exact ⟨Mnemonic.wf_instr_iff.mpr h, rfl⟩

/-! ### What a word selects -/

/-- A word is decoded as invalid exactly when it selects no row (R97, R98). -/
theorem decode_eq_invalid_iff : decode m w0 w1 = .invalid w0 w1 ↔ lookupOpcode m w0 = none := by
  refine ⟨fun h => ?_, decode_of_none⟩
  have hwf := (encodeInvertsDecode m w0 w1).1
  rw [h] at hwf
  exact Option.isNone_iff_eq_none.mp hwf

/-- A word selects no row exactly when it is no row's value (R93). -/
theorem lookupOpcode_eq_none_iff : lookupOpcode m w = none ↔ ∀ op, opcodeValue m op ≠ w := by
  refine ⟨lookupOpcode_none, fun h => List.find?_eq_none.mpr fun op _ => ?_⟩
  simpa using h op

/-- Settles O6: the rows' values are the listed ones. -/
theorem invalidExactlyOutsideTable : Obligations.InvalidExactlyOutsideTable := by
  intro m w0 w1
  rw [decode_eq_invalid_iff, lookupOpcode_eq_none_iff, mem_tableValues_iff, not_exists]

/-- Settles O5: the row a word selects under PRECEDENCE has the same value under DISJOINT, where every row is selected
by its value. -/
theorem disjointKeepsPrecedence : Obligations.DisjointKeepsPrecedence := by
  intro w0 w1 hvalid
  cases h : lookupOpcode .precedence w0 with
  | none => exact absurd (decode_of_none h) hvalid
  | some op =>
    obtain rfl := lookupOpcode_some h
    have hvalue := Mnemonic.opcodeValue_disjoint (w := w1) (Mnemonic.wf_instr_iff.mpr h)
    have hdisjoint := Mnemonic.wf_instr_iff.mp (op.wf_instr_disjoint w1)
    rw [decode_of_some h, ← hvalue, decode_of_some hdisjoint]

/-- Settles O3: each pair of words is the encoding of a well-formed instruction. -/
theorem specWordsDecode : Obligations.SpecWordsDecode :=
  ⟨decodeInvertsEncode .precedence (.mova 0x2A) rfl, decodeInvertsEncode .disjoint (.movc 0x7) rfl,
    decodeInvertsEncode .precedence (.jmp 0xFFFFFFFE) rfl, decodeInvertsEncode .disjoint (.int 1) rfl,
    decodeInvertsEncode .precedence (.ldb 0x2C) rfl, decodeInvertsEncode .disjoint (.lda 0x2C) rfl,
    decodeInvertsEncode .precedence (.stc 0x3F) rfl, decodeInvertsEncode .disjoint (.sta 3) rfl,
    decodeInvertsEncode .precedence (.invalid 0x23 0) rfl, decodeInvertsEncode .disjoint (.invalid 0x120 0) rfl⟩

/-- Settles O4: what decodes is well-formed, and under PRECEDENCE LDA and STA are not. -/
theorem shadowedRowsNeverSelected : Obligations.ShadowedRowsNeverSelected := by
  intro w0 w1 addr
  have hwf := (encodeInvertsDecode .precedence w0 w1).1
  refine ⟨decodeInvertsEncode .precedence (.jmp w1) rfl, decodeInvertsEncode .precedence (.int w1) rfl,
    fun hlda => ?_, fun hsta => ?_⟩
  · rw [hlda] at hwf
    cases hwf
  · rw [hsta] at hwf
    cases hwf

end Sys2Proof

namespace Sys2Proof.Machine

/-! ### The instructions by their words -/

/-- Settles O7: the fetch passes its range check, and the decoder gives back the instruction whose words it read. -/
theorem stepRunsDecodedInstr : Obligations.StepRunsDecodedInstr := by
  intro s i hrun he hrange hwf hw0 hw1
  calc step s = cpuCycle s.tookEvent := step_of_admitted he (by rw [hrun]; rfl)
    _ = exec (decode s.cfg.opmapMode (s.mem.readWord s.regs.ip.toNat) (s.mem.readWord (s.regs.ip.toNat + 1)))
          s.tookEvent := (cpuCycle_eq _).trans (if_neg (Nat.not_le.mpr hrange))
    _ = exec i s.tookEvent := by rw [hw0, hw1, decodeInvertsEncode _ i hwf]

/-- Adding a word is adding its signed value modulo `2^32` (R8). -/
theorem toNat_add_eq_add_toInt (x y : Word) : ((x + y).toNat : Int) = ((x.toNat : Int) + y.toInt) % 2 ^ 32 := by
  rw [BitVec.toNat_add, BitVec.toInt_eq_toNat_cond]
  split <;> omega

/-- Settles O12: the adder's sum is the signed one, and it goes to `ip` alone. -/
theorem jumpAddsSignedOffset : Obligations.JumpAddsSignedOffset := fun s rel =>
  ⟨s.setIp (ipJump s.regs.ip rel), rfl, rfl, toNat_add_eq_add_toInt s.regs.ip rel⟩

/-- Settles O13: the path emits one event and advances `ip`. -/
theorem invalidOpcodeLoggedAndSkipped : Obligations.InvalidOpcodeLoggedAndSkipped := fun _ _ _ => rfl

end Sys2Proof.Machine
end

section
/-! SUPPORT. The CPU cycle (spec 40_cpu_cycle.md R110 to R118): the fetch with its range check, the next state that every
instruction has in RUN, and the purity of the instructions over configuration, RAM and registers. -/

namespace Sys2Proof.Machine

variable {s s' t t' : State} {kind : AccessKind} {x : GReg} {pa : Nat} {addr : Word}

/-! ### The cycle -/

/-- Settles O8: a STEP admitted in RUN is the CPU cycle, whose range check decides between the two. -/
theorem fetchIsPhysicalAndRangeChecked : Obligations.FetchIsPhysicalAndRangeChecked := by
  intro s hrun he
  have hstep : step s = cpuCycle s.tookEvent := step_of_admitted he (by rw [hrun]; rfl)
  rw [hstep, cpuCycle_eq]
  exact ⟨fun hout => if_pos hout, fun hin => if_neg (Nat.not_le.mpr hin)⟩

/-- Settles O28: no precondition of an instruction breaks in a state of the invariant. -/
theorem everyInstructionHasNextState : Obligations.EveryInstructionHasNextState := fun _ i h hrun => h.exec_next hrun i

/-! ### Purity -/

/-- Two states that an instruction with a mapped operand page cannot tell apart but by that page's entry (R117). -/
structure State.SameCpu (s s' : State) : Prop where
  cfg : s.cfg = s'.cfg
  mem : s.mem = s'.mem
  regs : s.regs = s'.regs

theorem State.SameCpu.setReg (h : s.SameCpu s') (x : GReg) (v : Word) : (s.setReg x v).SameCpu (s'.setReg x v) :=
  ⟨h.cfg, h.mem, congrArg (fun r : Regs => r.set x v) h.regs⟩

theorem State.SameCpu.setIp (h : s.SameCpu s') (v : Word) : (s.setIp v).SameCpu (s'.setIp v) :=
  ⟨h.cfg, h.mem, congrArg (fun r : Regs => r.setIp v) h.regs⟩

theorem State.SameCpu.advance (h : s.SameCpu s') : s.advance.SameCpu s'.advance :=
  ⟨h.cfg, h.mem, congrArg (fun r : Regs => r.setIp (ipAfter r.ip)) h.regs⟩

theorem State.SameCpu.setMem (h : s.SameCpu s') (m : Memory) : (s.setMem m).SameCpu (s'.setMem m) :=
  ⟨h.cfg, rfl, h.regs⟩

theorem State.SameCpu.halt (h : s.SameCpu s') (r : HaltReason) : (s.halt r).SameCpu (s'.halt r) :=
  ⟨h.cfg, h.mem, h.regs⟩

theorem State.SameCpu.emit (h : s.SameCpu s') (e e' : TraceEvent) : (s.emit e).SameCpu (s'.emit e') :=
  ⟨h.cfg, h.mem, h.regs⟩

/-- An access that hits outside RAM breaks R51's precondition. -/
theorem accessHit_of_ge (h : s.cfg.ramWords ≤ pa) (kind : AccessKind) (x : GReg) :
    accessHit kind x pa s = .broken (.ramRange pa) := by
  have hout : ¬ pa < s.cfg.ramWords := Nat.not_lt.mpr h
  cases kind with
  | load => rw [accessHit, memRead, if_neg hout, Ev.bind_broken]
  | store => rw [accessHit, memWrite, if_neg hout, Ev.bind_broken]

/-- A hit reads and writes RAM and registers alone. -/
theorem State.SameCpu.accessHit (h : s.SameCpu s') (ht : (accessHit kind x pa s).outcome = .next t)
    (ht' : (Machine.accessHit kind x pa s').outcome = .next t') : t.SameCpu t' := by
  by_cases hlt : pa < s.cfg.ramWords
  · have hlt' : pa < s'.cfg.ramWords := h.cfg ▸ hlt
    cases kind with
    | load =>
      rw [accessHit_load hlt] at ht
      rw [accessHit_load hlt', ← h.mem] at ht'
      cases ht
      cases ht'
      exact (h.setReg x _).advance
    | store =>
      rw [accessHit_store hlt] at ht
      rw [accessHit_store hlt', ← h.mem, ← h.regs] at ht'
      cases ht
      cases ht'
      exact (h.setMem _).advance
  · rw [accessHit_of_ge (Nat.not_lt.mp hlt)] at ht
    cases ht

/-- A load or store of a page that is not unmapped: outside the table both halt, in it both hit at one address. -/
theorem State.SameCpu.access (h : s.SameCpu s')
    (hentry : s.liveEntry (addr.toNat / s.cfg.pageSize) = s'.liveEntry (addr.toNat / s.cfg.pageSize))
    (hmapped : s.liveEntry (addr.toNat / s.cfg.pageSize) ≠ some unmapped)
    (ht : (access kind x addr s).outcome = .next t) (ht' : (Machine.access kind x addr s').outcome = .next t') :
    t.SameCpu t' := by
  have hpage : s'.pageOf addr.toNat = s.pageOf addr.toNat := by rw [State.pageOf, State.pageOf, h.cfg]
  have hoffset : s'.offsetOf addr.toNat = s.offsetOf addr.toNat := by rw [State.offsetOf, State.offsetOf, h.cfg]
  rcases translate_cases addr.toNat s with ⟨hge, -⟩ | ⟨f, he, hf, -⟩ | ⟨f, he, hf, -⟩ | ⟨-, hbroken⟩
  · rw [access_of_ge hge] at ht
    rw [access_of_ge (by rw [hpage, ← h.cfg]; exact hge)] at ht'
    cases ht
    cases ht'
    exact h.halt .vaRange
  · exact absurd (hf ▸ he.2) hmapped
  · have he' : s'.entryIs (s'.pageOf addr.toNat) f := by
      rw [hpage]
      exact ⟨h.cfg ▸ he.1, hentry ▸ he.2⟩
    rw [access_of_mapped he hf] at ht
    rw [access_of_mapped he' hf, hoffset] at ht'
    exact h.accessHit ht ht'
  · rw [Machine.access, addrOperand, hbroken] at ht
    cases ht

/-- INT with any code but 1 (R126). -/
theorem exec_int_of_ne_one {code : Word} (h : code ≠ 1) (s : State) : exec (.int code) s = .next (s.halt .undefInt) :=
  if_neg (by simpa [codeIsOne] using h)

/-- Settles O58: a move, JMP, an undefined INT and an invalid opcode use `cfg`, RAM and registers alone, a load or store
one page-table entry besides. -/
theorem cpuIsPureOverRamAndRegisters : Obligations.CpuIsPureOverRamAndRegisters := by
  intro s s' t t' i hcfg hmem hregs hint hentry ht ht'
  have h : s.SameCpu s' := ⟨hcfg, hmem, hregs⟩
  have haccess : ∀ addr, i ∈ accessInstrs addr → t.SameCpu t' := fun addr hi => by
    obtain ⟨kind, x, -, hexec⟩ := exec_of_mem_accessInstrs hi
    rw [hexec] at ht ht'
    exact h.access (hentry addr hi).1 (hentry addr hi).2 ht ht'
  suffices hsame : t.SameCpu t' from ⟨hsame.mem, hsame.regs⟩
  cases i with
  | mova w => cases ht; cases ht'; exact (h.setReg .a _).advance
  | movb w => cases ht; cases ht'; exact (h.setReg .b _).advance
  | movc w => cases ht; cases ht'; exact (h.setReg .c _).advance
  | jmp w =>
    cases ht
    cases ht'
    rw [← hregs]
    exact h.setIp _
  | int w =>
    have hne : w ≠ 1 := fun e => hint (e ▸ rfl)
    rw [exec_int_of_ne_one hne] at ht ht'
    cases ht
    cases ht'
    exact h.halt .undefInt
  | lda w | ldb w | ldc w | sta w | stb w | stc w => exact haccess w (by simp [accessInstrs])
  | invalid w0 w1 => cases ht; cases ht'; exact (h.emit _ _).advance

end Sys2Proof.Machine
end

section
/-! SUPPORT. The moves (spec 41_move.md R120 to R122): the one next state of the three, and their opcode words. -/

namespace Sys2Proof.Machine

/-- What the three moves share: one general register gets the word, and `ip`, which that write leaves, goes on by 2. -/
theorem moveTo_eq (x : GReg) (w : Word) (s : State) :
    moveTo x w s = .next (s.setRegs ((s.regs.set x w).setIp (s.regs.ip + 2))) :=
  congrArg (fun ip => Host.Outcome.next (s.setRegs ((s.regs.set x w).setIp (ipAfter ip)))) (Regs.set_ip s.regs x w)

/-- Settles O11: the three are one move, each to its own register, and each is decoded from its encoding. -/
theorem moveWritesItsRegister : Obligations.MoveWritesItsRegister := by
  intro s w
  refine ⟨⟨moveTo_eq .a w s, moveTo_eq .b w s, moveTo_eq .c w s⟩, fun m => ⟨?_, ?_, ?_⟩⟩
  · exact decodeInvertsEncode m (.mova w) rfl
  · exact decodeInvertsEncode m (.movb w) rfl
  · exact decodeInvertsEncode m (.movc w) rfl

end Sys2Proof.Machine
end

section
/-! SUPPORT. INT and the handlers of the software slot (spec 42_control.md R126; 60_exceptions.md R153, R155, R165 to R176):
INT 1 as the run of the slot's handler, the two ends of a retirement that the handlers share, and the record each
policy selects. -/

namespace Sys2Proof.Machine

variable {s : State} {i : Nat} {p q : Process} {left : List Process} {select : State → Nat}

/-! ### Raising the software vector -/

/-- The state INT raises the vector in is the one the spec describes by its `ip` (R126, R155). -/
theorem State.ite_advance_eq_atInt (s : State) : (if s.cfg.intIpAdvance then s.advance else s) = s.atInt := by
  unfold State.atInt
  split <;> rfl

theorem State.atInt_of_not_advance (h : s.cfg.intIpAdvance = false) : s.atInt = s := by
  rw [← s.ite_advance_eq_atInt, h, if_neg Bool.false_ne_true]

/-- INT 1 runs the handler that the software slot holds (R126, R150, R155). -/
theorem exec_int_one (s : State) : exec (.int 1) s = (runHandler s.vec.software none s.atInt).outcome :=
  congrArg (fun t => (raiseSoftware t).outcome) s.ite_advance_eq_atInt

/-- INT 1 by the handler in the slot. -/
theorem exec_int_one_of_slot {v : Handler} (hv : s.vec.software = v) :
    exec (.int 1) s = (runHandler v none s.atInt).outcome := hv ▸ exec_int_one s

/-- Settles O14: the code is compared as a whole word, and every other one halts. -/
theorem intOtherCodeHalts : Obligations.IntOtherCodeHalts := fun s _ hcode => exec_int_of_ne_one hcode s

/-- Settles O19: the event raises the vector in the state as it stands, INT 1 in `atInt`, and without INT_IP_ADVANCE
these are one state. -/
theorem swiEventRunsSoftwareVector : Obligations.SwiEventRunsSoftwareVector := by
  intro s hrun he
  have hstep : step s = (runHandler s.vec.software none s.tookEvent).outcome := step_of_admitted he (by rw [hrun]; rfl)
  have hint : exec (.int 1) s.tookEvent = (runHandler s.vec.software none s.tookEvent.atInt).outcome :=
    exec_int_one s.tookEvent
  refine ⟨hstep, hint, fun hadvance => ?_⟩
  rw [hstep, hint, State.atInt_of_not_advance (s := s.tookEvent) hadvance]

/-! ### The two ends of a retirement -/

/-- RETIRE and what follows it, as the handlers of the software slot end (R172, R176). -/
theorem retire_dispatchNext_of_lt (hi : i < s.procs.length) (select : State → Nat) :
    ((retire i s).bind fun _ t => dispatchNext select t) = dispatchNext select (s.setProcs (s.procs.eraseIdx i)) := by
  rw [retire_of_some (List.getElem?_eq_getElem hi), Ev.bind_ok]

/-- The retirement of the last process halts the machine (R176). -/
theorem retire_dispatchNext_last (hi : i < s.procs.length) (hlast : s.procs.eraseIdx i = []) :
    ((retire i s).bind fun _ t => dispatchNext select t).outcome = .next ((s.setProcs []).halt .noProcess) := by
  rw [retire_dispatchNext_of_lt hi, hlast, dispatchNext_nil _ rfl, Ev.outcome_halt]

/-- A retirement that leaves a process dispatches the selected one of those left (R171, R176). -/
theorem retire_dispatchNext_selected (hi : i < s.procs.length) (hleft : s.procs.eraseIdx i = left)
    (hq : left[select (s.setProcs left)]? = some q) :
    ((retire i s).bind fun _ t => dispatchNext select t).outcome =
      .next ((s.setProcs left).dispatched (select (s.setProcs left)) q) := by
  have hne : (s.setProcs left).procs ≠ [] := List.ne_nil_of_mem (List.mem_of_getElem? hq)
  rw [retire_dispatchNext_of_lt hi, hleft, dispatchNext_ne _ hne, dispatch_of_some hq, Ev.outcome_ok]

/-- The retirement of a handler that selects by a strict order: no process left is better than the one dispatched. -/
theorem retire_dispatchNext_best {better : Process → Process → Bool} (h : StrictChoice better)
    (hi : i < s.procs.length) (hleft : s.procs.eraseIdx i ≠ []) :
    ∃ j q, (s.procs.eraseIdx i)[j]? = some q ∧ (∀ r ∈ s.procs.eraseIdx i, better r q = false) ∧
      ((retire i s).bind fun _ t => dispatchNext (fun u => chooseIndex better u.procs) t).outcome =
        .next ((s.setProcs (s.procs.eraseIdx i)).dispatched j q) := by
  obtain ⟨q, hq, hbest⟩ := chooseIndex_spec h hleft
  exact ⟨_, q, hq, hbest, retire_dispatchNext_selected (select := fun u => chooseIndex better u.procs) hi rfl hq⟩

/-! ### The policies -/

/-- Settles O15: the selected index is 0, that of the new front. -/
theorem intUnderFcfsDispatchesFront : Obligations.IntUnderFcfsDispatchesFront := by
  intro s hv hcur
  rw [exec_int_one_of_slot hv]
  exact ⟨fun hlast => retire_dispatchNext_last (s := s.atInt) hcur hlast,
    fun q qs hleft => retire_dispatchNext_selected (s := s.atInt) (select := fun _ => 0) hcur hleft rfl⟩

/-- What SHORTEST's choice of `q` says about another record `p`: least burst, ties to the smaller pid (R175). -/
theorem shorterBurst_eq_false_iff :
    shorterBurst p q = false ↔
      q.burst.toNat < p.burst.toNat ∨ (q.burst = p.burst ∧ q.pid.toNat ≤ p.pid.toNat) := by
  simp only [shorterBurst, Bool.or_eq_false_iff, Bool.and_eq_false_iff, decide_eq_false_iff_not, ← BitVec.toNat_inj]
  omega

/-- What TOP's choice of `q` says about another record `p`: greatest signed priority, ties to the smaller pid (R174). -/
theorem higherPrio_eq_false_iff :
    higherPrio p q = false ↔ p.prio.toInt < q.prio.toInt ∨ (p.prio = q.prio ∧ q.pid.toNat ≤ p.pid.toNat) := by
  simp only [higherPrio, Bool.or_eq_false_iff, Bool.and_eq_false_iff, decide_eq_false_iff_not, ← BitVec.toInt_inj]
  omega

/-- Settles O16: SHORTEST is the choice by `shorterBurst`. -/
theorem intUnderSjfDispatchesShortest : Obligations.IntUnderSjfDispatchesShortest := by
  intro s hv hcur
  rw [exec_int_one_of_slot hv]
  refine ⟨fun hlast => retire_dispatchNext_last (s := s.atInt) hcur hlast, fun hleft => ?_⟩
  obtain ⟨i, q, hq, hbest, hnext⟩ := retire_dispatchNext_best (s := s.atInt) shorterBurst_strict hcur hleft
  exact ⟨i, q, hq, fun r hr => shorterBurst_eq_false_iff.mp (hbest r hr), hnext⟩

/-- SWI_PRIO with `a = 1` retires the running process, and no priority changes (R170). -/
theorem swiPrio_terminate (ha : s.regs.a = 1) :
    swiPrio s = (retire s.cur s).bind fun _ t => dispatchNext top t := if_pos ha

/-- SWI_PRIO with `a = 2` sets the running process's priority (R170). -/
theorem swiPrio_setPrio (ha : s.regs.a = 2) (hp : s.procs[s.cur]? = some p) :
    swiPrio s = .ok () (s.setProcs (s.procs.set s.cur (p.setPrio s.regs.b))) := by
  have hne : s.regs.a ≠ 1 := by rw [ha]; decide
  rw [swiPrio, if_neg hne, if_pos ha, modifyProc_of_some _ hp]

/-- SWI_PRIO with any other key (R170). -/
theorem swiPrio_undefined (h1 : s.regs.a ≠ 1) (h2 : s.regs.a ≠ 2) : swiPrio s = haltEvent .undefSyscall s := by
  rw [swiPrio, if_neg h1, if_neg h2]

/-- Settles O18: the three arms of SWI_PRIO; TOP is the choice by `higherPrio`. -/
theorem intUnderPrioIsKeyedOnA : Obligations.IntUnderPrioIsKeyedOnA := by
  intro s p hv hp
  obtain ⟨hcur, -⟩ := List.getElem?_eq_some_iff.mp hp
  have hint : exec (.int 1) s = (swiPrio s.atInt).outcome := exec_int_one_of_slot hv
  rw [hint]
  refine ⟨fun ha => ?_, fun ha => ?_, fun h1 h2 => ?_⟩
  · rw [swiPrio_terminate (s := s.atInt) ha]
    refine ⟨fun hlast => retire_dispatchNext_last (s := s.atInt) hcur hlast, fun hleft => ?_⟩
    obtain ⟨i, q, hq, hbest, hnext⟩ := retire_dispatchNext_best (s := s.atInt) higherPrio_strict hcur hleft
    exact ⟨i, q, hq, fun r hr => higherPrio_eq_false_iff.mp (hbest r hr), hnext⟩
  · rw [swiPrio_setPrio (s := s.atInt) ha hp]
    rfl
  · rw [swiPrio_undefined (s := s.atInt) h1 h2]
    rfl

/-- SWI_RR frees the extent first; a free that ends the event ends it there, and otherwise the retirement goes on in the
state the free leaves (R168). -/
theorem swiRr_of_some (hp : s.procs[s.cur]? = some p) :
    swiRr s = (freeExtent p.extStart.toNat p.extSize.toNat s).bind fun _ t =>
      (retire s.cur t).bind fun _ t => dispatchNext (fun u => s.cur % u.procs.length) t := by
  rw [swiRr, procAt_of_some hp, Ev.bind_ok]

/-- Settles O17: the index is the retired one, wrapped to the processes left. -/
theorem intUnderRrFreesThenDispatches : Obligations.IntUnderRrFreesThenDispatches := by
  intro s p hv hp
  have hint : exec (.int 1) s = (swiRr s.atInt).outcome := exec_int_one_of_slot hv
  rw [hint, swiRr_of_some (s := s.atInt) hp]
  refine ⟨fun u hended => ?_, fun u hok hcur => ?_⟩
  · rw [hended, Ev.bind_ended, Ev.outcome_ended]
  · rw [hok, Ev.bind_ok]
    exact ⟨retire_dispatchNext_last hcur,
      fun q hq => retire_dispatchNext_selected (select := fun t => s.cur % t.procs.length) hcur rfl hq⟩

end Sys2Proof.Machine
end

section
/-! SUPPORT. The page-fault protocol from the two sides the accesses do not show (spec 43_load_store.md R136, R143;
60_exceptions.md R162): the handler run on the argument of REG_A, and the retry of the access that missed. -/

namespace Sys2Proof.Machine

variable {s : State} {addr arg f : Word} {rest : List Word} {x : GReg} {i : Instr}

/-! ### The handler on its argument -/

/-- PF on a page outside the table (R162). -/
theorem pfHandler_of_ge (h : s.cfg.ptEntries ≤ arg.toNat) : pfHandler arg s = haltEvent .ptRange s := if_pos h

/-- PF with an empty pool (R162). -/
theorem pfHandler_of_nil (h : arg.toNat < s.cfg.ptEntries) (hpool : s.pool = []) :
    pfHandler arg s = haltEvent .noFrame s := by
  rw [pfHandler, if_neg (Nat.not_le.mpr h), acquireFrame_nil hpool]
  exact if_pos rfl

/-- PF with a frame on top of the pool (R162): the sentinel there reads as an empty pool's answer (R66). -/
theorem pfHandler_of_cons (h : arg.toNat < s.cfg.ptEntries) (hpool : s.pool = f :: rest) :
    pfHandler arg s =
      if f = noFrame then haltEvent .noFrame (s.setPool rest) else writeLiveEntry arg.toNat f (s.setPool rest) := by
  rw [pfHandler, if_neg (Nat.not_le.mpr h), acquireFrame_cons hpool]

/-- PF reads and writes no register, so between the protocol's write of one and its restore it does what it does without
them (R136). -/
theorem restoreReg_pfHandler (s : State) (x : GReg) (v arg : Word) :
    restoreReg x (s.regs.get x) (pfHandler arg (s.setReg x v)) = pfHandler arg s := by
  have hrestore := State.setReg_restore s x v
  by_cases hlt : arg.toNat < s.cfg.ptEntries
  · cases hpool : s.pool with
    | nil =>
      rw [pfHandler_of_nil hlt hpool, pfHandler_of_nil (s := s.setReg x v) hlt hpool]
      exact congrArg (haltEvent .noFrame) hrestore
    | cons f rest =>
      rw [pfHandler_of_cons hlt hpool, pfHandler_of_cons (s := s.setReg x v) hlt hpool]
      split
      · exact congrArg (fun t => haltEvent .noFrame (State.setPool t rest)) hrestore
      · cases hg : (s.setPool rest).liveEntry arg.toNat with
        | none =>
          rw [writeLiveEntry_of_none hg, writeLiveEntry_of_none (s := (s.setReg x v).setPool rest) hg]
          rfl
        | some g =>
          rw [writeLiveEntry_of_some hg, writeLiveEntry_of_some (s := (s.setReg x v).setPool rest) hg]
          exact congrArg (fun t => Ev.ok () ((State.setPool t rest).setProcs
            (setLiveEntry s.procs s.livePt arg.toNat f))) hrestore
  · have hge : s.cfg.ptEntries ≤ arg.toNat := Nat.not_lt.mp hlt
    rw [pfHandler_of_ge hge, pfHandler_of_ge (s := s.setReg x v) hge]
    exact congrArg (haltEvent .ptRange) hrestore

/-- The page-fault protocol is PF on its argument, whichever register that comes from (R136, R162). -/
theorem raisePageFault_eq_pfHandler (hv : s.vec.pageFault = .pf) (x : GReg) (page : Nat) :
    raisePageFault x page s = pfHandler (faultArg x (s.setReg x (BitVec.ofNat 32 page))) s := by
  have hslot : (s.setReg x (BitVec.ofNat 32 page)).vec.slot .pageFault = .pf := hv
  simp only [raisePageFault, raiseVector, hslot, runHandler, restoreReg_pfHandler]

/-! ### The argument from register `a` -/

/-- Under REG_A the argument is `a` as it stands, where the protocol wrote another register (R136). -/
theorem faultArg_regA (hreg : s.cfg.faultArgReg = .regA) (hx : x ≠ .a) (v : Word) :
    faultArg x (s.setReg x v) = s.regs.a := by
  unfold faultArg
  rw [State.setReg_cfg, hreg]
  exact Regs.get_set_ne s.regs x .a v hx.symm

/-- LDB, LDC, STB and STC are accesses of a register other than `a` (R138, R139, R141, R142). -/
theorem exec_of_mem_accessInstrs_not_a (hi : i ∈ [Instr.ldb addr, .ldc addr, .stb addr, .stc addr]) :
    ∃ kind x, x ≠ .a ∧ ∀ s, exec i s = (access kind x addr s).outcome := by
  simp only [List.mem_cons, List.not_mem_nil, or_false] at hi
  rcases hi with rfl | rfl | rfl | rfl
  · exact ⟨.load, .b, nofun, fun _ => rfl⟩
  · exact ⟨.load, .c, nofun, fun _ => rfl⟩
  · exact ⟨.store, .b, nofun, fun _ => rfl⟩
  · exact ⟨.store, .c, nofun, fun _ => rfl⟩

/-- Settles O26: the miss is PF on register `a`, whose three ends are the three clauses. -/
theorem pageFaultUnderRegAMapsPageA : Obligations.PageFaultUnderRegAMapsPageA := by
  intro s addr hv hreg hpage hentry i hi
  obtain ⟨kind, x, hx, hexec⟩ := exec_of_mem_accessInstrs_not_a hi
  have hmiss : exec i s = (pfHandler s.regs.a s).outcome := by
    rw [hexec, access_of_unmapped ⟨hpage, hentry⟩, raisePageFault_eq_pfHandler hv, faultArg_regA hreg hx]
  rw [hmiss]
  refine ⟨fun hge => ?_, fun hlt hpool => ?_, fun f rest g hlt hpool hf hg => ?_⟩
  · rw [pfHandler_of_ge hge]
    rfl
  · rw [pfHandler_of_nil hlt hpool]
    rfl
  · rw [pfHandler_of_cons hlt hpool, if_neg hf, writeLiveEntry_of_some (s := s.setPool rest) hg]
    rfl

/-! ### The retry -/

/-- No frame base is the sentinel word: R6 leaves room for one page above RAM. -/
theorem Config.ne_sentinel_of_isFrame {c : Config} (hc : c.wf) (hf : c.isFrame f) : f ≠ sentinel := by
  rintro rfl
  obtain ⟨hsize, -, -, hram, -⟩ := hc
  have hlt : 2 ^ 32 - 1 < c.ramWords := hf.2
  omega

/-- Every policy's page-fault slot holds PF (R151). -/
theorem State.Inv.vec_pageFault (h : s.Inv) : s.vec.pageFault = .pf := by
  rw [h.vec_policy]
  cases s.cfg.policy <;> rfl

/-- What a load or store moves between the word at `pa` and its register (R137 to R142). -/
def accessMoved (i : Instr) (pa : Nat) (s u : State) : Prop :=
  match i with
  | .lda _ => u.regs.a = s.mem.readWord pa
  | .ldb _ => u.regs.b = s.mem.readWord pa
  | .ldc _ => u.regs.c = s.mem.readWord pa
  | .sta _ => u.mem.readWord pa = s.regs.a
  | .stb _ => u.mem.readWord pa = s.regs.b
  | .stc _ => u.mem.readWord pa = s.regs.c
  | _ => True

/-- A load or store of a mapped page moves its word and adds 2 to `ip` (R135). -/
theorem exec_of_mapped (hi : i ∈ accessInstrs addr) (hwf : s.mem.wf) (h : s.entryIs (s.pageOf addr.toNat) f)
    (hf : f ≠ unmapped) (hram : f.toNat + s.offsetOf addr.toNat < s.cfg.ramWords) :
    ∃ u, exec i s = .next u ∧ u.regs.ip = s.regs.ip + 2 ∧ u.phase = s.phase ∧ u.pool = s.pool ∧
      accessMoved i (f.toNat + s.offsetOf addr.toNat) s u := by
  obtain ⟨hlda, hldb, hldc⟩ := loadHitReadsWord s addr f h.1 h.2 hf hram
  have hstore : ∀ x, ∃ u, (access .store x addr s).outcome = .next u ∧ u.regs.ip = s.regs.ip + 2 ∧
      u.phase = s.phase ∧ u.pool = s.pool ∧ u.mem.readWord (f.toNat + s.offsetOf addr.toNat) = s.regs.get x := by
    intro x
    obtain ⟨u, hu, hframe, -, hword, -⟩ := store_of_mapped hwf h hf hram x
    exact ⟨u, hu, by rw [hframe], by rw [hframe], by rw [hframe], hword⟩
  simp only [accessInstrs, List.mem_cons, List.not_mem_nil, or_false] at hi
  rcases hi with rfl | rfl | rfl | rfl | rfl | rfl
  · exact ⟨_, hlda, rfl, rfl, rfl, rfl⟩
  · exact ⟨_, hldb, rfl, rfl, rfl, rfl⟩
  · exact ⟨_, hldc, rfl, rfl, rfl, rfl⟩
  · exact hstore .a
  · exact hstore .b
  · exact hstore .c

/-- A STEP in RUN whose fetch passes the range check runs the instruction it decodes (R110 to R112). -/
theorem step_of_decode (hrun : s.phase = .run) (he : s.nextEvent = .step)
    (hrange : s.regs.ip.toNat + 1 < s.cfg.ramWords)
    (hdecode :
      decode s.cfg.opmapMode (s.mem.readWord s.regs.ip.toNat) (s.mem.readWord (s.regs.ip.toNat + 1)) = i) :
    step s = exec i s.tookEvent := by
  rw [(fetchIsPhysicalAndRangeChecked s hrun he).2 hrange, hdecode]

/-- The state a served page fault leaves: the live table maps `page` to `f`, the frame taken from the pool, and `rest`
is what the pool still holds (R66, R162). -/
def State.served (s : State) (page : Nat) (f : Word) (rest : List Word) : State :=
  (s.setPool rest).setProcs (setLiveEntry s.procs s.livePt page f)

/-- A served page maps the frame, and nothing the translation reads besides is touched (R60, R65). -/
theorem State.served_entryIs {page : Nat} {g : Word} (h : s.entryIs page g) (f : Word) (rest : List Word) :
    (s.served page f rest).entryIs page f :=
  ⟨h.1, liveEntry_setLiveEntry h.2 rest⟩

/-- Settles O27: the served fault leaves `ip`, RAM and the host's events for the second STEP to fetch the same
instruction, and the frame it maps makes that one a hit inside RAM. -/
theorem pageFaultRetryCompletes : Obligations.PageFaultRetryCompletes := by
  intro s addr i hinv hrun he he' hrange hdecode hi hform hpage hentry hpool
  obtain ⟨f, rest, hpool⟩ := List.exists_cons_of_ne_nil hpool
  have hframe : s.cfg.isFrame f := hinv.pool_frames f (by rw [hpool]; exact List.mem_cons_self)
  have hf : f ≠ sentinel := Config.ne_sentinel_of_isFrame hinv.cfg_wf hframe
  have hram : f.toNat + s.offsetOf addr.toNat < s.cfg.ramWords :=
    Config.frame_offset_lt hinv.cfg_wf hframe (State.offsetOf_lt hinv.cfg_wf addr.toNat)
  let t := s.tookEvent.served (s.pageOf addr.toNat) f rest
  have hmiss : step s = .next t := (step_of_decode hrun he hrange hdecode).trans
    (pageFaultMapsTopFrame s.tookEvent addr f rest hinv.vec_pageFault hpage hentry hpool hf i hi hform)
  have hmapped : t.entryIs (t.pageOf addr.toNat) f :=
    State.served_entryIs (s := s.tookEvent) ⟨hpage, hentry⟩ f rest
  obtain ⟨u, hu, hip, hphase, hupool, hmoved⟩ :=
    exec_of_mapped (s := t.tookEvent) hi hinv.mem_wf hmapped hf hram
  have hretry : step t = .next u := (step_of_decode (s := t) hrun he' hrange hdecode).trans hu
  refine ⟨t, u, f, _, hmiss, rfl, rfl, hrun, hpool, hmapped.2, rfl, hretry, hip, hphase.trans hrun, hupool,
    ?_, ?_, ?_, ?_, ?_, ?_⟩ <;>
  · rintro rfl
    exact hmoved

end Sys2Proof.Machine
end

section
/-! SUPPORT. The exceptions and the host's events (spec 60_exceptions.md R150 to R154, R165 to R176, R190): which events
are refused, the vector slots that no event rewrites, and the timer handlers of the four policies. -/

namespace Sys2Proof.Machine

variable {s t : State} {i : Nat} {p q : Process}

/-! ### Refused events -/

/-- The table of R190 lists the phases that the model's own check admits. -/
theorem mem_admittedPhases_iff (e : HostEvent) (ph : Phase) : ph ∈ admittedPhases e ↔ e.admitted ph = true := by
  cases e with
  | frameAcquire | frameRelease _ | observe => cases ph <;> simp [admittedPhases, HostEvent.admitted]
  | _ => simp [admittedPhases, HostEvent.admitted]

/-- A next state is no refusal. -/
theorem next_ne_refused (t : State) (r : Refusal) : (.next t : Host.Outcome State Fault Refusal) ≠ .refused r := nofun

/-- Whatever a part of an event does, the event is not refused for it. -/
theorem Ev.outcome_ne_refused (x : Ev Unit) (r : Refusal) : x.outcome ≠ .refused r := by
  cases x <;> simp

/-- Every instruction has a meaning in every state (R112, R115). -/
theorem exec_ne_refused (i : Instr) (s : State) (r : Refusal) : exec i s ≠ .refused r := by
  cases i with
  | mova _ | movb _ | movc _ | jmp _ | invalid _ _ => exact next_ne_refused _ _
  | int code =>
    by_cases hcode : code = 1
    · rw [hcode, exec_int_one]
      exact Ev.outcome_ne_refused _ r
    · rw [exec_int_of_ne_one hcode]
      exact next_ne_refused _ _
  | lda _ | ldb _ | ldc _ | sta _ | stb _ | stc _ => exact Ev.outcome_ne_refused _ r

/-- A CPU cycle is not refused: the fetch halts the machine or an instruction runs (R110 to R112). -/
theorem cpuCycle_ne_refused (s : State) (r : Refusal) : cpuCycle s ≠ .refused r := by
  rw [cpuCycle_eq]
  split
  · exact next_ne_refused _ _
  · exact exec_ne_refused _ s r

/-- No effect of an event is a refusal for the phase; that of HOST_WRITE outside RAM has its own reason (R202). -/
theorem eventEffect_ne_notAdmitted (e e' : HostEvent) (ph : Phase) (s : State) :
    eventEffect e s ≠ .refused (.eventNotAdmitted e' ph) := by
  cases e with
  | hostWrite pa v =>
    change hostWrite pa v s ≠ _
    unfold hostWrite
    split
    · exact Ev.outcome_ne_refused _ _
    · simp
  | step => exact cpuCycle_ne_refused s _
  | frameAcquire | observe => exact next_ne_refused _ _
  | hostAlloc _ | hostCreate _ _ _ _ | start | timer | swi | frameRelease _ => exact Ev.outcome_ne_refused _ _

/-- Settles O9: the check is R190's table, and the effect of an admitted event never refuses for the phase. -/
theorem eventsRefusedOutsideTheirPhases : Obligations.EventsRefusedOutsideTheirPhases := by
  intro s
  rw [mem_admittedPhases_iff, Bool.not_eq_true]
  refine ⟨fun hrefused => ?_, step_of_not_admitted rfl⟩
  by_contra hadmitted
  rw [step_of_admitted rfl (Bool.eq_true_of_not_eq_false hadmitted)] at hrefused
  exact eventEffect_ne_notAdmitted _ _ _ _ hrefused

/-! ### The vector slots -/

/-- No primitive change of an event touches the vector slots (R151). -/
theorem hostKeeps_vec (v : Vectors) : HostKeeps (fun t => t.vec = v) where
  halt := fun _ _ h => h
  mem := fun _ _ _ h _ => h
  rover := fun _ _ h => h
  serve := fun _ _ _ _ _ h _ _ _ _ => h
  pop := fun _ _ h _ => h
  ready := fun hB => absurd trivial hB
  ticks := fun _ _ h => h
  procRegs := fun _ _ _ h _ => h
  procState := fun _ _ _ _ h _ => h
  procPrio := fun _ _ _ _ h _ => h
  retire := fun _ _ _ h _ => h
  dispatch := fun _ _ _ h _ => h
  reg := fun _ _ _ h => h
  ip := fun _ _ h => h
  emit := fun _ _ h => h
  replies := fun _ _ h => h
  phase := fun _ h _ => h
  create := fun _ _ _ _ _ h _ _ => h
  acquire := fun _ _ _ h _ => h

/-- Settles O29: reset takes the slots from POLICY, and no primitive change of an event, nor a release of a frame, writes
them. -/
theorem vectorsFilledOnceFromPolicy : Obligations.VectorsFilledOnceFromPolicy := by
  refine ⟨fun c => ?_, fun s t ht => ?_, fun _ _ => rfl⟩
  · change vectorsOf c.policy = _
    cases c.policy <;> rfl
  · exact (hostKeeps_vec s.vec).step rfl (fun _ _ _ _ => rfl) ht

/-! ### The TIMER event -/

/-- A TIMER event in RUN runs the handler that the timer slot holds (R150, R154). -/
theorem step_timer_of_slot {v : Handler} (hrun : s.phase = .run) (he : s.nextEvent = .timer) (hv : s.vec.timer = v) :
    step s = (runHandler v none s.tookEvent).outcome :=
  hv ▸ step_of_admitted he (by rw [hrun]; rfl)

/-- Settles O31: the event runs NOP. -/
theorem nopTimerChangesNothing : Obligations.NopTimerChangesNothing := fun _ hrun he hv =>
  step_timer_of_slot hrun he hv

/-! ### Preemption -/

/-- Two changes of one record in sequence are one change. -/
theorem modifyProc_modifyProc {α : Type} (i : Nat) (f g : Process → Process) (s : State) (k : Unit → State → Ev α) :
    ((modifyProc i f s).bind fun _ t => (modifyProc i g t).bind k) = (modifyProc i (fun p => g (f p)) s).bind k := by
  cases hp : s.procs[i]? with
  | none => rw [modifyProc_of_none _ hp, modifyProc_of_none _ hp, Ev.bind_broken, Ev.bind_broken]
  | some p =>
    obtain ⟨hi, -⟩ := List.getElem?_eq_some_iff.mp hp
    have hchanged : (s.setProcs (s.procs.set i (f p))).procs[i]? = some (f p) := List.getElem?_set_self hi
    rw [modifyProc_of_some _ hp, modifyProc_of_some _ hp, Ev.bind_ok, Ev.bind_ok, modifyProc_of_some _ hchanged,
      Ev.bind_ok, State.setProcs_procs, List.set_set]
    rfl

/-- The record that SAVE and the mark Ready leave of a preempted process (R173). -/
def Process.preempted (p : Process) (r : Regs) : Process := (p.setRegs r).setState .ready

/-- The outgoing half of a preemption: SAVE and the mark Ready are one change of the record. -/
theorem save_setReady {α : Type} (i : Nat) (s : State) (k : Unit → State → Ev α) :
    ((save i s).bind fun _ t => (modifyProc i (fun p => p.setState .ready) t).bind k) =
      (modifyProc i (fun p => p.preempted s.regs) s).bind k :=
  modifyProc_modifyProc i _ _ s k

/-- The state in the middle of a preemption: TICKS has counted, and the running process's record is now `p` (R167, R169). -/
def State.outgoing (s : State) (p : Process) : State :=
  (s.setTicks (s.ticks + 1)).setProcs (s.procs.set s.cur p)

/-- A change of the running process's record, once TICKS has counted. -/
theorem modifyProc_outgoing (f : Process → Process) (hp : s.procs[s.cur]? = some p) :
    modifyProc s.cur f (s.setTicks (s.ticks + 1)) = .ok () (s.outgoing (f p)) :=
  modifyProc_of_some (s := s.setTicks (s.ticks + 1)) f hp

/-! ### The round-robin timer -/

/-- TMR_RR before the quantum, or with one process, counts and does nothing else (R167). -/
theorem tmrRr_counts (h : ¬ (s.cfg.quantum.toNat ≤ (s.ticks + 1).toNat ∧ 1 < s.procs.length)) :
    tmrRr s = .ok () (s.setTicks (s.ticks + 1)) := if_neg h

/-- The next index in circular order is another one where there are two or more. -/
theorem succ_mod_ne_self {n : Nat} (hi : i < n) (hn : 1 < n) : (i + 1) % n ≠ i := by
  rcases Nat.lt_or_ge (i + 1) n with hlt | hge
  · rw [Nat.mod_eq_of_lt hlt]
    omega
  · have hlast : i + 1 = n := by omega
    rw [hlast, Nat.mod_self]
    omega

/-- TMR_RR from the quantum on: the running process is preempted and the next one is dispatched (R167). -/
theorem tmrRr_switches (hquantum : s.cfg.quantum.toNat ≤ (s.ticks + 1).toNat) (htwo : 1 < s.procs.length)
    (hp : s.procs[s.cur]? = some p) (hq : s.procs[(s.cur + 1) % s.procs.length]? = some q) :
    tmrRr s = .ok () ((s.outgoing (p.preempted s.regs)).dispatched ((s.cur + 1) % s.procs.length) q) := by
  obtain ⟨hcur, -⟩ := List.getElem?_eq_some_iff.mp hp
  have hlength : (s.outgoing (p.preempted s.regs)).procs.length = s.procs.length := List.length_set
  have hnext : (s.outgoing (p.preempted s.regs)).procs[(s.cur + 1) % s.procs.length]? = some q :=
    (List.getElem?_set_ne (succ_mod_ne_self hcur htwo).symm).trans hq
  calc tmrRr s
      = (modifyProc s.cur (fun p => p.preempted s.regs) (s.setTicks (s.ticks + 1))).bind fun _ t =>
          dispatch ((s.cur + 1) % t.procs.length) t := (if_pos ⟨hquantum, htwo⟩).trans (save_setReady _ _ _)
    _ = dispatch ((s.cur + 1) % s.procs.length) (s.outgoing (p.preempted s.regs)) := by
        rw [modifyProc_outgoing _ hp, Ev.bind_ok, hlength]
    _ = _ := dispatch_of_some hnext

/-- Settles O32: the two branches of TMR_RR; the incoming record is not the one that was saved. -/
theorem roundRobinTimerPreempts : Obligations.RoundRobinTimerPreempts := by
  intro s p hrun he hv hp
  have hstep : step s = (tmrRr s.tookEvent).outcome := step_timer_of_slot hrun he hv
  refine ⟨fun hshort => ?_, fun hquantum htwo q hq => ?_⟩
  · rw [hstep, tmrRr_counts (s := s.tookEvent) hshort]
    rfl
  · rw [hstep, tmrRr_switches (s := s.tookEvent) hquantum htwo hp hq]
    rfl

/-! ### The priority timer -/

/-- TMR_PRIO before the quantum counts and does nothing else (R169). -/
theorem tmrPrio_counts (h : (s.ticks + 1).toNat < s.cfg.quantum.toNat) :
    tmrPrio s = .ok () (s.setTicks (s.ticks + 1)) := if_neg (Nat.not_le.mpr h)

/-- The promotion of a record and its dispatch: the promoted record is the one installed and marked Running (R171). -/
theorem promote_dispatch (hq : s.procs[i]? = some q) :
    ((modifyProc i (fun p => p.setPrio (p.prio + 1)) s).bind fun _ t => dispatch i t) =
      .ok () (s.dispatched i (q.setPrio (q.prio + 1))) := by
  obtain ⟨hi, -⟩ := List.getElem?_eq_some_iff.mp hq
  have hpromoted : (s.setProcs (s.procs.set i (q.setPrio (q.prio + 1)))).procs[i]? =
      some (q.setPrio (q.prio + 1)) := List.getElem?_set_self hi
  rw [modifyProc_of_some _ hq, Ev.bind_ok, dispatch_of_some hpromoted, State.dispatched, State.setProcs_procs,
    List.set_set]
  rfl

/-- TMR_PRIO from the quantum on: the running process is preempted and demoted, and the process that TOP then selects
among all is promoted and dispatched (R169). -/
theorem tmrPrio_switches (hquantum : s.cfg.quantum.toNat ≤ (s.ticks + 1).toNat) (hp : s.procs[s.cur]? = some p)
    (ht : t = s.outgoing ((p.preempted s.regs).setPrio (p.prio - 1))) (hq : t.procs[top t]? = some q) :
    tmrPrio s = .ok () (t.dispatched (top t) (q.setPrio (q.prio + 1))) := by
  have hdemoted : modifyProc s.cur (fun p => (p.preempted s.regs).setPrio ((p.preempted s.regs).prio - 1))
      (s.setTicks (s.ticks + 1)) = .ok () t := ht ▸ modifyProc_outgoing _ hp
  calc tmrPrio s
      = (modifyProc s.cur (fun p => p.preempted s.regs) (s.setTicks (s.ticks + 1))).bind fun _ u =>
          (modifyProc s.cur (fun p => p.setPrio (p.prio - 1)) u).bind fun _ u =>
            (modifyProc (top u) (fun p => p.setPrio (p.prio + 1)) u).bind fun _ v => dispatch (top u) v :=
        (if_pos hquantum).trans (save_setReady _ _ _)
    _ = (modifyProc (top t) (fun p => p.setPrio (p.prio + 1)) t).bind fun _ v => dispatch (top t) v := by
        rw [modifyProc_modifyProc, hdemoted, Ev.bind_ok]
    _ = _ := promote_dispatch hq

/-- Settles O33: the two branches of TMR_PRIO; TOP is the choice by `higherPrio` over the records after the demotion. -/
theorem priorityTimerDemotesAndPromotes : Obligations.PriorityTimerDemotesAndPromotes := by
  intro s p hrun he hv hp
  have hstep : step s = (tmrPrio s.tookEvent).outcome := step_timer_of_slot hrun he hv
  refine ⟨fun hshort => ?_, fun hquantum => ?_⟩
  · rw [hstep, tmrPrio_counts (s := s.tookEvent) hshort]
    rfl
  · obtain ⟨hcur, -⟩ := List.getElem?_eq_some_iff.mp hp
    have hne : (s.tookEvent.outgoing ((p.preempted s.regs).setPrio (p.prio - 1))).procs ≠ [] :=
      List.ne_nil_of_mem (List.mem_set hcur _)
    obtain ⟨q, hq, hbest⟩ := top_spec hne
    refine ⟨_, _, q, rfl, hq, fun r hr => higherPrio_eq_false_iff.mp (hbest r hr), ?_⟩
    rw [hstep, tmrPrio_switches (s := s.tookEvent) hquantum hp rfl hq]
    rfl

end Sys2Proof.Machine
end

section
/-! SUPPORT. Reset and the host's events of CONSTRUCT (spec 70_reset_and_hazards.md R200 to R205): RAM and POOL at reset,
word by word and frame by frame, and the effects of HOST_WRITE, HOST_CREATE and START. -/

namespace Sys2Proof.Machine

variable {s : State} {p : Process} {ps : List Process} {pa v extStart extSize burst prio : Word}

/-! ### The reset state -/

/-- RAM without a cell is all 0 (R200). -/
theorem Memory.readWord_nil (k : Nat) : Memory.readWord [] k = 0 := by
  simp only [Memory.readWord, Memory.read_nil]
  decide

/-- RAM at reset, word by word: the header of the one free block, and 0 elsewhere (R71, R200). -/
theorem readWord_initialMemory (c : Config) (k : Nat) :
    (initialMemory c).readWord k =
      if k = c.heapBase.toNat then c.heapBase else if k = c.heapBase.toNat + 1 then c.heapWords else 0 := by
  have hempty : Memory.wf [] := ⟨.nil, by simp⟩
  rw [initialMemory, Memory.readWord_writeWord (Memory.writeWord_wf hempty _ _), Memory.readWord_writeWord hempty,
    Memory.readWord_nil]
  by_cases hbase : k = c.heapBase.toNat
  · rw [if_neg (by omega), if_pos hbase, if_pos hbase]
  · rw [if_neg hbase, if_neg hbase]

/-- The frames were pushed in ascending order, so position `k` from the top holds frame `n - 1 - k` (R68). -/
theorem getElem?_pushFrames {size n k : Nat} (hk : k < n) :
    (pushFrames size n)[k]? = some (BitVec.ofNat 32 ((n - 1 - k) * size)) := by
  induction n generalizing k with
  | zero => exact absurd hk (Nat.not_lt_zero k)
  | succ n ih =>
    cases k with
    | zero => rfl
    | succ k =>
      have hindex : n - 1 - k = n + 1 - 1 - (k + 1) := by omega
      rw [pushFrames, List.getElem?_cons_succ, ih (Nat.lt_of_succ_lt_succ hk), hindex]

/-- POOL at reset, frame by frame from its top (R68). -/
theorem getElem?_initialPool {c : Config} (hc : c.wf) {k : Nat} (hk : k < c.frameCount) :
    ((initialPool c)[k]?).map BitVec.toNat = some ((c.frameCount - 1 - k) * c.pageSize) := by
  have hram := Config.frameCount_mul_pageSize hc
  obtain ⟨hsize, -, -, hfit, -⟩ := hc
  have hframe : c.frameCount - 1 - k < c.frameCount := by omega
  rw [initialPool, getElem?_pushFrames hk, Option.map_some, toNat_frameBase hframe hsize (by omega)]

/-- Settles O36: RAM holds the header alone, POOL the frames in descending order, and the rest is as R200 writes it. -/
theorem resetLeavesTheListedState : Obligations.ResetLeavesTheListedState := fun c hc =>
  ⟨rfl, rfl, readWord_initialMemory c, rfl, length_pushFrames _ _, fun _ hk => getElem?_initialPool hc hk,
    rfl, rfl, rfl, rfl, rfl, rfl, rfl, rfl, rfl⟩

/-! ### HOST_WRITE -/

theorem hostWrite_of_lt (h : pa.toNat < s.cfg.ramWords) :
    hostWrite pa v s = .next (s.setMem (s.mem.writeWord pa.toNat v)) := by
  rw [hostWrite, if_pos h, memWrite_of_lt h, Ev.outcome_ok]

theorem hostWrite_of_ge (h : s.cfg.ramWords ≤ pa.toNat) : hostWrite pa v s = .refused (.hostWriteRange pa) :=
  if_neg (Nat.not_lt.mpr h)

/-- Settles O38: the event is admitted in CONSTRUCT alone, and its range check decides between the other two. -/
theorem hostWriteSetsOneWord : Obligations.HostWriteSetsOneWord := by
  intro s pa v he
  have hstep : s.phase = .construct → step s = hostWrite pa v s.tookEvent := fun hphase =>
    step_of_admitted he (beq_iff_eq.mpr hphase)
  refine ⟨fun hphase => step_of_not_admitted he (beq_eq_false_iff_ne.mpr hphase), fun hphase hrange => ?_,
    fun hphase hram hwf => ?_⟩
  · exact (hstep hphase).trans (hostWrite_of_ge (s := s.tookEvent) hrange)
  · exact ⟨_, (hstep hphase).trans (hostWrite_of_lt (s := s.tookEvent) hram), rfl, Memory.writeWord_wf hwf _ _,
      fun k => Memory.readWord_writeWord hwf _ k v⟩

/-! ### HOST_CREATE -/

/-- HOST_CREATE with every pid handed out halts (R204). -/
theorem hostCreate_exhausted (h : s.nextPid = pidLimit) :
    hostCreate extStart extSize burst prio s = haltEvent .pidExhausted s := if_pos h

/-- HOST_CREATE appends its record under the next pid and answers that pid (R204). -/
theorem hostCreate_appends (h : s.nextPid ≠ pidLimit) :
    hostCreate extStart extSize burst prio s =
      .ok () (((s.setProcs (s.procs ++
        [newProcess s.cfg (BitVec.ofNat 32 s.nextPid) extStart extSize burst prio])).setNextPid (s.nextPid + 1)).reply
          (.pid (BitVec.ofNat 32 s.nextPid))) := if_neg h

/-- Settles O39: the event is admitted in CONSTRUCT alone, and NEXT_PID decides between the other two. -/
theorem hostCreateAppendsRecord : Obligations.HostCreateAppendsRecord := by
  refine ⟨fun s extStart extSize burst prio he => ?_, fun _ _ => rfl⟩
  have hstep : s.phase = .construct → step s = (hostCreate extStart extSize burst prio s.tookEvent).outcome :=
    fun hphase => step_of_admitted he (beq_iff_eq.mpr hphase)
  refine ⟨fun hphase => step_of_not_admitted he (beq_eq_false_iff_ne.mpr hphase), fun hphase hlast => ?_,
    fun hphase hpid => ?_⟩
  · rw [hstep hphase, hostCreate_exhausted (s := s.tookEvent) hlast]
    rfl
  · rw [hstep hphase, hostCreate_appends (s := s.tookEvent) hpid]
    rfl

/-! ### START -/

/-- START with no process halts (R205). -/
theorem start_nil (h : s.procs = []) : start s = haltEvent .noProcess s := if_pos h

/-- START enters RUN and dispatches the first created process (R171, R205). -/
theorem start_cons (h : s.procs = p :: ps) : start s = .ok () ((s.setPhase .run).dispatched 0 p) := by
  have hfirst : (s.setPhase .run).procs[0]? = some p := by rw [State.setPhase_procs, h, List.getElem?_cons_zero]
  exact (if_neg (h ▸ List.cons_ne_nil p ps)).trans (dispatch_of_some hfirst)

/-- The first dispatch marks the first record Running and leaves the others as they were (R171, R205). -/
theorem State.dispatched_zero (h : s.procs = p :: ps) :
    s.dispatched 0 p =
      { s with regs := p.regs, livePt := some p.pid, procs := p.setState .running :: ps, cur := 0, ticks := 0 } := by
  rw [State.dispatched, h, List.set_cons_zero]
  rfl

/-- Settles O40: the event is admitted in CONSTRUCT alone, and PROCS decides between the other two. -/
theorem startDispatchesFirstCreated : Obligations.StartDispatchesFirstCreated := by
  intro s he
  have hstep : s.phase = .construct → step s = (start s.tookEvent).outcome := fun hphase =>
    step_of_admitted he (beq_iff_eq.mpr hphase)
  refine ⟨fun hphase => step_of_not_admitted he (beq_eq_false_iff_ne.mpr hphase), fun hphase hnone => ?_,
    fun p ps hphase hprocs => ?_⟩
  · rw [hstep hphase, start_nil (s := s.tookEvent) hnone]
    rfl
  · rw [hstep hphase, start_cons (s := s.tookEvent) hprocs, Ev.outcome_ok,
      State.dispatched_zero (s := s.tookEvent.setPhase .run) hprocs]
    rfl

end Sys2Proof.Machine
end
